-- ==== Sys2Proof/Word.lean ====
section
/-! DEFINITION. The values that cross the unit's interface: bytes, byte strings, bit strings, numbers (rules R13 to
R15), the request word (rule R79) with its operand values (rule R33). -/

namespace Sys2Proof

/-- A character is one byte with code 0..255 (rule R14). -/
abbrev Byte := BitVec 8

/-- A byte string, addressed by character index from 0 (rules R14, R40). -/
abbrev Str := List Byte

/-- A bit string, addressed by bit offset from 0; bit 0 is the first bit of the first armored character (rules R13,
R40). -/
abbrev Bits := List Bool

/-- A literal in double quotes is the string of its ASCII bytes (rule R14). -/
def ascii (t : String) : Str := t.toList.map fun c => BitVec.ofNat 8 c.toNat

/-- A scaled value: an exact rational, or the marker NaN, "present but marked unavailable by the protocol" (rule
R15). -/
inductive Num where
  | nan
  | rat (q : Rat)
deriving DecidableEq, Repr

/-- One operand value of a request. The shapes are those of rule R33: `Str`, `Bits`, `Nat`, `Int`, and the Boolean
of ENCPOSA. -/
inductive Operand where
  | str (s : Str)
  | bits (b : Bits)
  | nat (n : Nat)
  | int (z : Int)
  | bool (v : Bool)
deriving DecidableEq, Repr

/-- A request: the 5-bit operation-select code OPSEL and the operands in the order of rule R33 (rule R79). -/
structure Request where
  opsel : BitVec 5
  operands : List Operand
deriving DecidableEq, Repr

/-- The two encodings the opcode table numbers: a request word with its operands (format OP, rule R79), and an
armored message whose header selects a layout (format MSG, rule R78). -/
inductive Words where
  | request (r : Request)
  | message (payload : Str)
deriving DecidableEq, Repr

end Sys2Proof
end

