-- ==== Sys2Proof/Config.lean ====
section
/-! DEFINITION. The parameters: those the source fixes (rule R11), and those it leaves open (rule R12), each of the
latter a field of `Params` whose default is the spec's own choice. -/

namespace Sys2Proof.Config

/-! ### Rule R11: fixed by the source -/

/-- MAX_FIELD_LEN. -/
def maxFieldLen : Nat := 30

/-- MIN_BITS by message type; a type without a layout has no minimum and gets 0 here, which nothing reads. -/
def minBits : Nat → Nat
  | 1 => 168
  | 2 => 168
  | 3 => 168
  | 4 => 168
  | 5 => 424
  | 18 => 168
  | 24 => 160
  | _ => 0

/-- The seven supported types (rule R4). -/
def supportedTypes : List Nat := [1, 2, 3, 4, 5, 18, 24]

/-- MMSI_MIN_BITS. -/
def mmsiMinBits : Nat := 38

/-- TYPE_MIN_BITS. -/
def typeMinBits : Nat := 6

/-- CALLSIGN_CHARS. -/
def callsignChars : Nat := 7

/-- NAME_CHARS. -/
def nameChars : Nat := 20

/-- CHUNK_MAX. -/
def chunkMax : Nat := 62

/-- MIN_FIELDS. -/
def minFields : Nat := 7

/-- PAYLOAD_FIELD, counting from 0. -/
def payloadField : Nat := 5

/-- TAGS, the first: a report received from another vessel. -/
def tagVDM : Str := ascii "!AIVDM"

/-- TAGS, the second: an own-ship report. -/
def tagVDO : Str := ascii "!AIVDO"

/-- SOG_SCALE and COG_SCALE. -/
def tenthScale : Nat := 10

/-- POS_SCALE. -/
def posScale : Nat := 600000

/-- LON_SENTINELS, the first (181 degrees). -/
def lonSentinel : Int := 0x6791AC0

/-- LAT_SENTINELS, the first (91 degrees). -/
def latSentinel : Int := 0x3412140

/-- The second sentinel, the same for both axes. -/
def onesSentinel : Int := 0xFFFFFFF

/-! ### Rule R12: open, with the spec's default -/

/-- SENTINEL_COMPARE (decision D7): how a raw position is compared with its sentinels. -/
inductive SentinelCompare where
  | signedValue
  | bitPattern
deriving DecidableEq, Repr

/-- The scalar a DECOPT option selects (rule R137). -/
inductive OptionKey where
  | type | mmsi | navStatus | rot | sog | posAccuracy | lon | lat | cog | heading | timestamp | imo | shipType
  | dimA | dimB | dimC | dimD | partNumber
deriving DecidableEq, Repr

/-- The six layouts an encoder can build (rules R153 to R158). -/
inductive EncLayout where
  | posA | base | voyage | posB | nameA | staticB
deriving DecidableEq, Repr

/-- The parameters of rule R12 that an operation of the unit reads. STR_MAX is unbounded, FLOAT_FMT is not applied
(exact rationals are returned), OPSEL numbering stands in the decoder, and QUANT lies outside the unit (`IsQuant`)
(DESIGN CHOICE, log entry 7). -/
structure Params where
  /-- ARMOR_OOR: the six-bit value TOBITS emits for a `v` outside 0..63 (decision D4). -/
  armorOor : Int → Nat
  /-- SENTINEL_COMPARE (decision D7). -/
  sentinelCompare : SentinelCompare
  /-- OPTION_NAMES (decision D13). -/
  optionNames : List (Str × OptionKey)
  /-- ENC_BITS (decision D14). -/
  encBits : EncLayout → Nat
  /-- SPACE_CODE (decision D19). -/
  spaceCode : Nat
  /-- ENC_TAG (decision D22). -/
  encTag : Str

/-- ARMOR_OOR's default: the low six bits, `v mod 64` with floor modulus (rule R65). -/
def armorOorDefault (v : Int) : Nat := (v % 64).toNat

/-- OPTION_NAMES' default, the table of rule R137. -/
def optionNamesDefault : List (Str × OptionKey) :=
  [(ascii "type", .type), (ascii "mmsi", .mmsi), (ascii "navStatus", .navStatus), (ascii "rot", .rot),
   (ascii "sog", .sog), (ascii "posAccuracy", .posAccuracy), (ascii "lon", .lon), (ascii "lat", .lat),
   (ascii "cog", .cog)] ++
  [(ascii "heading", .heading), (ascii "timestamp", .timestamp), (ascii "imo", .imo),
   (ascii "shiptype", .shipType), (ascii "dimA", .dimA), (ascii "dimB", .dimB), (ascii "dimC", .dimC),
   (ascii "dimD", .dimD), (ascii "partNumber", .partNumber)]

/-- ENC_BITS' default: the MIN_BITS of the layout's type (rule R151). -/
def encBitsDefault : EncLayout → Nat
  | .posA => minBits 1
  | .base => minBits 4
  | .voyage => minBits 5
  | .posB => minBits 18
  | .nameA => minBits 24
  | .staticB => minBits 24

/-- The unit with every open parameter at its default (rule R12; DESIGN CHOICE, log entry 5; unsafe). -/
def params : Params where
  armorOor := armorOorDefault
  sentinelCompare := .signedValue
  optionNames := optionNamesDefault
  encBits := encBitsDefault
  spaceCode := 0
  encTag := tagVDM

/-! ### QUANT: outside the unit (rule R152) -/

/-- The axis of a position field. -/
inductive Axis where
  | lon | lat
deriving DecidableEq, Repr

/-- An axis' first sentinel (rule R11). -/
def firstSentinel : Axis → Int
  | .lon => lonSentinel
  | .lat => latSentinel

/-- The one constraint rule R152 puts on QUANT: a raw value within 1/k of the scaled one for k = 10 and k = 600000, and
an unavailable position sent as the axis' first sentinel (decisions D16, D17). `tenth` is QUANT(x, 10), `position` is
QUANT(x, 600000). -/
structure IsQuant (tenth : Rat → Int) (position : Axis → Num → Int) : Prop where
  tenth_close : ∀ x : Rat, |(tenth x : Rat) / 10 - x| ≤ 1 / 10
  position_close : ∀ (a : Axis) (x : Rat), |(position a (.rat x) : Rat) / 600000 - x| ≤ 1 / 600000
  position_nan : ∀ a : Axis, position a .nan = firstSentinel a

end Sys2Proof.Config
end

