-- ==== Sys2Proof/Syntax.lean ====
section
/-! DEFINITION. The instructions: the 24 operations of rule R5 and the 12 message rows of rule R78, one constructor for
each row of spec/opcode_table.json. -/

namespace Sys2Proof

/-- The operand fields of types 1, 2 and 3 (rule R70) and of ENCPOSA (rule R153), as raw integers. -/
structure PosA where
  mmsi : Int
  navStatus : Int
  rot : Int
  sogRaw : Int
  posAccuracy : Bool
  lonRaw : Int
  latRaw : Int
  cogRaw : Int
  heading : Int
  timestamp : Int
deriving DecidableEq, Repr

/-- The operand fields of type 4 (rule R71) and of ENCBASE (rule R154). -/
structure Base where
  mmsi : Int
  lonRaw : Int
  latRaw : Int
deriving DecidableEq, Repr

/-- The operand fields of type 5 (rule R72, text as the bits of the field) and of ENCSTAT (rule R155, text as byte
strings). -/
structure Voyage (τ : Type) where
  mmsi : Int
  imo : Int
  callsign : τ
  shipName : τ
  shipType : Int
  dimA : Int
  dimB : Int
  dimC : Int
  dimD : Int
deriving DecidableEq, Repr

/-- The operand fields of type 18 (rule R73) and of ENCPOSB (rule R156). -/
structure PosB where
  mmsi : Int
  sogRaw : Int
  lonRaw : Int
  latRaw : Int
  cogRaw : Int
  heading : Int
deriving DecidableEq, Repr

/-- The operand fields of type 24 part 0 (rule R75) and of ENC24A (rule R157). -/
structure NameA (τ : Type) where
  mmsi : Int
  shipName : τ
deriving DecidableEq, Repr

/-- The operand fields of type 24 part 1 (rule R76) and of ENC24B (rule R158). -/
structure StaticB (τ : Type) where
  mmsi : Int
  shipType : Int
  callsign : τ
  dimA : Int
  dimB : Int
  dimC : Int
  dimD : Int
deriving DecidableEq, Repr

/-- One constructor per row of the opcode table. The first 24 are requests (rule R5), with the operands of rule R33; an
integer operand whose rule tests its range is an `Int`. The last 12 are the message rows MSGDEC dispatches to (rule
R78), with the fields their layouts extract. -/
inductive Instr where
  | tobits (payload : Str)
  | toarmor (bits : Bits)
  | extu (bits : Bits) (start length : Nat)
  | exts (bits : Bits) (start length : Nat)
  | insu (bits : Bits) (start length : Nat) (value : Int)
  | inss (bits : Bits) (start length : Nat) (value : Int)
  | txtdec (bits : Bits)
  | txtenc (text : Str) (maxChars : Nat)
  | declon (raw : Int)
  | declat (raw : Int)
  | msgdec (payload : Str)
  | decline (line : Str)
  | decopt (line option tag : Str)
  | encposa (type : Int) (f : PosA)
  | encbase (f : Base)
  | encstat (f : Voyage Str)
  | encposb (f : PosB)
  | enc24a (f : NameA Str)
  | enc24b (f : StaticB Str)
  | isvalid (line pfx : Str)
  | parse (line : Str)
  | chksum (sentence : Str)
  | frame (payload tag : Str)
  | chkvfy (sentence : Str)
  | msg1 (f : PosA)
  | msg2 (f : PosA)
  | msg3 (f : PosA)
  | msg4 (f : Base)
  | msg5 (f : Voyage Bits)
  | msg18 (f : PosB)
  | msg24a (f : NameA Bits)
  | msg24b (f : StaticB Bits)
  | msg24x (mmsi partNumber : Int)
  /-- `mmsi` is absent when the message is shorter than 38 bits. -/
  | msgother (type : Int) (mmsi : Option Int)
  /-- `mmsi` is absent when the message is shorter than 38 bits. -/
  | msgshort (type : Int) (mmsi : Option Int)
  | msgempty
deriving DecidableEq, Repr

end Sys2Proof
end

