-- ==== Sys2Proof/WellFormed.lean ====
section
/-! DEFINITION. Which instructions are well formed: for an operation, operands in the domain its rule gives them (the
complement of the refusals of rule R196); for a message row, field values its layout's widths can hold (rules R68 to
R77). -/

namespace Sys2Proof

/-- The value fits an `l`-bit unsigned field (rule R152). -/
def fitsU (l : Nat) (x : Int) : Bool := decide (0 ≤ x) && decide (x < 2 ^ l)

/-- The value fits an `l`-bit two's-complement field (rule R152). -/
def fitsS (l : Nat) (x : Int) : Bool := decide (-(2 ^ (l - 1)) ≤ x) && decide (x < 2 ^ (l - 1))

/-- The slice lies inside the bit string and is no wider than MAX_FIELD_LEN (rules R49, R50). -/
def sliceOk (bits : Bits) (start length : Nat) : Bool :=
  decide (length ≤ Config.maxFieldLen) && decide (start + length ≤ bits.length)

/-- Every field of types 1, 2, 3 fits its width (rule R70). -/
def PosA.fits (f : PosA) : Bool :=
  fitsU 30 f.mmsi && fitsU 4 f.navStatus && fitsS 8 f.rot && fitsU 10 f.sogRaw && fitsS 28 f.lonRaw &&
    fitsS 27 f.latRaw && fitsU 12 f.cogRaw && fitsU 9 f.heading && fitsU 6 f.timestamp

/-- Every field of type 4 fits its width (rule R71). -/
def Base.fits (f : Base) : Bool := fitsU 30 f.mmsi && fitsS 28 f.lonRaw && fitsS 27 f.latRaw

/-- Every field of type 5 but the texts fits its width (rule R72). -/
def Voyage.fits {τ : Type} (f : Voyage τ) : Bool :=
  fitsU 30 f.mmsi && fitsU 30 f.imo && fitsU 8 f.shipType && fitsU 9 f.dimA && fitsU 9 f.dimB && fitsU 6 f.dimC &&
    fitsU 6 f.dimD

/-- Every field of type 18 fits its width (rule R73). -/
def PosB.fits (f : PosB) : Bool :=
  fitsU 30 f.mmsi && fitsU 10 f.sogRaw && fitsS 28 f.lonRaw && fitsS 27 f.latRaw && fitsU 12 f.cogRaw &&
    fitsU 9 f.heading

/-- Every field of type 24 part 0 but the text fits its width (rule R75). -/
def NameA.fits {τ : Type} (f : NameA τ) : Bool := fitsU 30 f.mmsi

/-- Every field of type 24 part 1 but the text fits its width (rule R76). -/
def StaticB.fits {τ : Type} (f : StaticB τ) : Bool :=
  fitsU 30 f.mmsi && fitsU 8 f.shipType && fitsU 9 f.dimA && fitsU 9 f.dimB && fitsU 6 f.dimC && fitsU 6 f.dimD

/-- A text field of `chars` characters is `6 * chars` bits (rule R114). -/
def textWidth (chars : Nat) (b : Bits) : Bool := b.length == 6 * chars

/-- A type with one of the eight layouts (rule R4). -/
def isSupported (type : Int) : Bool := decide (0 ≤ type) && Config.supportedTypes.contains type.toNat

/-- An `mmsi` that was read fits its 30 bits (rule R68). -/
def mmsiOk : Option Int → Bool
  | none => true
  | some m => fitsU 30 m

/-- The well-formed instructions. -/
def WellFormed : Instr → Bool
  | .tobits _ => true
  | .toarmor _ => true
  | .extu b s l => sliceOk b s l
  | .exts b s l => decide (1 ≤ l) && sliceOk b s l
  | .insu b s l v => sliceOk b s l && fitsU l v
  | .inss b s l v => decide (1 ≤ l) && sliceOk b s l && fitsS l v
  | .txtdec _ => true
  | .txtenc _ _ => true
  | .declon _ => true
  | .declat _ => true
  | .msgdec _ => true
  | .decline _ => true
  | .decopt _ _ _ => true
  | .encposa t f => (t == 1 || t == 2 || t == 3) && f.fits
  | .encbase f => f.fits
  | .encstat f => f.fits
  | .encposb f => f.fits
  | .enc24a f => f.fits
  | .enc24b f => f.fits
  | .isvalid _ _ => true
  | .parse _ => true
  | .chksum x => x.take 1 == ascii "!" && x.contains (BitVec.ofNat 8 42)
  | .frame _ tag => tag == Config.tagVDM || tag == Config.tagVDO
  | .chkvfy _ => true
  | .msg1 f => f.fits
  | .msg2 f => f.fits
  | .msg3 f => f.fits
  | .msg4 f => f.fits
  | .msg5 f => f.fits && textWidth Config.callsignChars f.callsign && textWidth Config.nameChars f.shipName
  | .msg18 f => f.fits
  | .msg24a f => f.fits && textWidth Config.nameChars f.shipName
  | .msg24b f => f.fits && textWidth Config.callsignChars f.callsign
  | .msg24x m part => fitsU 30 m && (part == 2 || part == 3)
  | .msgother t m => fitsU 6 t && !isSupported t && mmsiOk m
  | .msgshort t m => isSupported t && mmsiOk m
  | .msgempty => true

end Sys2Proof
end

