-- ==== Sys2Proof/Machine/Operands.lean ====
section
/-! DEFINITION. The two operand spaces (rule R40) and the alphabets between them: reading and writing bit strings (rules
R13, R42 to R48), armoring (rules R64, R65), and the six-bit text alphabet (rules R66, R67). -/

namespace Sys2Proof.Machine

/-! ### Bit strings and byte strings (rules R13, R14) -/

/-- `xs[s ..< s + l]`. -/
def slice {α : Type} (xs : List α) (s l : Nat) : List α := (xs.drop s).take l

/-- `uint`: the number a bit string spells, first bit most significant. -/
def uint (b : Bits) : Nat := b.foldl (fun x bit => 2 * x + bit.toNat) 0

/-- `bits_l(v)`: the `l` low bits of `v`, most significant first. -/
def bitsOf : Nat → Nat → Bits
  | 0, _ => []
  | l + 1, v => v.testBit l :: bitsOf l v

/-- `zeros(k)`. -/
def zeros (k : Nat) : Bits := List.replicate k false

/-- `b` with the bits from `s` on replaced by those of `w`. -/
def splice (b : Bits) (s : Nat) (w : Bits) : Bits := b.take s ++ w ++ b.drop (s + w.length)

/-- The unsigned field `[s,l)` of `b`, big-endian (rule R44). -/
def uintAt (b : Bits) (s l : Nat) : Nat := uint (slice b s l)

/-- The two's-complement field `[s,l)` of `b`: the bit at offset `s` is the sign (rules R44, R105). -/
def sintAt (b : Bits) (s l : Nat) : Int :=
  if b[s]? = some true then (uintAt b s l : Int) - 2 ^ l else uintAt b s l

/-- The unsigned number that the `l`-bit two's-complement pattern of `v` spells: `2^l` is added to a negative value (rule
R103). -/
def twosOf (l : Nat) (v : Int) : Int := if v < 0 then v + 2 ^ l else v

/-- The values of the whole six-bit groups of `b`, in order; 1 to 5 bits that remain are not read (rules R45, R48). -/
def sixes : Bits → List Nat
  | a :: b :: c :: d :: e :: f :: rest => uint [a, b, c, d, e, f] :: sixes rest
  | _ => []

/-- `b` padded on the right with zero bits to a multiple of 6 (rules R48, R91). -/
def padSix (b : Bits) : Bits := b ++ zeros (6 * ((b.length + 5) / 6) - b.length)

/-! ### The armor alphabet -/

/-- Value to byte (rule R64). -/
def armorByte (v : Nat) : Byte := if v < 40 then BitVec.ofNat 8 (v + 48) else BitVec.ofNat 8 (v + 56)

/-- The integer the de-armoring formula gives for a byte: `code - 48`, and 8 less when that is above 40 (rule R65). -/
def armorValue (c : Byte) : Int :=
  let v : Int := (c.toNat : Int) - 48
  if v > 40 then v - 8 else v

/-- Byte to six-bit value: the formula's value, and ARMOR_OOR's rendering of one outside 0..63 (rule R65). -/
def deArmor (p : Config.Params) (c : Byte) : Nat :=
  let v := armorValue c
  if 0 ≤ v ∧ v < 64 then v.toNat else p.armorOor v

/-- TOBITS (rule R90). -/
def toBits (p : Config.Params) (payload : Str) : Bits := payload.flatMap fun c => bitsOf 6 (deArmor p c)

/-- TOARMOR (rule R91). -/
def toArmor (b : Bits) : Str := (sixes (padSix b)).map armorByte

/-! ### The six-bit text alphabet -/

/-- Group to byte (rule R66). -/
def textByte (v : Nat) : Byte := if v < 32 then BitVec.ofNat 8 (v + 64) else BitVec.ofNat 8 v

/-- The pad byte `@`, code 64. -/
def padByte : Byte := BitVec.ofNat 8 64

/-- The space byte, code 32. -/
def spaceByte : Byte := BitVec.ofNat 8 32

/-- TXTDEC: groups to bytes, every `@` dropped, trailing spaces trimmed (rule R110). -/
def txtdec (b : Bits) : Str :=
  let s := ((sixes b).map textByte).filter (· != padByte)
  (s.reverse.dropWhile (· == spaceByte)).reverse

/-- Upper-casing of the 26 ASCII letters (rule R111). -/
def upper (c : Byte) : Byte := if 97 ≤ c.toNat ∧ c.toNat ≤ 122 then BitVec.ofNat 8 (c.toNat - 32) else c

/-- Byte to group after upper-casing (rule R67); a space gives SPACE_CODE (rule R112). -/
def textCode (p : Config.Params) (c : Byte) : Nat :=
  let n := c.toNat
  if n = 64 then 0
  else if n = 32 then p.spaceCode
  else if 65 ≤ n ∧ n ≤ 90 then n - 64
  else if 48 ≤ n ∧ n ≤ 57 then n
  else 0

/-- The text cut or padded with `@` to exactly `maxChars` bytes, upper-cased (rule R111). -/
def fitText (text : Str) (maxChars : Nat) : Str :=
  let t := text.map upper
  if t.length > maxChars then t.take maxChars else t ++ List.replicate (maxChars - t.length) padByte

/-- TXTENC (rule R111). -/
def txtenc (p : Config.Params) (text : Str) (maxChars : Nat) : Bits :=
  (fitText text maxChars).flatMap fun c => bitsOf 6 (textCode p c)

end Sys2Proof.Machine
end

