-- ==== Sys2Proof/Decode.lean ====
section
/-! DEFINITION. Decoding and encoding, from the tables of 30_encoding.md: the request word (rule R79) with the operand
shapes of rule R33, and the armored message (rules R68 to R78). Both decoders are total; a request that is none is
rejected by name. -/

namespace Sys2Proof

open Sys2Proof.Machine

/-- Why a request word is not an instruction. -/
inductive Rejection where
  /-- OPSEL is 0x00 or 0x19 to 0x1F (rule R79). -/
  | unassignedOpsel
  /-- The operands do not have the shapes rule R33 gives the operation. -/
  | operandShape
deriving DecidableEq, Repr

/-! ### Message layouts: reading (rules R70 to R76) -/

/-- The layout of types 1, 2 and 3 (rule R70). -/
def readPosA (b : Bits) : PosA where
  mmsi := uintAt b 8 30
  navStatus := uintAt b 38 4
  rot := sintAt b 42 8
  sogRaw := uintAt b 50 10
  posAccuracy := uintAt b 60 1 == 1
  lonRaw := sintAt b 61 28
  latRaw := sintAt b 89 27
  cogRaw := uintAt b 116 12
  heading := uintAt b 128 9
  timestamp := uintAt b 137 6

/-- The layout of type 4 (rule R71). -/
def readBase (b : Bits) : Base where
  mmsi := uintAt b 8 30
  lonRaw := sintAt b 79 28
  latRaw := sintAt b 107 27

/-- The layout of type 5 (rule R72). -/
def readVoyage (b : Bits) : Voyage Bits where
  mmsi := uintAt b 8 30
  imo := uintAt b 40 30
  callsign := slice b 70 42
  shipName := slice b 112 120
  shipType := uintAt b 232 8
  dimA := uintAt b 240 9
  dimB := uintAt b 249 9
  dimC := uintAt b 258 6
  dimD := uintAt b 264 6

/-- The layout of type 18 (rule R73). -/
def readPosB (b : Bits) : PosB where
  mmsi := uintAt b 8 30
  sogRaw := uintAt b 46 10
  lonRaw := sintAt b 57 28
  latRaw := sintAt b 85 27
  cogRaw := uintAt b 112 12
  heading := uintAt b 124 9

/-- The layout of type 24 part 0 (rule R75). -/
def readNameA (b : Bits) : NameA Bits where
  mmsi := uintAt b 8 30
  shipName := slice b 40 120

/-- The layout of type 24 part 1 (rule R76). -/
def readStaticB (b : Bits) : StaticB Bits where
  mmsi := uintAt b 8 30
  shipType := uintAt b 40 8
  callsign := slice b 48 42
  dimA := uintAt b 90 9
  dimB := uintAt b 99 9
  dimC := uintAt b 108 6
  dimD := uintAt b 114 6

/-- The header's `mmsi`, read when the bit string has at least 38 bits (rule R68). -/
def readMmsi (b : Bits) : Option Int :=
  if Config.mmsiMinBits ≤ b.length then some (uintAt b 8 30) else none

/-! ### Dispatch (rules R78, R122) -/

/-- The twelve rows of format MSG. -/
inductive MsgRow where
  | msg1 | msg2 | msg3 | msg4 | msg5 | msg18 | msg24a | msg24b | msg24x | msgother | msgshort | msgempty
deriving DecidableEq, Repr

/-- The row of type 24 that `partNumber [38,2)` selects (rule R74). -/
def partRow (b : Bits) : MsgRow :=
  match uintAt b 38 2 with
  | 0 => .msg24a
  | 1 => .msg24b
  | _ => .msg24x

/-- The row a message bit string selects: by `type`, then by its length, then for type 24 by `partNumber` (rules R78,
R122, R123). -/
def rowOf (b : Bits) : MsgRow :=
  let n := b.length
  if n < Config.typeMinBits then .msgempty
  else
    match uintAt b 0 6 with
    | 1 => if Config.minBits 1 ≤ n then .msg1 else .msgshort
    | 2 => if Config.minBits 2 ≤ n then .msg2 else .msgshort
    | 3 => if Config.minBits 3 ≤ n then .msg3 else .msgshort
    | 4 => if Config.minBits 4 ≤ n then .msg4 else .msgshort
    | 5 => if Config.minBits 5 ≤ n then .msg5 else .msgshort
    | 18 => if Config.minBits 18 ≤ n then .msg18 else .msgshort
    | 24 => if Config.minBits 24 ≤ n then partRow b else .msgshort
    | _ => .msgother

/-- The message row, with its fields, that a message bit string is. -/
def decodeBits (b : Bits) : Instr :=
  match rowOf b with
  | .msg1 => .msg1 (readPosA b)
  | .msg2 => .msg2 (readPosA b)
  | .msg3 => .msg3 (readPosA b)
  | .msg4 => .msg4 (readBase b)
  | .msg5 => .msg5 (readVoyage b)
  | .msg18 => .msg18 (readPosB b)
  | .msg24a => .msg24a (readNameA b)
  | .msg24b => .msg24b (readStaticB b)
  | .msg24x => .msg24x (uintAt b 8 30) (uintAt b 38 2)
  | .msgother => .msgother (uintAt b 0 6) (readMmsi b)
  | .msgshort => .msgshort (uintAt b 0 6) (readMmsi b)
  | .msgempty => .msgempty

/-- The message row an armored payload is; total on any bytes (rules R80, R122). -/
def decodeMessage (payload : Str) : Instr := decodeBits (toBits Config.params payload)

/-! ### The request word (rules R5, R33, R79) -/

/-- The instruction a request is. -/
def decodeRequest (r : Request) : Except Rejection Instr :=
  match r.opsel.toNat with
  | 0x01 => match r.operands with
    | [.str payload] => .ok (.tobits payload)
    | _ => .error .operandShape
  | 0x02 => match r.operands with
    | [.bits b] => .ok (.toarmor b)
    | _ => .error .operandShape
  | 0x03 => match r.operands with
    | [.bits b, .nat start, .nat length] => .ok (.extu b start length)
    | _ => .error .operandShape
  | 0x04 => match r.operands with
    | [.bits b, .nat start, .nat length] => .ok (.exts b start length)
    | _ => .error .operandShape
  | 0x05 => match r.operands with
    | [.bits b, .nat start, .nat length, .int value] => .ok (.insu b start length value)
    | _ => .error .operandShape
  | 0x06 => match r.operands with
    | [.bits b, .nat start, .nat length, .int value] => .ok (.inss b start length value)
    | _ => .error .operandShape
  | 0x07 => match r.operands with
    | [.bits b] => .ok (.txtdec b)
    | _ => .error .operandShape
  | 0x08 => match r.operands with
    | [.str text, .nat maxChars] => .ok (.txtenc text maxChars)
    | _ => .error .operandShape
  | 0x09 => match r.operands with
    | [.int raw] => .ok (.declon raw)
    | _ => .error .operandShape
  | 0x0A => match r.operands with
    | [.int raw] => .ok (.declat raw)
    | _ => .error .operandShape
  | 0x0B => match r.operands with
    | [.str payload] => .ok (.msgdec payload)
    | _ => .error .operandShape
  | 0x0C => match r.operands with
    | [.str line] => .ok (.decline line)
    | _ => .error .operandShape
  | 0x0D => match r.operands with
    | [.str line, .str option, .str tag] => .ok (.decopt line option tag)
    | _ => .error .operandShape
  | 0x0E => match r.operands with
    | [.int type, .int mmsi, .int navStatus, .int rot, .int sogRaw, .bool posAccuracy, .int lonRaw, .int latRaw,
       .int cogRaw, .int heading, .int timestamp] =>
      .ok (.encposa type ⟨mmsi, navStatus, rot, sogRaw, posAccuracy, lonRaw, latRaw, cogRaw, heading, timestamp⟩)
    | _ => .error .operandShape
  | 0x0F => match r.operands with
    | [.int mmsi, .int lonRaw, .int latRaw] => .ok (.encbase ⟨mmsi, lonRaw, latRaw⟩)
    | _ => .error .operandShape
  | 0x10 => match r.operands with
    | [.int mmsi, .int imo, .str callsign, .str shipName, .int shipType, .int dimA, .int dimB, .int dimC, .int dimD] =>
      .ok (.encstat ⟨mmsi, imo, callsign, shipName, shipType, dimA, dimB, dimC, dimD⟩)
    | _ => .error .operandShape
  | 0x11 => match r.operands with
    | [.int mmsi, .int sogRaw, .int lonRaw, .int latRaw, .int cogRaw, .int heading] =>
      .ok (.encposb ⟨mmsi, sogRaw, lonRaw, latRaw, cogRaw, heading⟩)
    | _ => .error .operandShape
  | 0x12 => match r.operands with
    | [.int mmsi, .str shipName] => .ok (.enc24a ⟨mmsi, shipName⟩)
    | _ => .error .operandShape
  | 0x13 => match r.operands with
    | [.int mmsi, .int shipType, .str callsign, .int dimA, .int dimB, .int dimC, .int dimD] =>
      .ok (.enc24b ⟨mmsi, shipType, callsign, dimA, dimB, dimC, dimD⟩)
    | _ => .error .operandShape
  | 0x14 => match r.operands with
    | [.str line, .str pfx] => .ok (.isvalid line pfx)
    | _ => .error .operandShape
  | 0x15 => match r.operands with
    | [.str line] => .ok (.parse line)
    | _ => .error .operandShape
  | 0x16 => match r.operands with
    | [.str sentence] => .ok (.chksum sentence)
    | _ => .error .operandShape
  | 0x17 => match r.operands with
    | [.str payload, .str tag] => .ok (.frame payload tag)
    | _ => .error .operandShape
  | 0x18 => match r.operands with
    | [.str sentence] => .ok (.chkvfy sentence)
    | _ => .error .operandShape
  | _ => .error .unassignedOpsel

/-- The instruction that words of either format are. -/
def decode : Words → Except Rejection Instr
  | .request r => decodeRequest r
  | .message payload => .ok (decodeMessage payload)

/-! ### Message layouts: writing (rules R70 to R76, R150) -/

/-- One field of a layout with the value to write there. -/
inductive Put where
  | unsigned (start len : Nat) (x : Int)
  | signed (start len : Nat) (x : Int)
  | bool (start : Nat) (x : Bool)
  | text (start : Nat) (w : Bits)
deriving DecidableEq, Repr

/-- The fields of rule R70 after the header. -/
def PosA.puts (f : PosA) : List Put :=
  [.unsigned 38 4 f.navStatus, .signed 42 8 f.rot, .unsigned 50 10 f.sogRaw, .bool 60 f.posAccuracy,
   .signed 61 28 f.lonRaw, .signed 89 27 f.latRaw, .unsigned 116 12 f.cogRaw, .unsigned 128 9 f.heading,
   .unsigned 137 6 f.timestamp]

/-- The fields of rule R71 after the header. -/
def Base.puts (f : Base) : List Put := [.signed 79 28 f.lonRaw, .signed 107 27 f.latRaw]

/-- The fields of rule R72 after the header. -/
def Voyage.puts (f : Voyage Bits) : List Put :=
  [.unsigned 40 30 f.imo, .text 70 f.callsign, .text 112 f.shipName, .unsigned 232 8 f.shipType,
   .unsigned 240 9 f.dimA, .unsigned 249 9 f.dimB, .unsigned 258 6 f.dimC, .unsigned 264 6 f.dimD]

/-- The fields of rule R73 after the header. -/
def PosB.puts (f : PosB) : List Put :=
  [.unsigned 46 10 f.sogRaw, .signed 57 28 f.lonRaw, .signed 85 27 f.latRaw, .unsigned 112 12 f.cogRaw,
   .unsigned 124 9 f.heading]

/-- The fields of rule R75 after the header. -/
def NameA.puts (f : NameA Bits) : List Put := [.unsigned 38 2 0, .text 40 f.shipName]

/-- The fields of rule R76 after the header. -/
def StaticB.puts (f : StaticB Bits) : List Put :=
  [.unsigned 38 2 1, .unsigned 40 8 f.shipType, .text 48 f.callsign, .unsigned 90 9 f.dimA, .unsigned 99 9 f.dimB,
   .unsigned 108 6 f.dimC, .unsigned 114 6 f.dimD]

/-- One field written without a range check. -/
def writePut (b : Bits) : Put → Bits
  | .unsigned s l x => splice b s (bitsOf l x.toNat)
  | .signed s l x => splice b s (bitsOf l (twosOf l x).toNat)
  | .bool s x => splice b s (bitsOf 1 x.toNat)
  | .text s w => splice b s w

/-- The header's fields: `type [0,6)` and `mmsi [8,30)` (rule R68). -/
def headerPuts (type mmsi : Int) : List Put := [.unsigned 0 6 type, .unsigned 8 30 mmsi]

/-- A message of `nbits` bits: zeros, with the header and the fields written (rule R150). -/
def messageBits (nbits : Nat) (type mmsi : Int) (fields : List Put) : Bits :=
  (headerPuts type mmsi ++ fields).foldl writePut (zeros nbits)

/-- A message that ends with its header: 6 bits when it has no `mmsi`, 38 when it has one (rule R68). -/
def headerBits (type : Int) : Option Int → Bits
  | none => bitsOf 6 type.toNat
  | some mmsi => messageBits Config.mmsiMinBits type mmsi []

/-! ### The encoder -/

/-- The words of an instruction: an operation's OPSEL and operands (rules R5, R33), a message row's armored payload
(rules R70 to R78), bits that no field covers zero (rule R53). How long the message of a row is: DESIGN CHOICE, log entry
10; safe. -/
def encode : Instr → Words
  | .tobits payload => .request ⟨0x01, [.str payload]⟩
  | .toarmor b => .request ⟨0x02, [.bits b]⟩
  | .extu b start length => .request ⟨0x03, [.bits b, .nat start, .nat length]⟩
  | .exts b start length => .request ⟨0x04, [.bits b, .nat start, .nat length]⟩
  | .insu b start length value => .request ⟨0x05, [.bits b, .nat start, .nat length, .int value]⟩
  | .inss b start length value => .request ⟨0x06, [.bits b, .nat start, .nat length, .int value]⟩
  | .txtdec b => .request ⟨0x07, [.bits b]⟩
  | .txtenc text maxChars => .request ⟨0x08, [.str text, .nat maxChars]⟩
  | .declon raw => .request ⟨0x09, [.int raw]⟩
  | .declat raw => .request ⟨0x0A, [.int raw]⟩
  | .msgdec payload => .request ⟨0x0B, [.str payload]⟩
  | .decline line => .request ⟨0x0C, [.str line]⟩
  | .decopt line option tag => .request ⟨0x0D, [.str line, .str option, .str tag]⟩
  | .encposa type f => .request ⟨0x0E, [.int type, .int f.mmsi, .int f.navStatus, .int f.rot, .int f.sogRaw,
      .bool f.posAccuracy, .int f.lonRaw, .int f.latRaw, .int f.cogRaw, .int f.heading, .int f.timestamp]⟩
  | .encbase f => .request ⟨0x0F, [.int f.mmsi, .int f.lonRaw, .int f.latRaw]⟩
  | .encstat f => .request ⟨0x10, [.int f.mmsi, .int f.imo, .str f.callsign, .str f.shipName, .int f.shipType,
      .int f.dimA, .int f.dimB, .int f.dimC, .int f.dimD]⟩
  | .encposb f => .request ⟨0x11, [.int f.mmsi, .int f.sogRaw, .int f.lonRaw, .int f.latRaw, .int f.cogRaw,
      .int f.heading]⟩
  | .enc24a f => .request ⟨0x12, [.int f.mmsi, .str f.shipName]⟩
  | .enc24b f => .request ⟨0x13, [.int f.mmsi, .int f.shipType, .str f.callsign, .int f.dimA, .int f.dimB,
      .int f.dimC, .int f.dimD]⟩
  | .isvalid line pfx => .request ⟨0x14, [.str line, .str pfx]⟩
  | .parse line => .request ⟨0x15, [.str line]⟩
  | .chksum sentence => .request ⟨0x16, [.str sentence]⟩
  | .frame payload tag => .request ⟨0x17, [.str payload, .str tag]⟩
  | .chkvfy sentence => .request ⟨0x18, [.str sentence]⟩
  | .msg1 f => .message (toArmor (messageBits (Config.minBits 1) 1 f.mmsi f.puts))
  | .msg2 f => .message (toArmor (messageBits (Config.minBits 2) 2 f.mmsi f.puts))
  | .msg3 f => .message (toArmor (messageBits (Config.minBits 3) 3 f.mmsi f.puts))
  | .msg4 f => .message (toArmor (messageBits (Config.minBits 4) 4 f.mmsi f.puts))
  | .msg5 f => .message (toArmor (messageBits (Config.minBits 5) 5 f.mmsi f.puts))
  | .msg18 f => .message (toArmor (messageBits (Config.minBits 18) 18 f.mmsi f.puts))
  | .msg24a f => .message (toArmor (messageBits (Config.minBits 24) 24 f.mmsi f.puts))
  | .msg24b f => .message (toArmor (messageBits (Config.minBits 24) 24 f.mmsi f.puts))
  | .msg24x mmsi partNumber =>
    .message (toArmor (messageBits (Config.minBits 24) 24 mmsi [.unsigned 38 2 partNumber]))
  | .msgother type mmsi => .message (toArmor (headerBits type mmsi))
  | .msgshort type mmsi => .message (toArmor (headerBits type mmsi))
  | .msgempty => .message []

/-! ### The opcode table's own numbering -/

/-- The operands that a request known by its OPSEL alone is given: the neutral value of each operand's type (empty
string, empty bit string, 0, false), except where the operation's rule shuts that value out of its domain, where they
are the least in-domain ones (a one-bit field for EXTS and INSS, type 1 for ENCPOSA, "!*" for CHKSUM, the default tag
for FRAME) (DESIGN CHOICE, log entry 4; safe). -/
def neutralOperands (opsel : BitVec 5) : List Operand :=
  match opsel.toNat with
  | 0x01 => [.str []]
  | 0x02 => [.bits []]
  | 0x03 => [.bits [], .nat 0, .nat 0]
  | 0x04 => [.bits [false], .nat 0, .nat 1]
  | 0x05 => [.bits [], .nat 0, .nat 0, .int 0]
  | 0x06 => [.bits [false], .nat 0, .nat 1, .int 0]
  | 0x07 => [.bits []]
  | 0x08 => [.str [], .nat 0]
  | 0x09 => [.int 0]
  | 0x0A => [.int 0]
  | 0x0B => [.str []]
  | 0x0C => [.str []]
  | 0x0D => [.str [], .str [], .str []]
  | 0x0E => [.int 1, .int 0, .int 0, .int 0, .int 0, .bool false, .int 0, .int 0, .int 0, .int 0, .int 0]
  | 0x0F => [.int 0, .int 0, .int 0]
  | 0x10 => [.int 0, .int 0, .str [], .str [], .int 0, .int 0, .int 0, .int 0, .int 0]
  | 0x11 => [.int 0, .int 0, .int 0, .int 0, .int 0, .int 0]
  | 0x12 => [.int 0, .str []]
  | 0x13 => [.int 0, .int 0, .str [], .int 0, .int 0, .int 0, .int 0]
  | 0x14 => [.str [], .str []]
  | 0x15 => [.str []]
  | 0x16 => [.str (ascii "!*")]
  | 0x17 => [.str [], .str Config.tagVDM]
  | 0x18 => [.str []]
  | _ => []

/-- The payload of the message whose first 40 bits are the header word `H` of rule R78 and whose other bits, up to the
longest layout, are 0 (DESIGN CHOICE, log entry 11; safe). -/
def headerPayload (w : Nat) : Str := toArmor (bitsOf 40 w ++ zeros (Config.minBits 5 - 40))

/-- The words of the table row that `nbits` bits `w` stand for: a row of up to a byte is an OPSEL in its low five bits
(rule R79, mask 0x1F), a longer one the header word of a message (rule R78). -/
def tableWords (nbits w : Nat) : Words :=
  if nbits ≤ 8 then .request ⟨BitVec.ofNat 5 w, neutralOperands (BitVec.ofNat 5 w)⟩
  else .message (headerPayload w)

/-- The request that presents words to the unit: an operation's own request, and for a message the MSGDEC request with
it as payload, the one way a message enters the unit by itself. -/
def presentedBy : Words → Request
  | .request r => r
  | .message payload => ⟨0x0B, [.str payload]⟩

/-- The instruction the decoder reads from a row's bits, numbered as spec/opcode_table.json numbers them. -/
def decodeTableWord (nbits w : Nat) : Option Instr :=
  match decode (tableWords nbits w) with
  | .ok i => some i
  | .error _ => none

end Sys2Proof
end

