-- ==== Sys2Proof/Machine/State.lean ====
section
/-! DEFINITION. The values a request returns (rules R22 to R27, R33), the reasons a request is refused (rule R196), and
the machine state: the interface to the caller, the unit itself having no state (rule R20). -/

namespace Sys2Proof.Machine

/-- The result record REC (rule R22). Every field's default is its value in the zero record (rule R23); the scaled
views are functions of it (Machine/Flags.lean). -/
structure Rec where
  type : Nat := 0
  mmsi : Nat := 0
  navStatus : Nat := 0
  rot : Int := 0
  sogRaw : Nat := 0
  posAccuracy : Bool := false
  lonRaw : Int := 0
  latRaw : Int := 0
  cogRaw : Nat := 0
  heading : Nat := 0
  timestamp : Nat := 0
  imo : Nat := 0
  callsign : Str := []
  shipName : Str := []
  shipType : Nat := 0
  dimA : Nat := 0
  dimB : Nat := 0
  dimC : Nat := 0
  dimD : Nat := 0
  partNumber : Nat := 0
deriving DecidableEq, Repr

/-- The zero record (rule R23). -/
def Rec.zero : Rec := {}

/-- The tag VARIANT (rule R26). -/
inductive Variant where
  | unrecognized
  | positionReportA
  | baseStationPartial
  | staticVoyageData
  | positionReportB
  | staticDataReportA
  | staticDataReportB
  | headerOnly
deriving DecidableEq, Repr

/-- The response of a request, by its shape (rule R33, and the result column of the opcode table). A decode's REC and
VARIANT, and PARSE's fields and `ok`, are one response (DESIGN CHOICE, log entry 15; safe). -/
inductive Response where
  | bits (b : Bits)
  | str (s : Str)
  | nat (n : Nat)
  | int (z : Int)
  | num (x : Num)
  | record (r : Rec) (v : Variant)
  | sentences (l : List Str)
  | bool (v : Bool)
  | fields (l : List Str) (ok : Bool)
deriving DecidableEq, Repr

/-- Faults: none. The unit never raises an exception, trap or error signal (rule R190), and no operation gets stuck
(93_implementation_defined.md), so no step faults (DEDUCED, log entry 13; safe). -/
inductive Fault : Type
deriving DecidableEq, Repr

/-- Refusals: the closed list of rule R196, the model's own `operandShape`, and the host's `notModelled`. All are safe:
the step has no next state, so nothing can be proved of a response. -/
inductive Refusal where
  /-- EXTU, EXTS, INSU, INSS: the slice runs past the bit string, is wider than 30, or is empty for the signed two. Safe. -/
  | sliceOutOfRange
  /-- INSU, INSS and every encoder: a value does not fit its field; ENCPOSA: the type is not 1, 2 or 3. Safe. -/
  | valueOutOfRange
  /-- CHKSUM: no leading `!`, or no `*`. Safe. -/
  | noDelimiter
  /-- FRAME: a tag other than the two. Safe. -/
  | badTag
  /-- The step: OPSEL is 0x00 or 0x19 to 0x1F. Safe. -/
  | unassignedOpsel
  /-- The step: the operands are not of the shapes rule R33 gives the operation, so they are no request of it
  (DESIGN CHOICE, log entry 3). Safe. -/
  | operandShape
  /-- An arm of exec without a meaning; no arm answers it. Safe. -/
  | notModelled (mnemonic : String)
deriving DecidableEq, Repr

/-- The machine. The unit holds nothing between requests (rule R20): both fields belong to its interface with the
caller (rule R199), and no operation reads `responses` (DESIGN CHOICE, log entry 1; safe). -/
structure State where
  /-- The requests the caller has issued and the unit has not executed, the next one first. -/
  requests : List Request
  /-- The responses the caller holds, the oldest first. -/
  responses : List Response
deriving DecidableEq, Repr

/-- After reset no request has been issued and no response delivered (rules R32, R210; DESIGN CHOICE, log entry 1;
unsafe). -/
def State.reset : State where
  requests := []
  responses := []

end Sys2Proof.Machine
end

