-- ==== Sys2Proof/Machine/Flags.lean ====
section
/-! DEFINITION. What is derived from the result record. The unit has no status flags (rule R25); the nearest thing is the
tag VARIANT (rule R26). With it stand the scaled views (rules R22, R120, R121) and the tagged-union view (rule R27). -/

namespace Sys2Proof.Machine

open Sys2Proof.Config (Params SentinelCompare)

/-! ### Scaling -/

/-- Whether a raw position equals a sentinel: as integers, or, under SENTINEL_COMPARE = bit_pattern, with a raw value
that a `width`-bit field reads as negative replaced by the field's bit pattern (rule R138; any other raw value compared
as it is: DESIGN CHOICE, log entry 6; unsafe). -/
def matchesSentinel (cmp : SentinelCompare) (width : Nat) (raw sentinel : Int) : Bool :=
  match cmp with
  | .signedValue => raw == sentinel
  | .bitPattern => (if -(2 ^ (width - 1)) ≤ raw ∧ raw < 0 then raw + 2 ^ width else raw) == sentinel

/-- DECLON (rule R120). -/
def declon (p : Params) (raw : Int) : Num :=
  if matchesSentinel p.sentinelCompare 28 raw Config.lonSentinel
      || matchesSentinel p.sentinelCompare 28 raw Config.onesSentinel then .nan
  else .rat (mkRat raw Config.posScale)

/-- DECLAT (rule R121). -/
def declat (p : Params) (raw : Int) : Num :=
  if matchesSentinel p.sentinelCompare 27 raw Config.latSentinel
      || matchesSentinel p.sentinelCompare 27 raw Config.onesSentinel then .nan
  else .rat (mkRat raw Config.posScale)

/-- A speed or course: the exact rational `raw / 10` (rule R106). -/
def tenths (raw : Nat) : Num := .rat (mkRat raw Config.tenthScale)

/-- An integer as a scalar. -/
def ofInt (z : Int) : Num := .rat (mkRat z 1)

/-- The scaled view `sog` in knots (rule R22). -/
def Rec.sog (r : Rec) : Num := tenths r.sogRaw

/-- The scaled view `cog` in degrees (rule R22). -/
def Rec.cog (r : Rec) : Num := tenths r.cogRaw

/-- The scaled view `lon` in degrees, or NaN (rule R22). -/
def Rec.lon (p : Params) (r : Rec) : Num := declon p r.lonRaw

/-- The scaled view `lat` in degrees, or NaN (rule R22). -/
def Rec.lat (p : Params) (r : Rec) : Num := declat p r.latRaw

/-! ### VARIANT -/

/-- VARIANT of a record and the payload's bit length (rule R26). -/
def variantOf (r : Rec) (n : Nat) : Variant :=
  if n < Config.typeMinBits then .unrecognized
  else
    match r.type with
    | 1 => if Config.minBits 1 ≤ n then .positionReportA else .headerOnly
    | 2 => if Config.minBits 2 ≤ n then .positionReportA else .headerOnly
    | 3 => if Config.minBits 3 ≤ n then .positionReportA else .headerOnly
    | 4 => if Config.minBits 4 ≤ n then .baseStationPartial else .headerOnly
    | 5 => if Config.minBits 5 ≤ n then .staticVoyageData else .headerOnly
    | 18 => if Config.minBits 18 ≤ n then .positionReportB else .headerOnly
    | 24 =>
      if Config.minBits 24 ≤ n then
        match r.partNumber with
        | 0 => .staticDataReportA
        | 1 => .staticDataReportB
        | _ => .headerOnly
      else .headerOnly
    | _ => .unrecognized

/-! ### The tagged union AisMessage -/

/-- The source's conceptual tagged union (rule R27). `headerOnly` holds `partNumber` for type 24 with at least 160
bits. -/
inductive AisMessage where
  | positionReportA (type mmsi navStatus : Nat) (rot : Int) (sog : Num) (posAccuracy : Bool) (lon lat cog : Num)
      (heading timestamp : Nat)
  | baseStationPartial (type mmsi : Nat) (lon lat : Num)
  | staticVoyageData (type mmsi imo : Nat) (callsign shipName : Str) (shipType dimA dimB dimC dimD : Nat)
  | positionReportB (type mmsi : Nat) (sog lon lat cog : Num) (heading : Nat)
  | staticDataReportA (type mmsi partNumber : Nat) (shipName : Str)
  | staticDataReportB (type mmsi partNumber shipType : Nat) (callsign : Str) (dimA dimB dimC dimD : Nat)
  | unrecognized (type : Nat)
  | headerOnly (type mmsi : Nat) (partNumber : Option Nat)
deriving DecidableEq, Repr

/-- The projection of a record by its VARIANT, for a payload of `n` bits (rule R27). -/
def project (p : Params) (r : Rec) (v : Variant) (n : Nat) : AisMessage :=
  match v with
  | .positionReportA =>
    .positionReportA r.type r.mmsi r.navStatus r.rot r.sog r.posAccuracy (r.lon p) (r.lat p) r.cog r.heading
      r.timestamp
  | .baseStationPartial => .baseStationPartial r.type r.mmsi (r.lon p) (r.lat p)
  | .staticVoyageData =>
    .staticVoyageData r.type r.mmsi r.imo r.callsign r.shipName r.shipType r.dimA r.dimB r.dimC r.dimD
  | .positionReportB => .positionReportB r.type r.mmsi r.sog (r.lon p) (r.lat p) r.cog r.heading
  | .staticDataReportA => .staticDataReportA r.type r.mmsi r.partNumber r.shipName
  | .staticDataReportB =>
    .staticDataReportB r.type r.mmsi r.partNumber r.shipType r.callsign r.dimA r.dimB r.dimC r.dimD
  | .unrecognized => .unrecognized r.type
  | .headerOnly =>
    .headerOnly r.type r.mmsi (if r.type = 24 ∧ Config.minBits 24 ≤ n then some r.partNumber else none)

end Sys2Proof.Machine
end

