-- ==== Sys2Proof/Machine/Ops.lean ====
section
/-! DEFINITION. The shared operations the meanings are made of: ending a request (rules R16, R196, R212), the checked
field operations (rules R100 to R103), sentences (rules R60 to R63, R170 to R176), the record a message gives (rules R122
to R136) and the message an encoder builds (rule R150). There is no exception to take and none to return from (rules R190,
R200). -/

namespace Sys2Proof.Machine

open Sys2Proof.Config (Params OptionKey EncLayout)

/-! ### Ending a request -/

/-- The caller receives a response. -/
def State.deliver (s : State) (r : Response) : State := { s with responses := s.responses ++ [r] }

/-- A request ends with its response delivered, or is refused and has none (rules R16, R196). -/
def respond (x : Except Refusal Response) (s : State) : Host.Outcome State Fault Refusal :=
  match x with
  | .ok r => .next (s.deliver r)
  | .error e => .refused e

/-- The refusal of a request word that is no instruction (rule R79). -/
def refusalOf : Rejection → Refusal
  | .unassignedOpsel => .unassignedOpsel
  | .operandShape => .operandShape

/-! ### FieldCodec with its bounds -/

/-- EXTU (rule R100). -/
def extu (b : Bits) (start length : Nat) : Except Refusal Nat :=
  if length > Config.maxFieldLen ∨ start + length > b.length then .error .sliceOutOfRange
  else .ok (uintAt b start length)

/-- EXTS (rule R101). -/
def exts (b : Bits) (start length : Nat) : Except Refusal Int :=
  if length < 1 ∨ length > Config.maxFieldLen ∨ start + length > b.length then .error .sliceOutOfRange
  else .ok (sintAt b start length)

/-- INSU (rule R102). -/
def insu (b : Bits) (start length : Nat) (value : Int) : Except Refusal Bits :=
  if length > Config.maxFieldLen ∨ start + length > b.length then .error .sliceOutOfRange
  else if value < 0 ∨ value ≥ 2 ^ length then .error .valueOutOfRange
  else .ok (splice b start (bitsOf length value.toNat))

/-- INSS (rule R103). -/
def inss (b : Bits) (start length : Nat) (value : Int) : Except Refusal Bits :=
  if length < 1 ∨ length > Config.maxFieldLen ∨ start + length > b.length then .error .sliceOutOfRange
  else if value < -(2 ^ (length - 1)) ∨ value > 2 ^ (length - 1) - 1 then .error .valueOutOfRange
  else insu b start length (twosOf length value)

/-! ### Sentences -/

/-- The comma, code 44. -/
def comma : Byte := BitVec.ofNat 8 44

/-- `!`, code 33. -/
def bang : Byte := BitVec.ofNat 8 33

/-- `*`, code 42. -/
def star : Byte := BitVec.ofNat 8 42

/-- ISVALID (rule R170). -/
def isValid (line pfx : Str) : Bool := line.take pfx.length == pfx && line.contains comma

/-- SPLIT: cut at every comma, empty fields kept (rule R172). -/
def split : Str → List Str
  | [] => [[]]
  | c :: rest =>
    if c = comma then [] :: split rest
    else
      match split rest with
      | [] => [[c]]
      | f :: fs => (c :: f) :: fs

/-- PARSE (rule R171). -/
def parse (line : Str) : List Str × Bool :=
  let f := split line
  (f, decide (Config.minFields ≤ f.length))

/-- XOR8 (rule R173). -/
def xor8 (body : Str) : Nat := (body.foldl (· ^^^ ·) 0#8).toNat

/-- What stands between a leading `!` and the first `*`, and what follows that `*`, when both are there (rule R173). -/
def delimited : Str → Option (Str × Str)
  | [] => none
  | c :: rest =>
    if c = bang then
      match rest.dropWhile (· != star) with
      | [] => none
      | _ :: after => some (rest.takeWhile (· != star), after)
    else none

/-- CHKSUM (rule R173). -/
def chksum (sentence : Str) : Except Refusal Nat :=
  match delimited sentence with
  | none => .error .noDelimiter
  | some (body, _) => .ok (xor8 body)

/-- One of `0`..`9`, `A`..`F` (rule R14). -/
def hexDigit (d : Nat) : Byte := if d < 10 then BitVec.ofNat 8 (48 + d) else BitVec.ofNat 8 (55 + d)

/-- `hex2`: two upper-case hex digits, high nibble first (rule R14). -/
def hex2 (n : Nat) : Str := [hexDigit (n / 16), hexDigit (n % 16)]

/-- The decimal digits of `n` before those of `acc`; `fuel` bounds their number. -/
def decLoop : Nat → Nat → Str → Str
  | 0, _, acc => acc
  | fuel + 1, n, acc =>
    let acc' := BitVec.ofNat 8 (48 + n % 10) :: acc
    if n / 10 = 0 then acc' else decLoop fuel (n / 10) acc'

/-- `dec`: the shortest decimal spelling (rule R14). -/
def dec (n : Nat) : Str := decLoop (n + 1) n []

/-- CHKVFY (rule R176). -/
def chkvfy (sentence : Str) : Bool :=
  match delimited sentence with
  | none => false
  | some (body, after) => after.take 2 == hex2 (xor8 body)

/-- A sentence between its `!` and its `*` (rules R62, R174). -/
def sentenceBody (tag : Str) (total index : Nat) (chunk : Str) : Str :=
  slice tag 1 5 ++ ascii "," ++ dec total ++ ascii "," ++ dec index ++ ascii ",,A," ++ chunk ++ ascii ",0"

/-- A sentence with its delimiters and its checksum (rules R62, R63, R174). -/
def sentence (tag : Str) (total index : Nat) (chunk : Str) : Str :=
  let body := sentenceBody tag total index chunk
  ascii "!" ++ body ++ ascii "*" ++ hex2 (xor8 body)

/-- The number of sentences a payload takes: `ceil(len / 62)` (rule R174). -/
def fragments (payload : Str) : Nat := (payload.length + (Config.chunkMax - 1)) / Config.chunkMax

/-- FRAME (rule R174). -/
def frame (payload tag : Str) : Except Refusal (List Str) :=
  if tag ≠ Config.tagVDM ∧ tag ≠ Config.tagVDO then .error .badTag
  else
    .ok ((List.range (fragments payload)).map fun k =>
      sentence tag (fragments payload) (k + 1) (slice payload (Config.chunkMax * k) Config.chunkMax))

/-! ### The record a message gives (rules R124 to R134) -/

/-- Types 1, 2, 3 (rule R124). -/
def recPosA (type : Nat) (f : PosA) : Rec :=
  { Rec.zero with
    type := type
    mmsi := f.mmsi.toNat
    navStatus := f.navStatus.toNat
    rot := f.rot
    sogRaw := f.sogRaw.toNat
    posAccuracy := f.posAccuracy
    lonRaw := f.lonRaw
    latRaw := f.latRaw
    cogRaw := f.cogRaw.toNat
    heading := f.heading.toNat
    timestamp := f.timestamp.toNat }

/-- Type 4 (rule R125). -/
def recBase (f : Base) : Rec :=
  { Rec.zero with type := 4, mmsi := f.mmsi.toNat, lonRaw := f.lonRaw, latRaw := f.latRaw }

/-- Type 5 (rule R126). -/
def recVoyage (f : Voyage Bits) : Rec :=
  { Rec.zero with
    type := 5
    mmsi := f.mmsi.toNat
    imo := f.imo.toNat
    callsign := txtdec f.callsign
    shipName := txtdec f.shipName
    shipType := f.shipType.toNat
    dimA := f.dimA.toNat
    dimB := f.dimB.toNat
    dimC := f.dimC.toNat
    dimD := f.dimD.toNat }

/-- Type 18 (rule R127). -/
def recPosB (f : PosB) : Rec :=
  { Rec.zero with
    type := 18
    mmsi := f.mmsi.toNat
    sogRaw := f.sogRaw.toNat
    lonRaw := f.lonRaw
    latRaw := f.latRaw
    cogRaw := f.cogRaw.toNat
    heading := f.heading.toNat }

/-- Type 24 part 0 (rules R128, R129). -/
def recNameA (f : NameA Bits) : Rec :=
  { Rec.zero with type := 24, mmsi := f.mmsi.toNat, partNumber := 0, shipName := txtdec f.shipName }

/-- Type 24 part 1 (rules R128, R130). -/
def recStaticB (f : StaticB Bits) : Rec :=
  { Rec.zero with
    type := 24
    mmsi := f.mmsi.toNat
    partNumber := 1
    shipType := f.shipType.toNat
    callsign := txtdec f.callsign
    dimA := f.dimA.toNat
    dimB := f.dimB.toNat
    dimC := f.dimC.toNat
    dimD := f.dimD.toNat }

/-- Type 24 part 2 or 3 (rules R128, R131). -/
def recPartX (mmsi partNumber : Int) : Rec :=
  { Rec.zero with type := 24, mmsi := mmsi.toNat, partNumber := partNumber.toNat }

/-- Only `type` and, when it was read, `mmsi` (rules R132, R133). -/
def recHeader (type : Int) (mmsi : Option Int) : Rec :=
  { Rec.zero with type := type.toNat, mmsi := (mmsi.getD 0).toNat }

/-- The record of a message bit string: the branch of the row it selects (rules R122, R123). -/
def recOfBits (b : Bits) : Rec :=
  match rowOf b with
  | .msg1 => recPosA 1 (readPosA b)
  | .msg2 => recPosA 2 (readPosA b)
  | .msg3 => recPosA 3 (readPosA b)
  | .msg4 => recBase (readBase b)
  | .msg5 => recVoyage (readVoyage b)
  | .msg18 => recPosB (readPosB b)
  | .msg24a => recNameA (readNameA b)
  | .msg24b => recStaticB (readStaticB b)
  | .msg24x => recPartX (uintAt b 8 30) (uintAt b 38 2)
  | .msgother => recHeader (uintAt b 0 6) (readMmsi b)
  | .msgshort => recHeader (uintAt b 0 6) (readMmsi b)
  | .msgempty => Rec.zero

/-- MSGDEC: the record of an armored payload (rule R122). -/
def msgdec (p : Params) (payload : Str) : Rec := recOfBits (toBits p payload)

/-- The response of a decode: REC and VARIANT, for a payload of `n` bits (rules R22, R26). -/
def recordOf (r : Rec) (n : Nat) : Response := .record r (variantOf r n)

/-- The response of MSGDEC (rule R122). -/
def msgdecResponse (p : Params) (payload : Str) : Response :=
  recordOf (msgdec p payload) (toBits p payload).length

/-! ### Lines (rules R135 to R137) -/

/-- Field 5 of a line that has at least 7 fields, unless it is empty (rules R135, R136). -/
def payloadOf (line : Str) : Option Str :=
  match parse line with
  | (_, false) => none
  | (f, true) =>
    match f[Config.payloadField]? with
    | some (c :: rest) => some (c :: rest)
    | _ => none

/-- The response of DECLINE (rule R135); a line that fails has no payload, so its VARIANT is that of 0 bits (DEDUCED, log
entry 9; unsafe). -/
def declineResponse (p : Params) (line : Str) : Response :=
  if isValid line Config.tagVDM || isValid line Config.tagVDO then
    match payloadOf line with
    | some payload => msgdecResponse p payload
    | none => recordOf Rec.zero 0
  else recordOf Rec.zero 0

/-- The scalar an option selects (rule R137). -/
def select (p : Params) (r : Rec) : OptionKey → Num
  | .type => ofInt r.type
  | .mmsi => ofInt r.mmsi
  | .navStatus => ofInt r.navStatus
  | .rot => ofInt r.rot
  | .sog => r.sog
  | .posAccuracy => ofInt r.posAccuracy.toNat
  | .lon => r.lon p
  | .lat => r.lat p
  | .cog => r.cog
  | .heading => ofInt r.heading
  | .timestamp => ofInt r.timestamp
  | .imo => ofInt r.imo
  | .shipType => ofInt r.shipType
  | .dimA => ofInt r.dimA
  | .dimB => ofInt r.dimB
  | .dimC => ofInt r.dimC
  | .dimD => ofInt r.dimD
  | .partNumber => ofInt r.partNumber

/-- The value DECOPT returns (rule R136). -/
def decopt (p : Params) (line option tag : Str) : Num :=
  if isValid line tag then
    match payloadOf line with
    | some payload =>
      match p.optionNames.lookup option with
      | some key => select p (msgdec p payload) key
      | none => ofInt 0
    | none => ofInt 0
  else ofInt 0

/-! ### The message an encoder builds (rules R150 to R152) -/

/-- One field written by INSU or INSS, with their checks; a text field is written as it is (rule R150). -/
def insertPut (b : Bits) : Put → Except Refusal Bits
  | .unsigned s l x => insu b s l x
  | .signed s l x => inss b s l x
  | .bool s x => insu b s 1 x.toNat
  | .text s w => .ok (splice b s w)

/-- The fields of a list written in order (rule R150). -/
def insertAll (b : Bits) : List Put → Except Refusal Bits
  | [] => .ok b
  | f :: fs =>
    match insertPut b f with
    | .ok b' => insertAll b' fs
    | .error e => .error e

/-- ENCODE: the sentences of a message of type `type` (rule R150). -/
def encodeMessage (p : Params) (layout : EncLayout) (type mmsi : Int) (fields : List Put) :
    Except Refusal (List Str) :=
  match insertAll (zeros (p.encBits layout)) (headerPuts type mmsi ++ fields) with
  | .ok b => frame (toArmor b) p.encTag
  | .error e => .error e

end Sys2Proof.Machine
end

