-- ==== Sys2Proof/Machine/BitArmor.lean ====
section
/-! DEFINITION. The BitArmor operations: TOBITS and TOARMOR (40_bitarmor.md). -/

namespace Sys2Proof.Machine

/-- TOBITS (rule R90). -/
def execTobits (payload : Str) (s : State) : Host.Outcome State Fault Refusal :=
  respond (.ok (.bits (toBits Config.params payload))) s

/-- TOARMOR (rule R91). -/
def execToarmor (bits : Bits) (s : State) : Host.Outcome State Fault Refusal := respond (.ok (.str (toArmor bits))) s

end Sys2Proof.Machine
end

