-- ==== Sys2Proof/Machine/FieldCodec.lean ====
section
/-! DEFINITION. The FieldCodec operations: EXTU, EXTS, INSU, INSS (41_fieldcodec.md). -/

namespace Sys2Proof.Machine

/-- EXTU (rule R100). -/
def execExtu (bits : Bits) (start length : Nat) (s : State) : Host.Outcome State Fault Refusal :=
  respond ((extu bits start length).map .nat) s

/-- EXTS (rule R101). -/
def execExts (bits : Bits) (start length : Nat) (s : State) : Host.Outcome State Fault Refusal :=
  respond ((exts bits start length).map .int) s

/-- INSU (rule R102). -/
def execInsu (bits : Bits) (start length : Nat) (value : Int) (s : State) : Host.Outcome State Fault Refusal :=
  respond ((insu bits start length value).map .bits) s

/-- INSS (rule R103). -/
def execInss (bits : Bits) (start length : Nat) (value : Int) (s : State) : Host.Outcome State Fault Refusal :=
  respond ((inss bits start length value).map .bits) s

end Sys2Proof.Machine
end

