-- ==== Sys2Proof/Machine/Framer.lean ====
section
/-! DEFINITION. The SentenceFramer operations: ISVALID, PARSE, CHKSUM, FRAME, CHKVFY (45_framer.md). -/

namespace Sys2Proof.Machine

/-- ISVALID (rule R170). -/
def execIsvalid (line pfx : Str) (s : State) : Host.Outcome State Fault Refusal :=
  respond (.ok (.bool (isValid line pfx))) s

/-- PARSE (rule R171). -/
def execParse (line : Str) (s : State) : Host.Outcome State Fault Refusal :=
  respond (.ok (.fields (parse line).1 (parse line).2)) s

/-- CHKSUM (rule R173). -/
def execChksum (sentence : Str) (s : State) : Host.Outcome State Fault Refusal :=
  respond ((chksum sentence).map .nat) s

/-- FRAME (rule R174). -/
def execFrame (payload tag : Str) (s : State) : Host.Outcome State Fault Refusal :=
  respond ((frame payload tag).map .sentences) s

/-- CHKVFY (rule R176). -/
def execChkvfy (sentence : Str) (s : State) : Host.Outcome State Fault Refusal :=
  respond (.ok (.bool (chkvfy sentence))) s

end Sys2Proof.Machine
end

