-- ==== Sys2Proof/Machine/MessageDecode.lean ====
section
/-! DEFINITION. The decode half of MessageCodec (43_msgdecode.md): DECLON, DECLAT, MSGDEC, DECLINE, DECOPT, and the
twelve message rows MSGDEC dispatches to. A message row's meaning is its branch: it delivers the record the branch fills,
with the row's VARIANT (rules R124 to R134, R26; DESIGN CHOICE, log entry 8; safe). -/

namespace Sys2Proof.Machine

/-- DECLON (rule R120). -/
def execDeclon (raw : Int) (s : State) : Host.Outcome State Fault Refusal :=
  respond (.ok (.num (declon Config.params raw))) s

/-- DECLAT (rule R121). -/
def execDeclat (raw : Int) (s : State) : Host.Outcome State Fault Refusal :=
  respond (.ok (.num (declat Config.params raw))) s

/-- MSGDEC (rule R122). -/
def execMsgdec (payload : Str) (s : State) : Host.Outcome State Fault Refusal :=
  respond (.ok (msgdecResponse Config.params payload)) s

/-- DECLINE (rule R135). -/
def execDecline (line : Str) (s : State) : Host.Outcome State Fault Refusal :=
  respond (.ok (declineResponse Config.params line)) s

/-- DECOPT (rule R136). -/
def execDecopt (line option tag : Str) (s : State) : Host.Outcome State Fault Refusal :=
  respond (.ok (.num (decopt Config.params line option tag))) s

/-- Branch MSG1 (rule R124). -/
def execMsg1 (f : PosA) (s : State) : Host.Outcome State Fault Refusal :=
  respond (.ok (.record (recPosA 1 f) .positionReportA)) s

/-- Branch MSG2 (rule R124). -/
def execMsg2 (f : PosA) (s : State) : Host.Outcome State Fault Refusal :=
  respond (.ok (.record (recPosA 2 f) .positionReportA)) s

/-- Branch MSG3 (rule R124). -/
def execMsg3 (f : PosA) (s : State) : Host.Outcome State Fault Refusal :=
  respond (.ok (.record (recPosA 3 f) .positionReportA)) s

/-- Branch MSG4 (rule R125). -/
def execMsg4 (f : Base) (s : State) : Host.Outcome State Fault Refusal :=
  respond (.ok (.record (recBase f) .baseStationPartial)) s

/-- Branch MSG5 (rule R126). -/
def execMsg5 (f : Voyage Bits) (s : State) : Host.Outcome State Fault Refusal :=
  respond (.ok (.record (recVoyage f) .staticVoyageData)) s

/-- Branch MSG18 (rule R127). -/
def execMsg18 (f : PosB) (s : State) : Host.Outcome State Fault Refusal :=
  respond (.ok (.record (recPosB f) .positionReportB)) s

/-- Branch MSG24A (rule R129). -/
def execMsg24a (f : NameA Bits) (s : State) : Host.Outcome State Fault Refusal :=
  respond (.ok (.record (recNameA f) .staticDataReportA)) s

/-- Branch MSG24B (rule R130). -/
def execMsg24b (f : StaticB Bits) (s : State) : Host.Outcome State Fault Refusal :=
  respond (.ok (.record (recStaticB f) .staticDataReportB)) s

/-- Branch MSG24X (rule R131). -/
def execMsg24x (mmsi partNumber : Int) (s : State) : Host.Outcome State Fault Refusal :=
  respond (.ok (.record (recPartX mmsi partNumber) .headerOnly)) s

/-- Branch MSGOTHER (rule R132). -/
def execMsgother (type : Int) (mmsi : Option Int) (s : State) : Host.Outcome State Fault Refusal :=
  respond (.ok (.record (recHeader type mmsi) .unrecognized)) s

/-- MSGSHORT (rule R133). -/
def execMsgshort (type : Int) (mmsi : Option Int) (s : State) : Host.Outcome State Fault Refusal :=
  respond (.ok (.record (recHeader type mmsi) .headerOnly)) s

/-- MSGEMPTY (rule R134). -/
def execMsgempty (s : State) : Host.Outcome State Fault Refusal := respond (.ok (.record Rec.zero .unrecognized)) s

end Sys2Proof.Machine
end

