-- ==== Sys2Proof/Machine/MessageEncode.lean ====
section
/-! DEFINITION. The encode half of MessageCodec (44_msgencode.md): the six encoders. -/

namespace Sys2Proof.Machine

open Sys2Proof.Config (Params)

/-- The sentences of ENCPOSA; `type` is 1, 2 or 3 (rule R153). -/
def encPosA (p : Params) (type : Int) (f : PosA) : Except Refusal (List Str) :=
  if type = 1 ∨ type = 2 ∨ type = 3 then encodeMessage p .posA type f.mmsi f.puts else .error .valueOutOfRange

/-- The sentences of ENCBASE (rule R154). -/
def encBase (p : Params) (f : Base) : Except Refusal (List Str) := encodeMessage p .base 4 f.mmsi f.puts

/-- The fields of a type-5 message with its texts as six-bit fields (rules R114, R150). -/
def voyageBits (p : Params) (f : Voyage Str) : Voyage Bits where
  mmsi := f.mmsi
  imo := f.imo
  callsign := txtenc p f.callsign Config.callsignChars
  shipName := txtenc p f.shipName Config.nameChars
  shipType := f.shipType
  dimA := f.dimA
  dimB := f.dimB
  dimC := f.dimC
  dimD := f.dimD

/-- The sentences of ENCSTAT (rule R155). -/
def encStat (p : Params) (f : Voyage Str) : Except Refusal (List Str) :=
  encodeMessage p .voyage 5 f.mmsi (voyageBits p f).puts

/-- The sentences of ENCPOSB (rule R156). -/
def encPosB (p : Params) (f : PosB) : Except Refusal (List Str) := encodeMessage p .posB 18 f.mmsi f.puts

/-- The fields of a type-24 part-0 message with its text as a six-bit field (rules R114, R150). -/
def nameABits (p : Params) (f : NameA Str) : NameA Bits where
  mmsi := f.mmsi
  shipName := txtenc p f.shipName Config.nameChars

/-- The sentences of ENC24A (rule R157). -/
def encNameA (p : Params) (f : NameA Str) : Except Refusal (List Str) :=
  encodeMessage p .nameA 24 f.mmsi (nameABits p f).puts

/-- The fields of a type-24 part-1 message with its text as a six-bit field (rules R114, R150). -/
def staticBBits (p : Params) (f : StaticB Str) : StaticB Bits where
  mmsi := f.mmsi
  shipType := f.shipType
  callsign := txtenc p f.callsign Config.callsignChars
  dimA := f.dimA
  dimB := f.dimB
  dimC := f.dimC
  dimD := f.dimD

/-- The sentences of ENC24B (rule R158). -/
def encStaticB (p : Params) (f : StaticB Str) : Except Refusal (List Str) :=
  encodeMessage p .staticB 24 f.mmsi (staticBBits p f).puts

/-- ENCPOSA (rule R153). -/
def execEncposa (type : Int) (f : PosA) (s : State) : Host.Outcome State Fault Refusal :=
  respond ((encPosA Config.params type f).map .sentences) s

/-- ENCBASE (rule R154). -/
def execEncbase (f : Base) (s : State) : Host.Outcome State Fault Refusal :=
  respond ((encBase Config.params f).map .sentences) s

/-- ENCSTAT (rule R155). -/
def execEncstat (f : Voyage Str) (s : State) : Host.Outcome State Fault Refusal :=
  respond ((encStat Config.params f).map .sentences) s

/-- ENCPOSB (rule R156). -/
def execEncposb (f : PosB) (s : State) : Host.Outcome State Fault Refusal :=
  respond ((encPosB Config.params f).map .sentences) s

/-- ENC24A (rule R157). -/
def execEnc24a (f : NameA Str) (s : State) : Host.Outcome State Fault Refusal :=
  respond ((encNameA Config.params f).map .sentences) s

/-- ENC24B (rule R158). -/
def execEnc24b (f : StaticB Str) (s : State) : Host.Outcome State Fault Refusal :=
  respond ((encStaticB Config.params f).map .sentences) s

end Sys2Proof.Machine
end

