-- ==== Sys2Proof/Machine/TextCodec.lean ====
section
/-! DEFINITION. The TextCodec operations: TXTDEC and TXTENC (42_textcodec.md). -/

namespace Sys2Proof.Machine

/-- TXTDEC (rule R110). -/
def execTxtdec (bits : Bits) (s : State) : Host.Outcome State Fault Refusal := respond (.ok (.str (txtdec bits))) s

/-- TXTENC (rule R111). -/
def execTxtenc (text : Str) (maxChars : Nat) (s : State) : Host.Outcome State Fault Refusal :=
  respond (.ok (.bits (txtenc Config.params text maxChars))) s

end Sys2Proof.Machine
end

