-- ==== Sys2Proof/Machine/Dispatch.lean ====
section
/-! DEFINITION. One arm per constructor of Instr, each a direct call of its meaning. -/

namespace Sys2Proof.Machine

def exec (i : Instr) (s : State) : Host.Outcome State Fault Refusal :=
  match i with
  | .tobits payload => Sys2Proof.Machine.execTobits payload s
  | .toarmor b => Sys2Proof.Machine.execToarmor b s
  | .extu b start length => Sys2Proof.Machine.execExtu b start length s
  | .exts b start length => Sys2Proof.Machine.execExts b start length s
  | .insu b start length value => Sys2Proof.Machine.execInsu b start length value s
  | .inss b start length value => Sys2Proof.Machine.execInss b start length value s
  | .txtdec b => Sys2Proof.Machine.execTxtdec b s
  | .txtenc text maxChars => Sys2Proof.Machine.execTxtenc text maxChars s
  | .declon raw => Sys2Proof.Machine.execDeclon raw s
  | .declat raw => Sys2Proof.Machine.execDeclat raw s
  | .msgdec payload => Sys2Proof.Machine.execMsgdec payload s
  | .decline line => Sys2Proof.Machine.execDecline line s
  | .decopt line option tag => Sys2Proof.Machine.execDecopt line option tag s
  | .encposa type f => Sys2Proof.Machine.execEncposa type f s
  | .encbase f => Sys2Proof.Machine.execEncbase f s
  | .encstat f => Sys2Proof.Machine.execEncstat f s
  | .encposb f => Sys2Proof.Machine.execEncposb f s
  | .enc24a f => Sys2Proof.Machine.execEnc24a f s
  | .enc24b f => Sys2Proof.Machine.execEnc24b f s
  | .isvalid line pfx => Sys2Proof.Machine.execIsvalid line pfx s
  | .parse line => Sys2Proof.Machine.execParse line s
  | .chksum sentence => Sys2Proof.Machine.execChksum sentence s
  | .frame payload tag => Sys2Proof.Machine.execFrame payload tag s
  | .chkvfy sentence => Sys2Proof.Machine.execChkvfy sentence s
  | .msg1 f => Sys2Proof.Machine.execMsg1 f s
  | .msg2 f => Sys2Proof.Machine.execMsg2 f s
  | .msg3 f => Sys2Proof.Machine.execMsg3 f s
  | .msg4 f => Sys2Proof.Machine.execMsg4 f s
  | .msg5 f => Sys2Proof.Machine.execMsg5 f s
  | .msg18 f => Sys2Proof.Machine.execMsg18 f s
  | .msg24a f => Sys2Proof.Machine.execMsg24a f s
  | .msg24b f => Sys2Proof.Machine.execMsg24b f s
  | .msg24x mmsi partNumber => Sys2Proof.Machine.execMsg24x mmsi partNumber s
  | .msgother type mmsi => Sys2Proof.Machine.execMsgother type mmsi s
  | .msgshort type mmsi => Sys2Proof.Machine.execMsgshort type mmsi s
  | .msgempty => Sys2Proof.Machine.execMsgempty s

end Sys2Proof.Machine
end

