-- ==== Sys2Proof/Machine/Step.lean ====
section
/-! DEFINITION. One step: the next request is taken and executed whole (rules R5, R52). -/

namespace Sys2Proof.Machine

/-- One step: the next request is taken from the caller, decoded and executed; with none pending the unit stays as it
is (DESIGN CHOICE, log entry 2; unsafe). A refused request has no next state (log entry 14). -/
def step (s : State) : Host.Outcome State Fault Refusal :=
  match s.requests with
  | [] => .next s
  | r :: rest =>
    match decode (.request r) with
    | .ok i => exec i { s with requests := rest }
    | .error e => .refused (refusalOf e)

/-- The state in which the row that `nbits` bits `w` stand for is the next request: the caller issues it (log entries 4
and 11). -/
def State.withFetchWord (s : State) (nbits w : Nat) : State :=
  { s with requests := presentedBy (tableWords nbits w) :: s.requests }

end Sys2Proof.Machine
end

