-- ==== Sys2Proof/Safety.lean ====
section
/-! DEFINITION. What counts as a legal state: every response the caller holds keeps the bounds the spec gives responses
(rules R22, R26, R27, R33, R64, R66, R104, R171, R175). -/

namespace Sys2Proof.Machine

/-- A text field's value: at most `chars` bytes, each in 32..63 or 65..95, none of them trailing spaces (rules R22,
R110). -/
def legalText (chars : Nat) (t : Str) : Prop :=
  t.length ≤ chars ∧ (∀ c ∈ t, (32 ≤ c.toNat ∧ c.toNat ≤ 63) ∨ (65 ≤ c.toNat ∧ c.toNat ≤ 95)) ∧
    t.getLast? ≠ some spaceByte

/-- Every field of the record is in its range (rule R22). -/
structure Rec.InRange (r : Rec) : Prop where
  type : r.type < 2 ^ 6
  mmsi : r.mmsi < 2 ^ 30
  navStatus : r.navStatus < 2 ^ 4
  rot : -(2 ^ 7) ≤ r.rot ∧ r.rot < 2 ^ 7
  sogRaw : r.sogRaw < 2 ^ 10
  lonRaw : -(2 ^ 27) ≤ r.lonRaw ∧ r.lonRaw < 2 ^ 27
  latRaw : -(2 ^ 26) ≤ r.latRaw ∧ r.latRaw < 2 ^ 26
  cogRaw : r.cogRaw < 2 ^ 12
  heading : r.heading < 2 ^ 9
  timestamp : r.timestamp < 2 ^ 6
  imo : r.imo < 2 ^ 30
  callsign : legalText 7 r.callsign
  shipName : legalText 20 r.shipName
  shipType : r.shipType < 2 ^ 8
  dimA : r.dimA < 2 ^ 9
  dimB : r.dimB < 2 ^ 9
  dimC : r.dimC < 2 ^ 6
  dimD : r.dimD < 2 ^ 6
  partNumber : r.partNumber < 2 ^ 2

/-- The record with every field outside its variant's set at zero; an unrecognized record keeps its `mmsi` (rule
R27). -/
def Rec.restrict (r : Rec) : Variant → Rec
  | .positionReportA =>
    { type := r.type, mmsi := r.mmsi, navStatus := r.navStatus, rot := r.rot, sogRaw := r.sogRaw,
      posAccuracy := r.posAccuracy, lonRaw := r.lonRaw, latRaw := r.latRaw, cogRaw := r.cogRaw,
      heading := r.heading, timestamp := r.timestamp }
  | .baseStationPartial => { type := r.type, mmsi := r.mmsi, lonRaw := r.lonRaw, latRaw := r.latRaw }
  | .staticVoyageData =>
    { type := r.type, mmsi := r.mmsi, imo := r.imo, callsign := r.callsign, shipName := r.shipName,
      shipType := r.shipType, dimA := r.dimA, dimB := r.dimB, dimC := r.dimC, dimD := r.dimD }
  | .positionReportB =>
    { type := r.type, mmsi := r.mmsi, sogRaw := r.sogRaw, lonRaw := r.lonRaw, latRaw := r.latRaw,
      cogRaw := r.cogRaw, heading := r.heading }
  | .staticDataReportA =>
    { type := r.type, mmsi := r.mmsi, partNumber := r.partNumber, shipName := r.shipName }
  | .staticDataReportB =>
    { type := r.type, mmsi := r.mmsi, partNumber := r.partNumber, shipType := r.shipType, callsign := r.callsign,
      dimA := r.dimA, dimB := r.dimB, dimC := r.dimC, dimD := r.dimD }
  | .unrecognized => { type := r.type, mmsi := r.mmsi }
  | .headerOnly => { type := r.type, mmsi := r.mmsi, partNumber := r.partNumber }

/-- The types a variant's records have (rules R26, R27). -/
def Variant.hasType : Variant → Nat → Prop
  | .positionReportA, t => t = 1 ∨ t = 2 ∨ t = 3
  | .baseStationPartial, t => t = 4
  | .staticVoyageData, t => t = 5
  | .positionReportB, t => t = 18
  | .staticDataReportA, t => t = 24
  | .staticDataReportB, t => t = 24
  | .unrecognized, t => t ∉ Config.supportedTypes
  | .headerOnly, t => t ∈ Config.supportedTypes

/-- A record response: fields in range, those outside the variant's set zero, the type one of the variant's. -/
structure Rec.Legal (r : Rec) (v : Variant) : Prop where
  inRange : r.InRange
  only : r.restrict v = r
  hasType : v.hasType r.type

/-- The bounds of a response. -/
def Response.Legal : Response → Prop
  | .bits _ => True
  | .str t => ∀ c ∈ t, 32 ≤ c.toNat ∧ c.toNat ≤ 119
  | .nat n => n < 2 ^ 30
  | .int z => -(2 ^ 29) ≤ z ∧ z < 2 ^ 29
  | .num _ => True
  | .record r v => r.Legal v
  | .sentences l => ∀ t ∈ l, isValid t Config.tagVDM = true ∨ isValid t Config.tagVDO = true
  | .bool _ => True
  | .fields l ok => l ≠ [] ∧ (∀ f ∈ l, comma ∉ f) ∧ (ok = true ↔ 7 ≤ l.length)

/-- Every response the caller holds is legal. -/
def State.Legal (s : State) : Prop := ∀ r ∈ s.responses, r.Legal

end Sys2Proof.Machine
end

