-- ==== Sys2Proof/Certificates/Slice0/Obligations.lean ====
section
/-! DEFINITION. The statements for the provers. The namespace Sys2Proof.Spec holds the spec's own formulas, written
from its notation (rules R13 to R15) and tables, so that a statement does not lean on the model's functions. -/

open Sys2Proof Sys2Proof.Machine

namespace Sys2Proof.Spec

/-- The instruction ends with this response, the caller's other requests and responses as they were, whatever the
state. -/
def Answers (i : Instr) (r : Response) : Prop :=
  ∀ s : State, exec i s = .next { requests := s.requests, responses := s.responses ++ [r] }

/-- The instruction is refused for this reason, whatever the state. -/
def Refuses (i : Instr) (e : Refusal) : Prop := ∀ s : State, exec i s = .refused e

/-- The request with this OPSEL and these operands is this instruction. -/
def IsRequest (opsel : BitVec 5) (operands : List Operand) (i : Instr) : Prop :=
  decode (.request ⟨opsel, operands⟩) = .ok i

/-- The two operations that write a field (rules R102, R103). -/
def IsInsertion (f : Bits → Nat → Nat → Int → Instr) : Prop := f = Instr.insu ∨ f = Instr.inss

/-- `uint(b[s ..< s+l])`, the sum of rule R13. -/
def fieldValue (b : Bits) (s l : Nat) : Nat :=
  ∑ i ∈ Finset.range l, (b.getD (s + i) false).toNat * 2 ^ (l - 1 - i)

/-- `sext_l` of the field, by the bit at its offset (rules R15, R44). -/
def signedValue (b : Bits) (s l : Nat) : Int :=
  if b.getD s false then (fieldValue b s l : Int) - 2 ^ l else fieldValue b s l

/-- `b[s ..< s+l]`. -/
def subBits (b : Bits) (s l : Nat) : Bits := (List.range l).map fun i => b.getD (s + i) false

/-- The six-bit value of a byte, the map of rule R65 over all 256 codes. -/
def sixOf (c : Byte) : Nat :=
  let n := c.toNat
  if n ≤ 47 then n + 16
  else if n ≤ 88 then n - 48
  else if n ≤ 119 then n - 56
  else if n ≤ 183 then n - 120
  else if n ≤ 247 then n - 184
  else n - 248

/-- The byte of a six-bit value (rule R64). -/
def armorOf (v : Nat) : Byte := if v < 40 then BitVec.ofNat 8 (v + 48) else BitVec.ofNat 8 (v + 56)

/-- A byte of the armor alphabet (rule R64). -/
def InAlphabet (c : Byte) : Prop := (48 ≤ c.toNat ∧ c.toNat ≤ 87) ∨ (96 ≤ c.toNat ∧ c.toNat ≤ 119)

/-- The message bits of a payload: six per byte, most significant first (rules R42, R65). -/
def payloadBits (payload : Str) : Bits :=
  payload.flatMap fun c => (List.range 6).map fun j => (sixOf c).testBit (5 - j)

/-- The bytes of the six-bit groups of `b`, `@` dropped (rule R66). -/
def textBytes (b : Bits) : Str :=
  ((List.range (b.length / 6)).map fun k =>
    let v := fieldValue b (6 * k) 6
    if v < 32 then BitVec.ofNat 8 (v + 64) else BitVec.ofNat 8 v).filter fun c => c != 64#8

/-- `t` is the text of the six-bit field `b`: its bytes without the spaces at their end (rule R110). -/
def TextOf (b : Bits) (t : Str) : Prop :=
  (∃ k, textBytes b = t ++ List.replicate k 32#8) ∧ t.getLast? ≠ some 32#8

/-- Upper-casing of the 26 ASCII letters (rule R111). -/
def upperOf (c : Byte) : Byte := if 97 ≤ c.toNat ∧ c.toNat ≤ 122 then c - 32#8 else c

/-- The six-bit group of an upper-cased byte (rule R67). -/
def groupOf (c : Byte) : Nat :=
  if 65 ≤ c.toNat ∧ c.toNat ≤ 90 then c.toNat - 64 else if 48 ≤ c.toNat ∧ c.toNat ≤ 57 then c.toNat else 0

/-- A byte that survives a text round trip: `A`..`Z` or `0`..`9` (rule R112). -/
def survives (c : Byte) : Bool :=
  (decide (65 ≤ c.toNat) && decide (c.toNat ≤ 90)) || (decide (48 ≤ c.toNat) && decide (c.toNat ≤ 57))

/-- The bitwise exclusive-or of the bytes (rule R173). -/
def xorOf (body : Str) : Nat := (body.foldr (fun c x => c ^^^ x) 0#8).toNat

/-- Two upper-case hex digits, high nibble first (rule R14). -/
def hexOf (n : Nat) : Str :=
  [(ascii "0123456789ABCDEF").getD (n / 16) 0#8, (ascii "0123456789ABCDEF").getD (n % 16) 0#8]

/-- The decimal spelling of a number (rule R14). -/
def decimalOf (n : Nat) : Str := (Nat.toDigits 10 n).map fun c => BitVec.ofNat 8 c.toNat

/-- The line whose comma-separated fields are `l`. -/
def lineOf (l : List Str) : Str := List.intercalate [44#8] l

/-- A list that a line splits into: no field holds a comma, and there is at least one (rule R172). -/
def IsFields (l : List Str) : Prop := l ≠ [] ∧ ∀ f ∈ l, 44#8 ∉ f

/-- A raw longitude in degrees (rule R120). -/
def lonOf (raw : Int) : Num := if raw = 108600000 ∨ raw = 268435455 then .nan else .rat ((raw : Rat) / 600000)

/-- A raw latitude in degrees (rule R121). -/
def latOf (raw : Int) : Num := if raw = 54600000 ∨ raw = 268435455 then .nan else .rat ((raw : Rat) / 600000)

/-- Sentence `i` of `n` with its chunk (rules R62, R63, R174). -/
def sentenceOf (tag : Str) (n i : Nat) (chunk : Str) : Str :=
  let body := tag.drop 1 ++ ascii "," ++ decimalOf n ++ ascii "," ++ decimalOf i ++ ascii ",,A," ++ chunk ++ ascii ",0"
  ascii "!" ++ body ++ ascii "*" ++ hexOf (xorOf body)

/-- The encoder returns the sentences FRAME makes, with the tag `!AIVDM`, of the payload TOARMOR makes of the message
`b` (rule R150). -/
def SendsMessage (i : Instr) (b : Bits) : Prop :=
  ∃ payload l, Answers (.toarmor b) (.str payload) ∧ Answers (.frame payload (ascii "!AIVDM")) (.sentences l) ∧
    Answers i (.sentences l)

/-- The payload that sentences carry: their fields 5 joined in order (rule R175). -/
def carried (l : List Str) : Str := l.flatMap fun t => (split t).getD 5 []

/-- The bits from `lo` up to `hi` are 0. -/
def ZeroFrom (b : Bits) (lo hi : Nat) : Prop := ∀ k, lo ≤ k → k < hi → b.getD k false = false

end Sys2Proof.Spec

open Sys2Proof.Spec

/-! ### The machine -/

/-- Reset: no request pending and no response held, so every response held is legal. The two fields are the model's own
(log entry 1): the unit has nothing to reset (rules R20, R32, R210). -/
def Obligations.ResetHoldsNothing : Prop :=
  State.reset.requests = [] ∧ State.reset.responses = [] ∧ State.reset.Legal

/-- A step takes the next request and executes the instruction it is, whole (rules R5, R52); that requests wait in a
list is the model's choice (log entry 1). -/
def Obligations.StepRunsTheDecodedRequest : Prop :=
  ∀ (s : State) (r : Request) (rest : List Request) (i : Instr),
    s.requests = r :: rest → decode (.request r) = .ok i →
      step s = exec i { requests := rest, responses := s.responses }

/-- An unassigned OPSEL is refused, whatever the operands (rule R79, the spec's own choice: decision D2). -/
def Obligations.UnassignedOpselIsRefused : Prop :=
  ∀ (s : State) (r : Request) (rest : List Request),
    s.requests = r :: rest → (r.opsel = 0x00 ∨ 0x19 ≤ r.opsel) → step s = .refused .unassignedOpsel

/-- The model's own choice (log entries 2 and 3): with no request pending a step changes nothing, and a request whose
operands are not of its operation's shapes is refused. -/
def Obligations.IdleStepAndMisshapenRequest : Prop :=
  (∀ s : State, s.requests = [] → step s = .next s) ∧
    ∀ (s : State) (r : Request) (rest : List Request),
      s.requests = r :: rest → 0x01 ≤ r.opsel → r.opsel ≤ 0x18 → (∀ i, encode i ≠ .request r) →
        step s = .refused .operandShape

/-- Words written out from the spec's encodings decode to the instructions they stand for: OPSEL codes of rule R5 (the
spec's own numbering, decision D2), and one-character and seven-character messages of V-D13 and V-D15 (that a message
row is an instruction of its own is the model's choice, log entry 8). -/
def Obligations.SampleWordsDecode : Prop :=
  IsRequest 0x03 [.bits [true, false, true], .nat 1, .nat 2] (.extu [true, false, true] 1 2) ∧
    IsRequest 0x17 [.str (ascii "w"), .str (ascii "!AIVDO")] (.frame (ascii "w") (ascii "!AIVDO")) ∧
    decode (.message (ascii "w")) = .ok (.msgother 63 none) ∧
    decode (.message (ascii "17lcM@0")) = .ok (.msgshort 1 (some 525000000)) ∧
    decode (.message []) = .ok .msgempty

/-- Decoding an encoded well-formed instruction gives it back: all 36 rows, every operand value (rules R5, R33, R68 to
R78; decision D2 for the OPSEL codes, log entry 8 for a message row as an instruction, log entry 10 for the words a
message row without a layout encodes to). -/
def Obligations.DecodeInvertsEncode : Prop := ∀ i : Instr, WellFormed i = true → decode (encode i) = .ok i

/-- A request has one meaning: encoding what it decodes to gives it back (rules R33, R79; decision D2). -/
def Obligations.EncodeInvertsDecodeOfRequests : Prop :=
  ∀ (r : Request) (i : Instr), decode (.request r) = .ok i → encode i = .request r

/-- Every payload, of any bytes, decodes to a well-formed message row, one of the twelve instructions that are written
as messages: no layout delivers a value its width cannot hold (rules R49, R80; a byte outside the armor alphabet by
decision D4; that a message row is an instruction of its own is the model's choice, log entry 8). -/
def Obligations.EveryPayloadIsAWellFormedMessage : Prop :=
  ∀ payload : Str, ∃ i, decode (.message payload) = .ok i ∧ WellFormed i = true ∧ ∃ q, encode i = .message q

/-- MSGDEC runs exactly the message row its payload decodes to, so VARIANT by rule R26 is the row's (rules R122, R123,
and R78, the spec's inference). That a message row is an instruction that runs by itself and delivers the branch's
record with the row's VARIANT is the model's choice, log entry 8; VARIANT is the spec's own derivation, decision D9. -/
def Obligations.MsgdecRunsTheRowItsPayloadIs : Prop :=
  ∀ (payload : Str) (i : Instr), decode (.message payload) = .ok i →
    ∀ s : State, exec (.msgdec payload) s = exec i s

/-- Rule R17: what an instruction does is a function of its operands; nothing that ran before it matters, and it changes
nothing but the response it delivers. -/
def Obligations.OutcomeDependsOnOperandsAlone : Prop :=
  ∀ i : Instr, (∃ r, Answers i r) ∨ ∃ e, Refuses i e

/-- Every well-formed instruction, of all 36, completes (rules R17, R196; that a message row is an instruction of its
own is the model's choice, log entry 8). -/
def Obligations.WellFormedInstructionsComplete : Prop :=
  ∀ i : Instr, WellFormed i = true → ∃ r, Answers i r

/-- The operations rule R196 names as total complete on every operand. -/
def Obligations.TotalOperationsComplete : Prop :=
  (∀ line, ∃ r v, Answers (.decline line) (.record r v)) ∧
    (∀ line option tag, ∃ x, Answers (.decopt line option tag) (.num x)) ∧
    (∀ payload, ∃ r v, Answers (.msgdec payload) (.record r v)) ∧
    (∀ payload, ∃ b, Answers (.tobits payload) (.bits b)) ∧
    (∀ b, ∃ t, Answers (.toarmor b) (.str t)) ∧
    (∀ b, ∃ t, Answers (.txtdec b) (.str t)) ∧
    (∀ text m, ∃ b, Answers (.txtenc text m) (.bits b)) ∧
    (∀ raw, ∃ x, Answers (.declon raw) (.num x)) ∧
    (∀ raw, ∃ x, Answers (.declat raw) (.num x)) ∧
    (∀ line pfx, ∃ v, Answers (.isvalid line pfx) (.bool v)) ∧
    (∀ line, ∃ l ok, Answers (.parse line) (.fields l ok)) ∧
    (∀ t, ∃ v, Answers (.chkvfy t) (.bool v))

/-- Every step keeps the responses legal: records in range and zero outside their variant's fields, numbers within 30
bits, texts and payloads in their alphabets, sentences with a tag, fields without commas (rules R22, R26, R27, R64, R66,
R104, R171, R175). -/
def Obligations.EveryStepKeepsResponsesLegal : Prop :=
  ∀ s s' : State, s.Legal → step s = .next s' → s'.Legal

/-- Two pending requests may run in either order, and each gets the response it would get alone (rules R52, R56;
decision D28, log entry 1 for the list they wait in). -/
def Obligations.RequestsRunInAnyOrder : Prop :=
  ∀ (s t : State) (a b : Request) (rest : List Request), s.requests = a :: b :: rest →
    Host.Core.run Sys2Proof.core 2 s = .next t →
      ∃ x y : Response, t = { requests := rest, responses := s.responses ++ [x, y] } ∧
        Host.Core.run Sys2Proof.core 2 { requests := b :: a :: rest, responses := s.responses } =
          .next { requests := rest, responses := s.responses ++ [y, x] }

/-! ### BitArmor -/

/-- TOBITS appends six bits per byte, most significant first, of the value rule R65 gives the byte, and takes every
payload (rule R90; outside the armor alphabet the value is the spec's own choice, decision D4). -/
def Obligations.TobitsAppendsSixBitsPerByte : Prop :=
  ∀ payload : Str, IsRequest 0x01 [.str payload] (.tobits payload) ∧
    ∃ b, Answers (.tobits payload) (.bits b) ∧ b.length = 6 * payload.length ∧
      ∀ k j, k < payload.length → j < 6 →
        b[6 * k + j]? = some ((sixOf (payload.getD k 0#8)).testBit (5 - j))

/-- Rule R91: TOARMOR makes one byte of the armor alphabet of each group of six bits, the last group padded on the right
with zeros, and takes every bit string. -/
def Obligations.ToarmorMakesOneBytePerGroup : Prop :=
  ∀ b : Bits, IsRequest 0x02 [.bits b] (.toarmor b) ∧
    ∃ t, Answers (.toarmor b) (.str t) ∧ t.length = (b.length + 5) / 6 ∧
      ∀ k, k < t.length → t[k]? = some (armorOf (fieldValue b (6 * k) 6))

/-- TOBITS of TOARMOR is the bit string, padded with zeros to a multiple of six (rule R92; its second sentence is the
spec's inference). -/
def Obligations.BitsSurviveArmoring : Prop :=
  ∀ (b : Bits) (t : Str), Answers (.toarmor b) (.str t) →
    Answers (.tobits t) (.bits (b ++ List.replicate (6 * ((b.length + 5) / 6) - b.length) false))

/-- TOARMOR of TOBITS is the payload exactly when every byte of it is in the armor alphabet (rule R93, the spec's
inference). -/
def Obligations.PayloadSurvivesIffInAlphabet : Prop :=
  ∀ (p : Str) (b : Bits), Answers (.tobits p) (.bits b) →
    (Answers (.toarmor b) (.str p) ↔ ∀ c ∈ p, InAlphabet c)

/-! ### FieldCodec -/

/-- EXTU answers the number the slice spells big-endian (rule R100), and refuses a slice out of range (the spec's own
choice, decision D21). -/
def Obligations.ExtuReadsBigEndian : Prop :=
  ∀ (b : Bits) (s l : Nat), IsRequest 0x03 [.bits b, .nat s, .nat l] (.extu b s l) ∧
    (l ≤ 30 → s + l ≤ b.length →
      Answers (.extu b s l) (.nat (fieldValue b s l)) ∧ fieldValue b s l ≤ 2 ^ l - 1) ∧
    (l > 30 ∨ s + l > b.length → Refuses (.extu b s l) .sliceOutOfRange)

/-- EXTS answers the two's-complement number of the slice (rule R101), and refuses a slice out of range or empty (the
spec's own choice, decision D21). -/
def Obligations.ExtsReadsTwosComplement : Prop :=
  ∀ (b : Bits) (s l : Nat), IsRequest 0x04 [.bits b, .nat s, .nat l] (.exts b s l) ∧
    (1 ≤ l → l ≤ 30 → s + l ≤ b.length →
      Answers (.exts b s l) (.int (signedValue b s l)) ∧
        -(2 ^ (l - 1)) ≤ signedValue b s l ∧ signedValue b s l ≤ 2 ^ (l - 1) - 1) ∧
    (l < 1 ∨ l > 30 ∨ s + l > b.length → Refuses (.exts b s l) .sliceOutOfRange)

/-- INSU answers the bit string with the slice spelling the value and every other bit as it was (rule R102), and
refuses a slice out of range and then a value that does not fit (the spec's own choice, decisions D21 and D30). -/
def Obligations.InsuWritesItsFieldOnly : Prop :=
  ∀ (b : Bits) (s l : Nat) (v : Int), IsRequest 0x05 [.bits b, .nat s, .nat l, .int v] (.insu b s l v) ∧
    (l ≤ 30 → s + l ≤ b.length → 0 ≤ v → v < 2 ^ l →
      ∃ out, Answers (.insu b s l v) (.bits out) ∧ out.length = b.length ∧ (fieldValue out s l : Int) = v ∧
        ∀ i, i < s ∨ s + l ≤ i → out[i]? = b[i]?) ∧
    (l > 30 ∨ s + l > b.length → Refuses (.insu b s l v) .sliceOutOfRange) ∧
    (l ≤ 30 → s + l ≤ b.length → v < 0 ∨ v ≥ 2 ^ l → Refuses (.insu b s l v) .valueOutOfRange)

/-- INSS answers the bit string with the slice spelling the value in two's complement and every other bit as it was
(rule R103), and refuses a slice out of range and then a value that does not fit (the spec's own choice, decisions D21
and D30). -/
def Obligations.InssWritesTwosComplement : Prop :=
  ∀ (b : Bits) (s l : Nat) (v : Int), IsRequest 0x06 [.bits b, .nat s, .nat l, .int v] (.inss b s l v) ∧
    (1 ≤ l → l ≤ 30 → s + l ≤ b.length → -(2 ^ (l - 1)) ≤ v → v ≤ 2 ^ (l - 1) - 1 →
      ∃ out, Answers (.inss b s l v) (.bits out) ∧ out.length = b.length ∧ signedValue out s l = v ∧
        (fieldValue out s l : Int) = (if v < 0 then v + 2 ^ l else v) ∧
        ∀ i, i < s ∨ s + l ≤ i → out[i]? = b[i]?) ∧
    (l < 1 ∨ l > 30 ∨ s + l > b.length → Refuses (.inss b s l v) .sliceOutOfRange) ∧
    (1 ≤ l → l ≤ 30 → s + l ≤ b.length → v < -(2 ^ (l - 1)) ∨ v > 2 ^ (l - 1) - 1 →
      Refuses (.inss b s l v) .valueOutOfRange)

/-- Inserting what was extracted changes nothing, extracting what was inserted gives it back, a signed field modulo
`2^l` is the unsigned one, and insertions into disjoint fields commute (rule R107, the spec's inference). -/
def Obligations.FieldInverseLaws : Prop :=
  (∀ (b : Bits) (s l x : Nat), Answers (.extu b s l) (.nat x) → Answers (.insu b s l x) (.bits b)) ∧
    (∀ (b : Bits) (s l : Nat) (x : Int), Answers (.exts b s l) (.int x) → Answers (.inss b s l x) (.bits b)) ∧
    (∀ (b c : Bits) (s l v : Nat), Answers (.insu b s l v) (.bits c) → Answers (.extu c s l) (.nat v)) ∧
    (∀ (b c : Bits) (s l : Nat) (v : Int), Answers (.inss b s l v) (.bits c) → Answers (.exts c s l) (.int v)) ∧
    (∀ (b : Bits) (s l x : Nat) (y : Int), Answers (.extu b s l) (.nat x) → Answers (.exts b s l) (.int y) →
      (x : Int) = y % 2 ^ l) ∧
    ∀ f g : Bits → Nat → Nat → Int → Instr, IsInsertion f → IsInsertion g →
      ∀ (b c d : Bits) (s l t m : Nat) (v w : Int), s + l ≤ t ∨ t + m ≤ s →
        Answers (f b s l v) (.bits c) → Answers (g b t m w) (.bits d) →
          ∃ e, Answers (g c t m w) (.bits e) ∧ Answers (f d s l v) (.bits e)

/-- A field read whole is its two parts, the first shifted by the second's width, wherever it is cut (rule R46, the
spec's inference). -/
def Obligations.MixedWidthReadsAgree : Prop :=
  ∀ (b : Bits) (s l m x y z : Nat), s ≤ m → m ≤ s + l → Answers (.extu b s l) (.nat x) →
    Answers (.extu b s (m - s)) (.nat y) → Answers (.extu b m (s + l - m)) (.nat z) →
      x = y * 2 ^ (s + l - m) + z

/-! ### TextCodec -/

/-- Rule R110: TXTDEC answers the text of the field: the bytes of the whole groups, every `@` dropped, the spaces at the
end trimmed; it takes every bit string. -/
def Obligations.TxtdecAnswersTheText : Prop :=
  ∀ b : Bits, IsRequest 0x07 [.bits b] (.txtdec b) ∧
    ∃ t, Answers (.txtdec b) (.str t) ∧ TextOf b t ∧ t.length ≤ b.length / 6 ∧
      ∀ c ∈ t, (32 ≤ c.toNat ∧ c.toNat ≤ 63) ∨ (65 ≤ c.toNat ∧ c.toNat ≤ 95)

/-- TXTENC answers exactly `maxChars` groups, those of the upper-cased bytes of the text and 0 beyond its end; it takes
every text (rule R111; upper-casing of the ASCII letters alone is the spec's own choice, decision D20). -/
def Obligations.TxtencWritesMaxCharsGroups : Prop :=
  ∀ (text : Str) (m : Nat), IsRequest 0x08 [.str text, .nat m] (.txtenc text m) ∧
    ∃ b, Answers (.txtenc text m) (.bits b) ∧ b.length = 6 * m ∧
      ∀ k, k < m → fieldValue b (6 * k) 6 = (match text[k]? with
        | some c => groupOf (upperOf c)
        | none => 0)

/-- TXTDEC of TXTENC is the first `m` bytes upper-cased, with every byte that is no letter or digit deleted, spaces
included (rule R112 with SPACE_CODE at its default, decision D19). -/
def Obligations.TextRoundTripKeepsLettersAndDigits : Prop :=
  ∀ (t : Str) (m : Nat) (b : Bits), Answers (.txtenc t m) (.bits b) →
    Answers (.txtdec b) (.str (((t.take m).map upperOf).filter survives))

/-- TXTENC of TXTDEC gives a field back exactly when its groups are letters and digits up to some position and 0 from
there on (rule R113, the spec's inference). -/
def Obligations.FieldSurvivesTextRoundTripIff : Prop :=
  ∀ (b : Bits) (m : Nat) (t : Str), b.length = 6 * m → Answers (.txtdec b) (.str t) →
    (Answers (.txtenc t m) (.bits b) ↔
      ∃ n, n ≤ m ∧ ∀ k, k < m →
        if k < n then (1 ≤ fieldValue b (6 * k) 6 ∧ fieldValue b (6 * k) 6 ≤ 26) ∨
          (48 ≤ fieldValue b (6 * k) 6 ∧ fieldValue b (6 * k) 6 ≤ 57)
        else fieldValue b (6 * k) 6 = 0)

/-- SPACE_CODE = 32 changes only the group of a space, and a text of letters, digits and inner spaces then survives the
round trip (rule R112, its last two sentences; conflict C2, decision D19). -/
def Obligations.SpaceCodeThirtyTwoKeepsSpaces : Prop :=
  let p := { Config.params with spaceCode := 32 }
  (∀ c : Byte, c ≠ 32#8 → textCode p c = textCode Config.params c) ∧ textCode p 32#8 = 32 ∧
    ∀ t : Str, (∀ c ∈ t, survives c = true ∨ c = 32#8) → t.getLast? ≠ some 32#8 →
      txtdec (txtenc p t t.length) = t

/-! ### MessageCodec, decode -/

/-- DECLON and DECLAT answer NaN at their two sentinels and the exact rational `raw / 600000` elsewhere (rules R120,
R121); comparing integers, taking every integer and answering exactly are the spec's own choices (decisions D7, D32,
D8). -/
def Obligations.PositionsScaleExactly : Prop :=
  ∀ raw : Int, IsRequest 0x09 [.int raw] (.declon raw) ∧ Answers (.declon raw) (.num (lonOf raw)) ∧
    IsRequest 0x0A [.int raw] (.declat raw) ∧ Answers (.declat raw) (.num (latOf raw))

/-- On the decode path the second sentinel is out of reach: a longitude field of 28 one-bits is -1, `-1/600000` degrees
and not NaN; under SENTINEL_COMPARE = bit_pattern it would be NaN and no latitude would change (rule R138, decision D7;
what bit_pattern does with a value outside its field's width is log entry 6). -/
def Obligations.SecondSentinelIsDeadOnDecode : Prop :=
  (∀ (payload : Str) (r : Rec) (v : Variant), Answers (.msgdec payload) (.record r v) →
      r.lonRaw ≠ 268435455 ∧ r.latRaw ≠ 268435455) ∧
    (∀ (b : Bits) (s l : Nat), 1 ≤ l → l ≤ 30 → s + l ≤ b.length → (∀ i, s ≤ i → i < s + l → b[i]? = some true) →
      Answers (.exts b s l) (.int (-1))) ∧
    Answers (.declon (-1)) (.num (.rat (-1 / 600000))) ∧
    (let p := { Config.params with sentinelCompare := .bitPattern }
     declon p (-1) = .nan ∧
       ∀ raw : Int, -(2 ^ 26) ≤ raw → raw < 2 ^ 26 → declat p raw = declat Config.params raw)

/-- Types 1, 2 and 3 of at least 168 bits (rule R124): what MSGDEC answers, and which row of MSG1, MSG2, MSG3 the
payload is; that the row is an instruction of its own that delivers this record with its VARIANT is the model's choice,
log entry 8, and the row's dispatch is the spec's inference, rule R78. Bytes outside the alphabet, bits beyond the
layout, the sentinel comparison and exact scaling are the spec's own choices (decisions D4, D31, D7, D8). -/
def Obligations.PositionReportAFields : Prop :=
  ∀ payload : Str, let b := payloadBits payload
    ∀ t, fieldValue b 0 6 = t → t = 1 ∨ t = 2 ∨ t = 3 → 168 ≤ b.length →
      let f : PosA :=
        { mmsi := fieldValue b 8 30, navStatus := fieldValue b 38 4, rot := signedValue b 42 8,
          sogRaw := fieldValue b 50 10, posAccuracy := b.getD 60 false, lonRaw := signedValue b 61 28,
          latRaw := signedValue b 89 27, cogRaw := fieldValue b 116 12, heading := fieldValue b 128 9,
          timestamp := fieldValue b 137 6 }
      let r : Rec :=
        { type := t, mmsi := fieldValue b 8 30, navStatus := fieldValue b 38 4, rot := signedValue b 42 8,
          sogRaw := fieldValue b 50 10, posAccuracy := b.getD 60 false, lonRaw := signedValue b 61 28,
          latRaw := signedValue b 89 27, cogRaw := fieldValue b 116 12, heading := fieldValue b 128 9,
          timestamp := fieldValue b 137 6 }
      Answers (.msgdec payload) (.record r .positionReportA) ∧
        (t = 1 → decode (.message payload) = .ok (.msg1 f) ∧ Answers (.msg1 f) (.record r .positionReportA)) ∧
        (t = 2 → decode (.message payload) = .ok (.msg2 f) ∧ Answers (.msg2 f) (.record r .positionReportA)) ∧
        (t = 3 → decode (.message payload) = .ok (.msg3 f) ∧ Answers (.msg3 f) (.record r .positionReportA)) ∧
        r.sog = .rat ((fieldValue b 50 10 : Rat) / 10) ∧ r.cog = .rat ((fieldValue b 116 12 : Rat) / 10) ∧
        r.lon Config.params = lonOf (signedValue b 61 28) ∧ r.lat Config.params = latOf (signedValue b 89 27)

/-- Type 4 of at least 168 bits delivers its position and nothing else (rule R125), and the payload is the row MSG4;
that the row is an instruction of its own that delivers this record with its VARIANT is the model's choice, log entry
8, and the row's dispatch is the spec's inference, rule R78. Bytes outside the alphabet, bits beyond the layout, the
sentinel comparison and exact scaling are the spec's own choices (decisions D4, D31, D7, D8). -/
def Obligations.BaseStationFields : Prop :=
  ∀ payload : Str, let b := payloadBits payload
    fieldValue b 0 6 = 4 → 168 ≤ b.length →
      let f : Base :=
        { mmsi := fieldValue b 8 30, lonRaw := signedValue b 79 28, latRaw := signedValue b 107 27 }
      let r : Rec :=
        { type := 4, mmsi := fieldValue b 8 30, lonRaw := signedValue b 79 28, latRaw := signedValue b 107 27 }
      Answers (.msgdec payload) (.record r .baseStationPartial) ∧
        decode (.message payload) = .ok (.msg4 f) ∧ Answers (.msg4 f) (.record r .baseStationPartial) ∧
        r.lon Config.params = lonOf (signedValue b 79 28) ∧ r.lat Config.params = latOf (signedValue b 107 27)

/-- Type 5 of at least 424 bits (rule R126), and the payload is the row MSG5; that the row is an instruction of its own
that delivers this record with its VARIANT is the model's choice, log entry 8, and the row's dispatch is the spec's
inference, rule R78. Bytes outside the alphabet and bits beyond the layout are the spec's own choices (decisions D4,
D31). -/
def Obligations.StaticVoyageFields : Prop :=
  ∀ payload : Str, let b := payloadBits payload
    fieldValue b 0 6 = 5 → 424 ≤ b.length →
      let f : Voyage Bits :=
        { mmsi := fieldValue b 8 30, imo := fieldValue b 40 30, callsign := subBits b 70 42,
          shipName := subBits b 112 120, shipType := fieldValue b 232 8, dimA := fieldValue b 240 9,
          dimB := fieldValue b 249 9, dimC := fieldValue b 258 6, dimD := fieldValue b 264 6 }
      ∃ call name, TextOf (subBits b 70 42) call ∧ TextOf (subBits b 112 120) name ∧
        let r : Rec :=
          { type := 5, mmsi := fieldValue b 8 30, imo := fieldValue b 40 30, callsign := call, shipName := name,
            shipType := fieldValue b 232 8, dimA := fieldValue b 240 9, dimB := fieldValue b 249 9,
            dimC := fieldValue b 258 6, dimD := fieldValue b 264 6 }
        Answers (.msgdec payload) (.record r .staticVoyageData) ∧
          decode (.message payload) = .ok (.msg5 f) ∧ Answers (.msg5 f) (.record r .staticVoyageData)

/-- Type 18 of at least 168 bits; `navStatus`, `rot`, `posAccuracy` and `timestamp` stay zero (rule R127), and the
payload is the row MSG18; that the row is an instruction of its own that delivers this record with its VARIANT is the
model's choice, log entry 8, and the row's dispatch is the spec's inference, rule R78. Bytes outside the alphabet, bits
beyond the layout, the sentinel comparison and exact scaling are the spec's own choices (decisions D4, D31, D7, D8). -/
def Obligations.PositionReportBFields : Prop :=
  ∀ payload : Str, let b := payloadBits payload
    fieldValue b 0 6 = 18 → 168 ≤ b.length →
      let f : PosB :=
        { mmsi := fieldValue b 8 30, sogRaw := fieldValue b 46 10, lonRaw := signedValue b 57 28,
          latRaw := signedValue b 85 27, cogRaw := fieldValue b 112 12, heading := fieldValue b 124 9 }
      let r : Rec :=
        { type := 18, mmsi := fieldValue b 8 30, sogRaw := fieldValue b 46 10, lonRaw := signedValue b 57 28,
          latRaw := signedValue b 85 27, cogRaw := fieldValue b 112 12, heading := fieldValue b 124 9 }
      Answers (.msgdec payload) (.record r .positionReportB) ∧
        decode (.message payload) = .ok (.msg18 f) ∧ Answers (.msg18 f) (.record r .positionReportB) ∧
        r.sog = .rat ((fieldValue b 46 10 : Rat) / 10) ∧ r.cog = .rat ((fieldValue b 112 12 : Rat) / 10) ∧
        r.lon Config.params = lonOf (signedValue b 57 28) ∧ r.lat Config.params = latOf (signedValue b 85 27)

/-- Type 24 of at least 160 bits delivers by its part number the name only (part 0, rule R129), the ship type, callsign
and dimensions only (part 1, rule R130), or neither (parts 2 and 3, the spec's own choice, decision D10), and the
payload is the row MSG24A, MSG24B or MSG24X; that the row is an instruction of its own that delivers this record with
its VARIANT is the model's choice, log entry 8, and the row's dispatch is the spec's inference, rule R78. Bytes outside
the alphabet and bits beyond the layout are the spec's own choices (decisions D4, D31). -/
def Obligations.StaticDataReportFields : Prop :=
  ∀ payload : Str, let b := payloadBits payload
    fieldValue b 0 6 = 24 → 160 ≤ b.length →
      (fieldValue b 38 2 = 0 → ∃ name, TextOf (subBits b 40 120) name ∧
        let f : NameA Bits := { mmsi := fieldValue b 8 30, shipName := subBits b 40 120 }
        let r : Rec := { type := 24, mmsi := fieldValue b 8 30, partNumber := 0, shipName := name }
        Answers (.msgdec payload) (.record r .staticDataReportA) ∧
          decode (.message payload) = .ok (.msg24a f) ∧ Answers (.msg24a f) (.record r .staticDataReportA)) ∧
      (fieldValue b 38 2 = 1 → ∃ call, TextOf (subBits b 48 42) call ∧
        let f : StaticB Bits :=
          { mmsi := fieldValue b 8 30, shipType := fieldValue b 40 8, callsign := subBits b 48 42,
            dimA := fieldValue b 90 9, dimB := fieldValue b 99 9, dimC := fieldValue b 108 6,
            dimD := fieldValue b 114 6 }
        let r : Rec :=
          { type := 24, mmsi := fieldValue b 8 30, partNumber := 1, shipType := fieldValue b 40 8,
            callsign := call, dimA := fieldValue b 90 9, dimB := fieldValue b 99 9, dimC := fieldValue b 108 6,
            dimD := fieldValue b 114 6 }
        Answers (.msgdec payload) (.record r .staticDataReportB) ∧
          decode (.message payload) = .ok (.msg24b f) ∧ Answers (.msg24b f) (.record r .staticDataReportB)) ∧
      (∀ part, fieldValue b 38 2 = part → 2 ≤ part →
        let r : Rec := { type := 24, mmsi := fieldValue b 8 30, partNumber := part }
        Answers (.msgdec payload) (.record r .headerOnly) ∧
          decode (.message payload) = .ok (.msg24x (fieldValue b 8 30) part) ∧
          Answers (.msg24x (fieldValue b 8 30) part) (.record r .headerOnly))

/-- A type without a layout, and a supported type whose minimum length is not met, deliver `type` and, from 38 bits on,
`mmsi` (rules R132, R133; the `mmsi` of a type without a layout is the spec's own choice, decision D11); the empty
payload delivers the zero record (rule R134). The payload is the row MSGOTHER, MSGSHORT or MSGEMPTY; that the row is an
instruction of its own that delivers this record with its VARIANT is the model's choice, log entry 8, and the row's
dispatch is the spec's inference, rule R78. Bytes outside the alphabet are the spec's own choice (decision D4). -/
def Obligations.HeaderOnlyMessages : Prop :=
  (∀ payload : Str, let b := payloadBits payload
    ∀ t, fieldValue b 0 6 = t → 6 ≤ b.length →
      let m : Option Int := if 38 ≤ b.length then some (fieldValue b 8 30) else none
      let r : Rec := { type := t, mmsi := if 38 ≤ b.length then fieldValue b 8 30 else 0 }
      (t ∉ [1, 2, 3, 4, 5, 18, 24] →
        Answers (.msgdec payload) (.record r .unrecognized) ∧
          decode (.message payload) = .ok (.msgother t m) ∧ Answers (.msgother t m) (.record r .unrecognized)) ∧
      ((t ∈ [1, 2, 3, 4, 18] ∧ b.length < 168) ∨ (t = 5 ∧ b.length < 424) ∨ (t = 24 ∧ b.length < 160) →
        Answers (.msgdec payload) (.record r .headerOnly) ∧
          decode (.message payload) = .ok (.msgshort t m) ∧ Answers (.msgshort t m) (.record r .headerOnly))) ∧
    Answers (.msgdec []) (.record {} .unrecognized) ∧ decode (.message []) = .ok .msgempty ∧
    Answers .msgempty (.record {} .unrecognized)

/-- DECLINE decodes field 5 of a line that starts with either tag (the spec's own choice, decision D12), has at least
seven fields and a field 5 that is not empty; every other line gives the zero record (rules R135, R192). That the
VARIANT of such a turned-away line is Unrecognized is the model's deduction from rule R26, log entry 9. -/
def Obligations.DeclineDecodesFieldFive : Prop :=
  ∀ (l : List Str), IsFields l → IsRequest 0x0C [.str (lineOf l)] (.decline (lineOf l)) ∧
    ((ascii "!AIVDM" <+: lineOf l ∨ ascii "!AIVDO" <+: lineOf l) ∧ 7 ≤ l.length ∧ l.getD 5 [] ≠ [] →
      ∀ s, exec (.decline (lineOf l)) s = exec (.msgdec (l.getD 5 [])) s) ∧
    (¬((ascii "!AIVDM" <+: lineOf l ∨ ascii "!AIVDO" <+: lineOf l) ∧ 7 ≤ l.length ∧ l.getD 5 [] ≠ []) →
      Answers (.decline (lineOf l)) (.record {} .unrecognized))

/-- DECOPT answers the scalar the option names, of the record of field 5, when the line starts with the tag, has at
least seven fields and a field 5 that is not empty; 0 for every other line and every other option (rules R136, R137;
the option names and `posAccuracy` as 1 or 0 are the spec's own choice, decisions D13 and D29). -/
def Obligations.DecoptAnswersTheNamedScalar : Prop :=
  ∀ (l : List Str) (tag : Str), IsFields l →
    (∀ option, IsRequest 0x0D [.str (lineOf l), .str option, .str tag] (.decopt (lineOf l) option tag)) ∧
    (¬(tag <+: lineOf l ∧ 7 ≤ l.length ∧ l.getD 5 [] ≠ []) →
      ∀ option, Answers (.decopt (lineOf l) option tag) (.num (.rat 0))) ∧
    ∀ (r : Rec) (v : Variant), Answers (.msgdec (l.getD 5 [])) (.record r v) →
      tag <+: lineOf l ∧ 7 ≤ l.length ∧ l.getD 5 [] ≠ [] →
        Answers (.decopt (lineOf l) (ascii "type") tag) (.num (.rat r.type)) ∧
        Answers (.decopt (lineOf l) (ascii "mmsi") tag) (.num (.rat r.mmsi)) ∧
        Answers (.decopt (lineOf l) (ascii "navStatus") tag) (.num (.rat r.navStatus)) ∧
        Answers (.decopt (lineOf l) (ascii "rot") tag) (.num (.rat r.rot)) ∧
        Answers (.decopt (lineOf l) (ascii "sog") tag) (.num (.rat ((r.sogRaw : Rat) / 10))) ∧
        Answers (.decopt (lineOf l) (ascii "posAccuracy") tag) (.num (.rat (if r.posAccuracy then 1 else 0))) ∧
        Answers (.decopt (lineOf l) (ascii "lon") tag) (.num (lonOf r.lonRaw)) ∧
        Answers (.decopt (lineOf l) (ascii "lat") tag) (.num (latOf r.latRaw)) ∧
        Answers (.decopt (lineOf l) (ascii "cog") tag) (.num (.rat ((r.cogRaw : Rat) / 10))) ∧
        Answers (.decopt (lineOf l) (ascii "heading") tag) (.num (.rat r.heading)) ∧
        Answers (.decopt (lineOf l) (ascii "timestamp") tag) (.num (.rat r.timestamp)) ∧
        Answers (.decopt (lineOf l) (ascii "imo") tag) (.num (.rat r.imo)) ∧
        Answers (.decopt (lineOf l) (ascii "shiptype") tag) (.num (.rat r.shipType)) ∧
        Answers (.decopt (lineOf l) (ascii "dimA") tag) (.num (.rat r.dimA)) ∧
        Answers (.decopt (lineOf l) (ascii "dimB") tag) (.num (.rat r.dimB)) ∧
        Answers (.decopt (lineOf l) (ascii "dimC") tag) (.num (.rat r.dimC)) ∧
        Answers (.decopt (lineOf l) (ascii "dimD") tag) (.num (.rat r.dimD)) ∧
        Answers (.decopt (lineOf l) (ascii "partNumber") tag) (.num (.rat r.partNumber)) ∧
        ∀ option, option ∉ ["type", "mmsi", "navStatus", "rot", "sog", "posAccuracy", "lon", "lat", "cog", "heading",
            "timestamp", "imo", "shiptype", "dimA", "dimB", "dimC", "dimD", "partNumber"].map ascii →
          Answers (.decopt (lineOf l) option tag) (.num (.rat 0))

/-- A decode looks at nothing of a line but its prefix, its number of fields and field 5: not at the fragment numbers,
the sequence id, the channel, the fill bits or the checksum (rules R61, R177; the spec's own choice, decisions D23 and
D31). -/
def Obligations.DecodeLooksAtFieldFiveOnly : Prop :=
  ∀ l m : List Str, IsFields l → IsFields m → 7 ≤ l.length → 7 ≤ m.length → l[0]? = m[0]? → l[5]? = m[5]? →
    ∀ s, exec (.decline (lineOf l)) s = exec (.decline (lineOf m)) s ∧
      ∀ option tag, 44#8 ∉ tag →
        exec (.decopt (lineOf l) option tag) s = exec (.decopt (lineOf m) option tag) s

/-- The tagged-union view: each variant holds exactly its field set, and an unrecognized record's `mmsi` is dropped
(rule R27, the spec's inference). -/
def Obligations.UnionViewOfARecord : Prop :=
  ∀ (payload : Str) (r : Rec) (v : Variant), Answers (.msgdec payload) (.record r v) →
    let n := 6 * payload.length
    let m := project Config.params r v n
    (v = .unrecognized → m = .unrecognized r.type) ∧
      (v = .headerOnly → m = .headerOnly r.type r.mmsi (if r.type = 24 ∧ 160 ≤ n then some r.partNumber else none) ∧
        (r.type ≠ 24 ∨ n < 160 → r.partNumber = 0)) ∧
      (v = .baseStationPartial → m = .baseStationPartial 4 r.mmsi (lonOf r.lonRaw) (latOf r.latRaw)) ∧
      (v = .positionReportB → m = .positionReportB 18 r.mmsi (.rat ((r.sogRaw : Rat) / 10)) (lonOf r.lonRaw)
        (latOf r.latRaw) (.rat ((r.cogRaw : Rat) / 10)) r.heading) ∧
      (v = .positionReportA → m = .positionReportA r.type r.mmsi r.navStatus r.rot (.rat ((r.sogRaw : Rat) / 10))
        r.posAccuracy (lonOf r.lonRaw) (latOf r.latRaw) (.rat ((r.cogRaw : Rat) / 10)) r.heading r.timestamp) ∧
      (v = .staticVoyageData → m = .staticVoyageData 5 r.mmsi r.imo r.callsign r.shipName r.shipType r.dimA r.dimB
        r.dimC r.dimD) ∧
      (v = .staticDataReportA → m = .staticDataReportA 24 r.mmsi 0 r.shipName) ∧
      (v = .staticDataReportB → m = .staticDataReportB 24 r.mmsi 1 r.shipType r.callsign r.dimA r.dimB r.dimC r.dimD)

/-! ### MessageCodec, encode -/

/-- ENCPOSA (rule R153). That one operation serves the three types, the length, the zeros and the refusal are the
spec's own choices (decisions D18, D14, D15, D30). -/
def Obligations.EncposaSendsItsFields : Prop :=
  ∀ (t : Int) (f : PosA),
    IsRequest 0x0E [.int t, .int f.mmsi, .int f.navStatus, .int f.rot, .int f.sogRaw, .bool f.posAccuracy,
      .int f.lonRaw, .int f.latRaw, .int f.cogRaw, .int f.heading, .int f.timestamp] (.encposa t f) ∧
    (t = 1 ∨ t = 2 ∨ t = 3 → f.fits = true →
      ∃ b, SendsMessage (.encposa t f) b ∧ b.length = 168 ∧ (fieldValue b 0 6 : Int) = t ∧
        (fieldValue b 8 30 : Int) = f.mmsi ∧ (fieldValue b 38 4 : Int) = f.navStatus ∧ signedValue b 42 8 = f.rot ∧
        (fieldValue b 50 10 : Int) = f.sogRaw ∧ b.getD 60 false = f.posAccuracy ∧ signedValue b 61 28 = f.lonRaw ∧
        signedValue b 89 27 = f.latRaw ∧ (fieldValue b 116 12 : Int) = f.cogRaw ∧
        (fieldValue b 128 9 : Int) = f.heading ∧ (fieldValue b 137 6 : Int) = f.timestamp ∧ ZeroFrom b 6 8 ∧
        ZeroFrom b 143 168) ∧
    (¬((t = 1 ∨ t = 2 ∨ t = 3) ∧ f.fits = true) → Refuses (.encposa t f) .valueOutOfRange)

/-- ENCBASE (rule R154). The length, the zeros and the refusal are the spec's own choices (decisions D14, D15, D30). -/
def Obligations.EncbaseSendsItsFields : Prop :=
  ∀ f : Base, IsRequest 0x0F [.int f.mmsi, .int f.lonRaw, .int f.latRaw] (.encbase f) ∧
    (f.fits = true →
      ∃ b, SendsMessage (.encbase f) b ∧ b.length = 168 ∧ fieldValue b 0 6 = 4 ∧
        (fieldValue b 8 30 : Int) = f.mmsi ∧ signedValue b 79 28 = f.lonRaw ∧ signedValue b 107 27 = f.latRaw ∧
        ZeroFrom b 6 8 ∧ ZeroFrom b 38 79 ∧ ZeroFrom b 134 168) ∧
    (f.fits = false → Refuses (.encbase f) .valueOutOfRange)

/-- ENCSTAT (rule R155). The zeros and the refusal are the spec's own choices (decisions D15, D30). -/
def Obligations.EncstatSendsItsFields : Prop :=
  ∀ f : Voyage Str,
    IsRequest 0x10 [.int f.mmsi, .int f.imo, .str f.callsign, .str f.shipName, .int f.shipType, .int f.dimA,
      .int f.dimB, .int f.dimC, .int f.dimD] (.encstat f) ∧
    (f.fits = true →
      ∃ b, SendsMessage (.encstat f) b ∧ b.length = 424 ∧ fieldValue b 0 6 = 5 ∧
        (fieldValue b 8 30 : Int) = f.mmsi ∧ (fieldValue b 40 30 : Int) = f.imo ∧
        Answers (.txtenc f.callsign 7) (.bits (subBits b 70 42)) ∧
        Answers (.txtenc f.shipName 20) (.bits (subBits b 112 120)) ∧ (fieldValue b 232 8 : Int) = f.shipType ∧
        (fieldValue b 240 9 : Int) = f.dimA ∧ (fieldValue b 249 9 : Int) = f.dimB ∧
        (fieldValue b 258 6 : Int) = f.dimC ∧ (fieldValue b 264 6 : Int) = f.dimD ∧ ZeroFrom b 6 8 ∧
        ZeroFrom b 38 40 ∧ ZeroFrom b 270 424 ∧ ∃ x y, Answers (.encstat f) (.sentences [x, y])) ∧
    (f.fits = false → Refuses (.encstat f) .valueOutOfRange)

/-- ENCPOSB (rule R156). The length, the zeros and the refusal are the spec's own choices (decisions D14, D15, D30). -/
def Obligations.EncposbSendsItsFields : Prop :=
  ∀ f : PosB,
    IsRequest 0x11 [.int f.mmsi, .int f.sogRaw, .int f.lonRaw, .int f.latRaw, .int f.cogRaw, .int f.heading]
      (.encposb f) ∧
    (f.fits = true →
      ∃ b, SendsMessage (.encposb f) b ∧ b.length = 168 ∧ fieldValue b 0 6 = 18 ∧
        (fieldValue b 8 30 : Int) = f.mmsi ∧ (fieldValue b 46 10 : Int) = f.sogRaw ∧ signedValue b 57 28 = f.lonRaw ∧
        signedValue b 85 27 = f.latRaw ∧ (fieldValue b 112 12 : Int) = f.cogRaw ∧
        (fieldValue b 124 9 : Int) = f.heading ∧ ZeroFrom b 6 8 ∧ ZeroFrom b 38 46 ∧ ZeroFrom b 56 57 ∧
        ZeroFrom b 133 168) ∧
    (f.fits = false → Refuses (.encposb f) .valueOutOfRange)

/-- ENC24A (rule R157). The length, the zeros and the refusal are the spec's own choices (decisions D14, D15, D30). -/
def Obligations.EncTwentyFourASendsItsFields : Prop :=
  ∀ f : NameA Str, IsRequest 0x12 [.int f.mmsi, .str f.shipName] (.enc24a f) ∧
    (f.fits = true →
      ∃ b, SendsMessage (.enc24a f) b ∧ b.length = 160 ∧ fieldValue b 0 6 = 24 ∧
        (fieldValue b 8 30 : Int) = f.mmsi ∧ fieldValue b 38 2 = 0 ∧
        Answers (.txtenc f.shipName 20) (.bits (subBits b 40 120)) ∧ ZeroFrom b 6 8) ∧
    (f.fits = false → Refuses (.enc24a f) .valueOutOfRange)

/-- ENC24B (rule R158). The length, the zeros and the refusal are the spec's own choices (decisions D14, D15, D30). -/
def Obligations.EncTwentyFourBSendsItsFields : Prop :=
  ∀ f : StaticB Str,
    IsRequest 0x13 [.int f.mmsi, .int f.shipType, .str f.callsign, .int f.dimA, .int f.dimB, .int f.dimC, .int f.dimD]
      (.enc24b f) ∧
    (f.fits = true →
      ∃ b, SendsMessage (.enc24b f) b ∧ b.length = 160 ∧ fieldValue b 0 6 = 24 ∧
        (fieldValue b 8 30 : Int) = f.mmsi ∧ fieldValue b 38 2 = 1 ∧ (fieldValue b 40 8 : Int) = f.shipType ∧
        Answers (.txtenc f.callsign 7) (.bits (subBits b 48 42)) ∧ (fieldValue b 90 9 : Int) = f.dimA ∧
        (fieldValue b 99 9 : Int) = f.dimB ∧ (fieldValue b 108 6 : Int) = f.dimC ∧
        (fieldValue b 114 6 : Int) = f.dimD ∧ ZeroFrom b 6 8 ∧ ZeroFrom b 120 160) ∧
    (f.fits = false → Refuses (.enc24b f) .valueOutOfRange)

/-- 28 payload bytes for types 1, 2, 3, 4, 18, 27 for both parts of type 24, 71 for type 5, and so 1, 1 and 2 sentences
(rule R159, the spec's inference from decision D14). -/
def Obligations.FragmentCounts : Prop :=
  (∀ t f l, Answers (.encposa t f) (.sentences l) → (carried l).length = 28 ∧ l.length = 1) ∧
    (∀ f l, Answers (.encbase f) (.sentences l) → (carried l).length = 28 ∧ l.length = 1) ∧
    (∀ f l, Answers (.encposb f) (.sentences l) → (carried l).length = 28 ∧ l.length = 1) ∧
    (∀ f l, Answers (.enc24a f) (.sentences l) → (carried l).length = 27 ∧ l.length = 1) ∧
    (∀ f l, Answers (.enc24b f) (.sentences l) → (carried l).length = 27 ∧ l.length = 1) ∧
    ∀ f l, Answers (.encstat f) (.sentences l) → (carried l).length = 71 ∧ l.length = 2

/-- MSGDEC of the payload a position encoder's sentences carry gives the operands back exactly, with the encoder's
variant (rule R160, types 1, 2, 3, 4, 18; the exactness is the spec's inference). -/
def Obligations.PositionsSurviveEncodeAndDecode : Prop :=
  (∀ t f l, Answers (.encposa t f) (.sentences l) →
      Answers (.msgdec (carried l)) (.record
        { type := t.toNat, mmsi := f.mmsi.toNat, navStatus := f.navStatus.toNat, rot := f.rot,
          sogRaw := f.sogRaw.toNat, posAccuracy := f.posAccuracy, lonRaw := f.lonRaw, latRaw := f.latRaw,
          cogRaw := f.cogRaw.toNat, heading := f.heading.toNat, timestamp := f.timestamp.toNat } .positionReportA)) ∧
    (∀ f l, Answers (.encbase f) (.sentences l) →
      Answers (.msgdec (carried l)) (.record
        { type := 4, mmsi := f.mmsi.toNat, lonRaw := f.lonRaw, latRaw := f.latRaw } .baseStationPartial)) ∧
    ∀ f l, Answers (.encposb f) (.sentences l) →
      Answers (.msgdec (carried l)) (.record
        { type := 18, mmsi := f.mmsi.toNat, sogRaw := f.sogRaw.toNat, lonRaw := f.lonRaw, latRaw := f.latRaw,
          cogRaw := f.cogRaw.toNat, heading := f.heading.toNat } .positionReportB)

/-- MSGDEC of the payload a static encoder's sentences carry gives the numeric operands back exactly and the texts as
rule R112 filters them, with the encoder's variant (rule R160, types 5 and 24, the spec's inference); for type 5 the
two payloads must be joined. -/
def Obligations.StaticDataSurvivesEncodeAndDecode : Prop :=
  (∀ f l, Answers (.encstat f) (.sentences l) →
      Answers (.msgdec (carried l)) (.record
        { type := 5, mmsi := f.mmsi.toNat, imo := f.imo.toNat,
          callsign := ((f.callsign.take 7).map upperOf).filter survives,
          shipName := ((f.shipName.take 20).map upperOf).filter survives, shipType := f.shipType.toNat,
          dimA := f.dimA.toNat, dimB := f.dimB.toNat, dimC := f.dimC.toNat, dimD := f.dimD.toNat }
        .staticVoyageData)) ∧
    (∀ f l, Answers (.enc24a f) (.sentences l) →
      Answers (.msgdec (carried l)) (.record
        { type := 24, mmsi := f.mmsi.toNat, partNumber := 0,
          shipName := ((f.shipName.take 20).map upperOf).filter survives } .staticDataReportA)) ∧
    ∀ f l, Answers (.enc24b f) (.sentences l) →
      Answers (.msgdec (carried l)) (.record
        { type := 24, mmsi := f.mmsi.toNat, partNumber := 1, shipType := f.shipType.toNat,
          callsign := ((f.callsign.take 7).map upperOf).filter survives, dimA := f.dimA.toNat,
          dimB := f.dimB.toNat, dimC := f.dimC.toNat, dimD := f.dimD.toNat } .staticDataReportB)

/-- DECLINE on either sentence of a type-5 pair does not give the record back: the first gives a header-only record, the
second the zero record (rules R82, R155, R213). -/
def Obligations.FragmentsDoNotDecodeAlone : Prop :=
  ∀ f x y, Answers (.encstat f) (.sentences [x, y]) →
    Answers (.decline x) (.record { type := 5, mmsi := f.mmsi.toNat } .headerOnly) ∧
      Answers (.decline y) (.record {} .unrecognized)

/-- Whatever QUANT is, within the constraint of rule R152 (the spec's own choice, decisions D16 and D17), DECLON and
DECLAT give a position back from its raw value within 1/600000 degree, unless its raw value is a sentinel, and an
unavailable one as NaN. -/
def Obligations.QuantisedPositionsComeBack : Prop :=
  ∀ tenth position, Config.IsQuant tenth position →
    (∀ x : Rat, ∃ y : Sys2Proof.Num, Answers (.declon (position .lon (.rat x))) (.num y) ∧
      (y = .nan ∧ (position .lon (.rat x) = 108600000 ∨ position .lon (.rat x) = 268435455) ∨
        ∃ q, y = .rat q ∧ |q - x| ≤ 1 / 600000)) ∧
    (∀ x : Rat, ∃ y : Sys2Proof.Num, Answers (.declat (position .lat (.rat x))) (.num y) ∧
      (y = .nan ∧ (position .lat (.rat x) = 54600000 ∨ position .lat (.rat x) = 268435455) ∨
        ∃ q, y = .rat q ∧ |q - x| ≤ 1 / 600000)) ∧
    Answers (.declon (position .lon .nan)) (.num .nan) ∧ Answers (.declat (position .lat .nan)) (.num .nan)

/-! ### SentenceFramer -/

/-- ISVALID is true exactly when the line starts with the given bytes and contains a comma (rule R170; byte for byte is
the spec's own choice, decision D25). -/
def Obligations.IsvalidTestsPrefixAndComma : Prop :=
  ∀ line pfx : Str, IsRequest 0x14 [.str line, .str pfx] (.isvalid line pfx) ∧
    ∃ v, Answers (.isvalid line pfx) (.bool v) ∧ (v = true ↔ pfx <+: line ∧ 44#8 ∈ line)

/-- PARSE answers the fields the commas cut the line into and whether there are at least seven (rule R171), empty
fields kept (rule R172, the spec's inference). -/
def Obligations.ParseCutsAtCommas : Prop :=
  ∀ line : Str, IsRequest 0x15 [.str line] (.parse line) ∧
    ∃ l ok, Answers (.parse line) (.fields l ok) ∧ IsFields l ∧ lineOf l = line ∧
      l.length = line.count 44#8 + 1 ∧ (ok = true ↔ 7 ≤ l.length)

/-- CHKSUM is the exclusive-or of the bytes between the leading `!` and the first `*`, and refuses a sentence without
them (rule R173; which delimiters, and the refusal, are the spec's own choice, decision D24). -/
def Obligations.ChksumXorsBetweenDelimiters : Prop :=
  (∀ t, IsRequest 0x16 [.str t] (.chksum t)) ∧
    (∀ body rest : Str, 42#8 ∉ body →
      Answers (.chksum (33#8 :: body ++ 42#8 :: rest)) (.nat (xorOf body)) ∧ xorOf body ≤ 255) ∧
    ∀ t : Str, (t.head? ≠ some 33#8 ∨ 42#8 ∉ t) → Refuses (.chksum t) .noDelimiter

/-- FRAME answers the sentences of the greedy chunks of at most 62 bytes, and refuses a tag other than the two (rule
R174; the tag operand, the greed and the refusal are the spec's own choice, decision D22). -/
def Obligations.FrameWrapsGreedyChunks : Prop :=
  ∀ payload tag : Str, IsRequest 0x17 [.str payload, .str tag] (.frame payload tag) ∧
    (tag = ascii "!AIVDM" ∨ tag = ascii "!AIVDO" →
      ∃ l, Answers (.frame payload tag) (.sentences l) ∧ l.length = (payload.length + 61) / 62 ∧
        ∀ k, k < l.length → l[k]? = some (sentenceOf tag l.length (k + 1) ((payload.drop (62 * k)).take 62))) ∧
    (tag ≠ ascii "!AIVDM" → tag ≠ ascii "!AIVDO" → Refuses (.frame payload tag) .badTag)

/-- A sentence FRAME makes of a payload free of `*` carries the checksum CHKSUM gives it and CHKVFY accepts; the
sentences of a payload free of commas carry it whole, start with their tag and have exactly seven fields (rule R175;
its second and third law are the spec's inference, and rule R174 says that a comma in the payload breaks them). -/
def Obligations.FrameLaws : Prop :=
  ∀ (payload tag : Str) (l : List Str), Answers (.frame payload tag) (.sentences l) →
    (42#8 ∉ payload → ∀ t ∈ l, ∃ n, Answers (.chksum t) (.nat n) ∧ t.drop (t.length - 2) = hexOf n ∧
      Answers (.chkvfy t) (.bool true)) ∧
    (44#8 ∉ payload → carried l = payload ∧
      ∀ t ∈ l, Answers (.isvalid t tag) (.bool true) ∧
        ∃ fs, Answers (.parse t) (.fields fs true) ∧ fs.length = 7)

/-- CHKVFY is true exactly of a sentence with a leading `!` whose first `*` is followed by the upper-case checksum of
the bytes between them; it never refuses (rule R176, the spec's own addition, decision D23). -/
def Obligations.ChkvfyAcceptsTheChecksum : Prop :=
  ∀ t : Str, IsRequest 0x18 [.str t] (.chkvfy t) ∧
    ∃ v, Answers (.chkvfy t) (.bool v) ∧
      (v = true ↔ ∃ body rest, 42#8 ∉ body ∧ t = 33#8 :: body ++ 42#8 :: hexOf (xorOf body) ++ rest)
end

