-- ==== Sys2Proof/Laws/State.lean ====
section
/-! SUPPORT. The small lemmas of State and of the operation that ends a request. -/

namespace Sys2Proof.Machine

@[simp] theorem deliver_requests (s : State) (r : Response) : (s.deliver r).requests = s.requests := rfl

@[simp] theorem deliver_responses (s : State) (r : Response) : (s.deliver r).responses = s.responses ++ [r] := rfl

@[simp] theorem reset_requests : State.reset.requests = [] := rfl

@[simp] theorem reset_responses : State.reset.responses = [] := rfl

@[simp] theorem withFetchWord_requests (s : State) (nbits w : Nat) :
    (s.withFetchWord nbits w).requests = presentedBy (tableWords nbits w) :: s.requests := rfl

@[simp] theorem withFetchWord_responses (s : State) (nbits w : Nat) :
    (s.withFetchWord nbits w).responses = s.responses := rfl

@[simp] theorem respond_ok (r : Response) (s : State) : respond (.ok r) s = .next (s.deliver r) := rfl

@[simp] theorem respond_error (e : Refusal) (s : State) : respond (.error e) s = .refused e := rfl

/-- All that ending a request can do. -/
theorem respond_cases (x : Except Refusal Response) :
    (∃ r, x = .ok r ∧ ∀ s, respond x s = .next (s.deliver r)) ∨
      (∃ e, x = .error e ∧ ∀ s, respond x s = .refused e) := by
  cases x with
  | ok r => exact .inl ⟨r, rfl, fun _ => rfl⟩
  | error e => exact .inr ⟨e, rfl, fun _ => rfl⟩

/-- A request that ends with a next state has delivered the response it computed. -/
theorem respond_next {x : Except Refusal Response} {s s' : State} (h : respond x s = .next s') :
    ∃ r, x = .ok r ∧ s' = s.deliver r := by
  cases x with
  | ok r => exact ⟨r, rfl, by simpa using h.symm⟩
  | error e => simp at h

end Sys2Proof.Machine
end

