-- ==== Sys2Proof/Laws/Operands.lean ====
section
/-! SUPPORT. Bit strings: reading, writing, and the round trips between a field and its number (rules R13, R44, R46,
R107). -/

namespace Sys2Proof.Machine

/-! ### Slices -/

theorem slice_length {α : Type} (xs : List α) {s l : Nat} (h : s + l ≤ xs.length) : (slice xs s l).length = l := by
  simp [slice]; omega

theorem slice_getElem? {α : Type} (xs : List α) (s l i : Nat) :
    (slice xs s l)[i]? = if i < l then xs[s + i]? else none := by
  simp [slice, List.getElem?_take]

/-! ### uint and bitsOf -/

theorem uint_foldl (b : Bits) (x : Nat) :
    b.foldl (fun x bit => 2 * x + bit.toNat) x = x * 2 ^ b.length + uint b := by
  induction b generalizing x with
  | nil => simp [uint]
  | cons a b ih =>
    have h0 := ih a.toNat
    simp only [uint, List.foldl_cons, List.length_cons] at *
    rw [ih, Nat.mul_zero, Nat.zero_add, h0]
    ring

@[simp] theorem uint_nil : uint [] = 0 := rfl

theorem uint_cons (a : Bool) (b : Bits) : uint (a :: b) = a.toNat * 2 ^ b.length + uint b := by
  have := uint_foldl b a.toNat
  simpa [uint] using this

theorem uint_append (a b : Bits) : uint (a ++ b) = uint a * 2 ^ b.length + uint b := by
  rw [uint, List.foldl_append, uint_foldl]; rfl

theorem uint_lt (b : Bits) : uint b < 2 ^ b.length := by
  induction b with
  | nil => simp
  | cons a b ih =>
    rw [uint_cons, List.length_cons, Nat.pow_succ]
    cases a <;> simp <;> omega

@[simp] theorem bitsOf_length (l v : Nat) : (bitsOf l v).length = l := by
  induction l with
  | zero => rfl
  | succ l ih => simp [bitsOf, ih]

theorem uint_bitsOf (l v : Nat) : uint (bitsOf l v) = v % 2 ^ l := by
  induction l with
  | zero => simp [bitsOf, Nat.mod_one]
  | succ l ih =>
    have h := Nat.mod_mul (a := 2 ^ l) (b := 2) (x := v)
    rw [bitsOf, uint_cons, ih, bitsOf_length, pow_succ, h, Nat.toNat_testBit]
    ring

theorem bitsOf_getElem? (l v i : Nat) :
    (bitsOf l v)[i]? = if i < l then some (v.testBit (l - 1 - i)) else none := by
  induction l generalizing i with
  | zero => simp [bitsOf]
  | succ l ih =>
    cases i with
    | zero => simp [bitsOf]
    | succ i => simp [bitsOf, ih, Nat.sub_sub, Nat.add_comm 1 i]

theorem uint_inj {a b : Bits} (hl : a.length = b.length) (h : uint a = uint b) : a = b := by
  induction a generalizing b with
  | nil => cases b <;> simp_all
  | cons x a ih =>
    cases b with
    | nil => simp at hl
    | cons y b =>
      simp only [List.length_cons, Nat.add_right_cancel_iff] at hl
      rw [uint_cons, uint_cons, hl] at h
      have ha := uint_lt a
      have hb := uint_lt b
      rw [hl] at ha
      have hxy : x = y := by cases x <;> cases y <;> simp at h ⊢ <;> omega
      subst hxy
      rw [ih hl (by omega)]

theorem bitsOf_uint (b : Bits) : bitsOf b.length (uint b) = b :=
  uint_inj (by simp) (by rw [uint_bitsOf, Nat.mod_eq_of_lt (uint_lt b)])

/-- `uint` by the formula of rule R13. -/
theorem uint_sum (b : Bits) :
    uint b = ∑ i ∈ Finset.range b.length, (b.getD i false).toNat * 2 ^ (b.length - 1 - i) := by
  induction b with
  | nil => simp
  | cons a b ih =>
    rw [uint_cons, List.length_cons, Finset.sum_range_succ', ih]
    simp only [List.getD_cons_succ, List.getD_cons_zero]
    rw [Nat.add_comm]
    congr 1
    refine Finset.sum_congr rfl fun i _ => ?_
    congr 2
    omega

/-! ### Fields -/

theorem uintAt_lt (b : Bits) (s l : Nat) : uintAt b s l < 2 ^ l := by
  refine lt_of_lt_of_le (uint_lt _) (Nat.pow_le_pow_right (by omega) ?_)
  simp [slice]

/-- A field's number by the formula of rule R44. -/
theorem uintAt_sum {b : Bits} {s l : Nat} (h : s + l ≤ b.length) :
    uintAt b s l = ∑ i ∈ Finset.range l, (b.getD (s + i) false).toNat * 2 ^ (l - 1 - i) := by
  rw [uintAt, uint_sum, slice_length b h]
  refine Finset.sum_congr rfl fun i hi => ?_
  rw [List.getD_eq_getElem?_getD, slice_getElem?, if_pos (Finset.mem_range.mp hi), List.getD_eq_getElem?_getD]

theorem bitsOf_uintAt {b : Bits} {s l : Nat} (h : s + l ≤ b.length) : bitsOf l (uintAt b s l) = slice b s l := by
  have := bitsOf_uint (slice b s l)
  rwa [slice_length b h] at this

/-- Reading a field in two parts (rule R46). -/
theorem uintAt_split (b : Bits) (s k l : Nat) (h : s + (k + l) ≤ b.length) :
    uintAt b s (k + l) = uintAt b s k * 2 ^ l + uintAt b (s + k) l := by
  have : slice b s (k + l) = slice b s k ++ slice b (s + k) l := by
    simp [slice, List.take_add, List.drop_drop]
  rw [uintAt, this, uint_append, slice_length b (by omega)]
  rfl

theorem uintAt_succ {b : Bits} {s l : Nat} (h : s + (l + 1) ≤ b.length) :
    uintAt b s (l + 1) = (b.getD s false).toNat * 2 ^ l + uintAt b (s + 1) l := by
  rw [Nat.add_comm l 1, uintAt_split b s 1 l (by omega)]
  congr 2
  rw [uintAt_sum (by omega)]
  simp

/-- The range of a signed field (rule R101). -/
theorem sintAt_range {b : Bits} {s l : Nat} (hl : 1 ≤ l) (h : s + l ≤ b.length) :
    -(2 ^ (l - 1)) ≤ sintAt b s l ∧ sintAt b s l < 2 ^ (l - 1) := by
  obtain ⟨k, rfl⟩ : ∃ k, l = k + 1 := ⟨l - 1, by omega⟩
  have hlt := uintAt_lt b (s + 1) k
  have hs : s < b.length := by omega
  rw [sintAt, uintAt_succ h, List.getElem?_eq_getElem hs, List.getD_eq_getElem?_getD, List.getElem?_eq_getElem hs]
  zify at hlt
  cases hb : b[s] <;> simp [pow_succ] <;> constructor <;> linarith [(by positivity : (0 : Int) < 2 ^ k)]

/-- A signed field read unsigned (rule R107). -/
theorem sintAt_emod {b : Bits} {s l : Nat} : (sintAt b s l) % 2 ^ l = uintAt b s l := by
  have hlt := uintAt_lt b s l
  zify at hlt
  have : (uintAt b s l : Int) % 2 ^ l = uintAt b s l := Int.emod_eq_of_lt (by positivity) hlt
  rw [sintAt]
  split <;> simp [this]

/-! ### Writing -/

theorem splice_length {b w : Bits} {s : Nat} (h : s + w.length ≤ b.length) : (splice b s w).length = b.length := by
  simp [splice]; omega

/-- What a write leaves and what it sets, bit by bit. -/
theorem splice_getElem? {b w : Bits} {s : Nat} (h : s + w.length ≤ b.length) (i : Nat) :
    (splice b s w)[i]? = if s ≤ i ∧ i < s + w.length then w[i - s]? else b[i]? := by
  rw [splice, List.append_assoc, List.getElem?_append]
  simp only [List.length_take, Nat.min_eq_left (by omega : s ≤ b.length)]
  by_cases h1 : i < s
  · rw [if_pos h1, if_neg (by omega), List.getElem?_take_of_lt h1]
  · rw [if_neg h1, List.getElem?_append]
    by_cases h2 : i < s + w.length
    · rw [if_pos (by omega), if_pos (by omega)]
    · rw [if_neg (by omega), if_neg (by omega), List.getElem?_drop]
      congr 1; omega

theorem slice_splice_same {b w : Bits} {s : Nat} (h : s + w.length ≤ b.length) :
    slice (splice b s w) s w.length = w := by
  refine List.ext_getElem? fun i => ?_
  rw [slice_getElem?, splice_getElem? h]
  split
  · rw [if_pos (by omega)]; congr 1; omega
  · rw [List.getElem?_eq_none (by omega)]

/-- A write leaves every disjoint field as it was. -/
theorem slice_splice_disjoint {b w : Bits} {s t l : Nat} (h : s + w.length ≤ b.length)
    (hd : t + l ≤ s ∨ s + w.length ≤ t) : slice (splice b s w) t l = slice b t l := by
  refine List.ext_getElem? fun i => ?_
  rw [slice_getElem?, slice_getElem?, splice_getElem? h]
  split
  · rw [if_neg (by omega)]
  · rfl

theorem splice_slice {b : Bits} {s l : Nat} (h : s + l ≤ b.length) : splice b s (slice b s l) = b := by
  refine List.ext_getElem? fun i => ?_
  have hl := slice_length b h
  rw [splice_getElem? (by omega), slice_getElem?, hl]
  split
  · rw [if_pos (by omega)]; congr 1; omega
  · rfl

/-- Writes to disjoint fields commute (rule R107). -/
theorem splice_comm {b v w : Bits} {s t : Nat} (hv : s + v.length ≤ b.length) (hw : t + w.length ≤ b.length)
    (hd : s + v.length ≤ t ∨ t + w.length ≤ s) :
    splice (splice b s v) t w = splice (splice b t w) s v := by
  refine List.ext_getElem? fun i => ?_
  rw [splice_getElem? (by rw [splice_length hv]; exact hw), splice_getElem? hv,
    splice_getElem? (by rw [splice_length hw]; exact hv), splice_getElem? hw]
  grind

theorem twosOf_range {l : Nat} {v : Int} (hl : 1 ≤ l) (h1 : -(2 ^ (l - 1)) ≤ v) (h2 : v < 2 ^ (l - 1)) :
    0 ≤ twosOf l v ∧ twosOf l v < 2 ^ l := by
  obtain ⟨k, rfl⟩ : ∃ k, l = k + 1 := ⟨l - 1, by omega⟩
  have hp : (0 : Int) < 2 ^ k := by positivity
  simp only [Nat.add_sub_cancel, twosOf, pow_succ] at *
  split <;> constructor <;> linarith

/-- Reading back a written unsigned field (rule R102). -/
theorem uintAt_splice_same {b : Bits} {s l v : Nat} (h : s + l ≤ b.length) (hv : v < 2 ^ l) :
    uintAt (splice b s (bitsOf l v)) s l = v := by
  have := slice_splice_same (b := b) (w := bitsOf l v) (s := s) (by simpa using h)
  rw [bitsOf_length] at this
  rw [uintAt, this, uint_bitsOf, Nat.mod_eq_of_lt hv]

theorem uintAt_splice_disjoint {b w : Bits} {s t l : Nat} (h : s + w.length ≤ b.length)
    (hd : t + l ≤ s ∨ s + w.length ≤ t) : uintAt (splice b s w) t l = uintAt b t l := by
  rw [uintAt, slice_splice_disjoint h hd]; rfl

/-- The sign bit of a written two's-complement pattern. -/
theorem bitsOf_twosOf_sign {l : Nat} {v : Int} (hl : 1 ≤ l) (h1 : -(2 ^ (l - 1)) ≤ v) (h2 : v < 2 ^ (l - 1)) :
    (bitsOf l (twosOf l v).toNat)[0]? = some (decide (v < 0)) := by
  obtain ⟨k, rfl⟩ : ∃ k, l = k + 1 := ⟨l - 1, by omega⟩
  obtain ⟨r1, r2⟩ := twosOf_range hl h1 h2
  rw [bitsOf_getElem?, if_pos (by omega)]
  simp only [Nat.add_sub_cancel, Nat.sub_zero] at *
  rw [Nat.testBit_eq_decide_div_mod_eq, Option.some.injEq, decide_eq_decide]
  simp only [twosOf, pow_succ] at *
  have hpos : 0 < 2 ^ k := Nat.two_pow_pos k
  split at r1 <;> rename_i hneg
  · have : (v + 2 ^ k * 2).toNat / 2 ^ k = 1 :=
      Nat.div_eq_of_lt_le (by zify; rw [Int.toNat_of_nonneg r1]; linarith)
        (by zify; rw [Int.toNat_of_nonneg r1]; linarith)
    simp [hneg, this]
  · have : v.toNat / 2 ^ k = 0 := Nat.div_eq_of_lt (by zify; rw [Int.toNat_of_nonneg r1]; exact h2)
    simp [hneg, this]

/-- Reading back a written signed field (rule R103). -/
theorem sintAt_splice_same {b : Bits} {s l : Nat} {v : Int} (h : s + l ≤ b.length) (hl : 1 ≤ l)
    (h1 : -(2 ^ (l - 1)) ≤ v) (h2 : v < 2 ^ (l - 1)) :
    sintAt (splice b s (bitsOf l (twosOf l v).toNat)) s l = v := by
  obtain ⟨r1, r2⟩ := twosOf_range hl h1 h2
  have hu : uintAt (splice b s (bitsOf l (twosOf l v).toNat)) s l = (twosOf l v).toNat :=
    uintAt_splice_same h (by zify; rw [Int.toNat_of_nonneg r1]; exact r2)
  have hsign : (splice b s (bitsOf l (twosOf l v).toNat))[s]? = some (decide (v < 0)) := by
    rw [splice_getElem? (by simpa using h), if_pos (by simp; omega), Nat.sub_self, bitsOf_twosOf_sign hl h1 h2]
  rw [sintAt, hu, hsign, Int.toNat_of_nonneg r1, twosOf]
  by_cases hneg : v < 0 <;> simp [hneg]

theorem sintAt_splice_disjoint {b w : Bits} {s t l : Nat} (h : s + w.length ≤ b.length) (hl : 1 ≤ l)
    (hd : t + l ≤ s ∨ s + w.length ≤ t) : sintAt (splice b s w) t l = sintAt b t l := by
  have hbit : (splice b s w)[t]? = b[t]? := by rw [splice_getElem? h, if_neg (by omega)]
  rw [sintAt, sintAt, uintAt_splice_disjoint h hd, hbit]

theorem twosOf_sintAt {b : Bits} {s l : Nat} (hl : 1 ≤ l) (h : s + l ≤ b.length) :
    (twosOf l (sintAt b s l)).toNat = uintAt b s l := by
  obtain ⟨k, rfl⟩ : ∃ k, l = k + 1 := ⟨l - 1, by omega⟩
  have hlt := uintAt_lt b s (k + 1)
  zify at hlt
  rw [sintAt, twosOf]
  split
  · rw [if_pos (by linarith)]; simp
  · rw [if_neg (by omega)]; simp

end Sys2Proof.Machine
end

