-- ==== Sys2Proof/Laws/Alphabets.lean ====
section
/-! SUPPORT. Six-bit groups, armoring and the text alphabet (rules R64 to R67, R90 to R93, R110 to R113). -/

namespace Sys2Proof.Machine

/-! ### Six-bit groups -/

theorem sixes_cons6 (a b c d e f : Bool) (r : Bits) :
    sixes (a :: b :: c :: d :: e :: f :: r) = uint [a, b, c, d, e, f] :: sixes r := rfl

theorem sixes_short {b : Bits} (h : b.length < 6) : sixes b = [] := by
  match b, h with
  | [], _ => rfl
  | [_], _ => rfl
  | [_, _], _ => rfl
  | [_, _, _], _ => rfl
  | [_, _, _, _], _ => rfl
  | [_, _, _, _, _], _ => rfl

/-- A bit string of at least six bits is six bits and a rest. -/
theorem six_split {b : Bits} (h : 6 ≤ b.length) : ∃ g r, b = g ++ r ∧ g.length = 6 :=
  ⟨b.take 6, b.drop 6, by simp, by simp; omega⟩

theorem sixes_append6 {g : Bits} (hg : g.length = 6) (r : Bits) : sixes (g ++ r) = uint g :: sixes r := by
  match g, hg with
  | [_, _, _, _, _, _], _ => rfl

/-- Induction on a bit string six bits at a time. -/
theorem six_induction {P : Bits → Prop} (short : ∀ b, b.length < 6 → P b)
    (step : ∀ g r, g.length = 6 → P r → P (g ++ r)) (b : Bits) : P b := by
  induction hn : b.length using Nat.strong_induction_on generalizing b with
  | _ n ih =>
    by_cases h : b.length < 6
    · exact short b h
    · obtain ⟨g, r, rfl, hg⟩ := six_split (by omega : 6 ≤ b.length)
      simp only [List.length_append] at hn
      exact step g r hg (ih r.length (by omega) r rfl)

theorem sixes_length (b : Bits) : (sixes b).length = b.length / 6 := by
  induction b using six_induction with
  | short b h => rw [sixes_short h]; simp; omega
  | step g r hg ih => rw [sixes_append6 hg]; simp [ih, hg]

/-- The groups are the fields `[6k,6)` (rule R45). -/
theorem sixes_getElem? (b : Bits) (k : Nat) :
    (sixes b)[k]? = if k < b.length / 6 then some (uintAt b (6 * k) 6) else none := by
  induction b using six_induction generalizing k with
  | short b h => rw [sixes_short h, if_neg (by omega)]; rfl
  | step g r hg ih =>
    rw [sixes_append6 hg]
    cases k with
    | zero =>
      rw [if_pos (by simp; omega)]
      simp [uintAt, slice, ← hg]
    | succ k =>
      have h1 : (g ++ r).length / 6 = r.length / 6 + 1 := by simp [hg]
      rw [List.getElem?_cons_succ, ih, h1]
      have h2 : slice (g ++ r) (6 * (k + 1)) 6 = slice r (6 * k) 6 := by
        simp [slice, List.drop_append, hg, Nat.mul_add]
        rw [List.drop_eq_nil_of_le (by omega), List.nil_append]
      simp [uintAt, h2]

theorem sixes_lt (b : Bits) : ∀ v ∈ sixes b, v < 64 := by
  induction b using six_induction with
  | short b h => simp [sixes_short h]
  | step g r hg ih =>
    rw [sixes_append6 hg]
    have hlt := uint_lt g
    rw [hg] at hlt
    simpa using ⟨hlt, ih⟩

theorem sixes_append {a : Bits} (h : 6 ∣ a.length) (b : Bits) : sixes (a ++ b) = sixes a ++ sixes b := by
  induction a using six_induction with
  | short a ha =>
    have : a = [] := List.eq_nil_of_length_eq_zero (by omega)
    simp [this, sixes_short]
  | step g r hg ih =>
    rw [List.append_assoc, sixes_append6 hg, sixes_append6 hg, ih (by simp [hg] at h; omega), List.cons_append]

/-- Spelling numbers as groups and reading the groups. -/
theorem sixes_flatMap (l : List Nat) : sixes (l.flatMap (bitsOf 6)) = l.map (· % 64) := by
  induction l with
  | nil => rfl
  | cons v l ih =>
    rw [List.flatMap_cons, sixes_append6 (bitsOf_length 6 v), ih, uint_bitsOf]; rfl

theorem flatMap_sixes {b : Bits} (h : 6 ∣ b.length) : (sixes b).flatMap (bitsOf 6) = b := by
  induction b using six_induction with
  | short b hb =>
    have : b = [] := List.eq_nil_of_length_eq_zero (by omega)
    simp [this, sixes_short]
  | step g r hg ih =>
    rw [sixes_append6 hg, List.flatMap_cons, ih (by simp [hg] at h; omega)]
    have := bitsOf_uint g
    rw [hg] at this
    rw [this]

theorem flatMap_bitsOf_length {α : Type} (l : List α) (f : α → Nat) :
    (l.flatMap fun c => bitsOf 6 (f c)).length = 6 * l.length := by
  induction l with
  | nil => rfl
  | cons c l ih => simp [ih]; omega

theorem padSix_length (b : Bits) : (padSix b).length = 6 * ((b.length + 5) / 6) := by
  simp [padSix, zeros]; omega

theorem padSix_of_dvd {b : Bits} (h : 6 ∣ b.length) : padSix b = b := by
  have : 6 * ((b.length + 5) / 6) - b.length = 0 := by omega
  simp [padSix, zeros, this]

/-! ### Armor -/

theorem armorByte_toNat {v : Nat} (h : v < 64) : (armorByte v).toNat = if v < 40 then v + 48 else v + 56 := by
  unfold armorByte
  split <;> simp [BitVec.toNat_ofNat] <;> omega

/-- De-armoring undoes armoring, whatever ARMOR_OOR is (rules R64, R65). -/
theorem deArmor_armorByte (p : Config.Params) {v : Nat} (h : v < 64) : deArmor p (armorByte v) = v := by
  have ha : armorValue (armorByte v) = v := by
    unfold armorValue
    rw [armorByte_toNat h]
    split <;> push_cast <;> split <;> omega
  rw [deArmor, ha, if_pos (by omega)]; simp

/-- A byte of the armor alphabet (rule R64). -/
def inArmor (c : Byte) : Prop := (48 ≤ c.toNat ∧ c.toNat ≤ 87) ∨ (96 ≤ c.toNat ∧ c.toNat ≤ 119)

theorem armorByte_inArmor {v : Nat} (h : v < 64) : inArmor (armorByte v) := by
  rw [inArmor, armorByte_toNat h]; split <;> omega

/-- The complete map of rule R65 over all 256 codes. -/
theorem deArmor_default (c : Byte) :
    deArmor Config.params c =
      if c.toNat < 48 then c.toNat + 16
      else if c.toNat < 89 then c.toNat - 48
      else if c.toNat < 120 then c.toNat - 56
      else if c.toNat < 184 then c.toNat - 120
      else if c.toNat < 248 then c.toNat - 184
      else c.toNat - 248 := by
  have hc := c.isLt
  unfold deArmor armorValue
  simp only [Config.params, Config.armorOorDefault]
  split_ifs <;> omega

theorem deArmor_lt (c : Byte) : deArmor Config.params c < 64 := by
  have hc := c.isLt
  rw [deArmor_default]; split_ifs <;> omega

/-- Armoring undoes de-armoring exactly on the armor alphabet (rule R93). -/
theorem armorByte_deArmor (c : Byte) : armorByte (deArmor Config.params c) = c ↔ inArmor c := by
  constructor
  · intro h; rw [← h]; exact armorByte_inArmor (deArmor_lt c)
  · intro h
    refine BitVec.eq_of_toNat_eq ?_
    rw [armorByte_toNat (deArmor_lt c), deArmor_default]
    rcases h with h | h <;> split_ifs <;> omega

theorem toBits_length (p : Config.Params) (t : Str) : (toBits p t).length = 6 * t.length :=
  flatMap_bitsOf_length t (deArmor p)

theorem toBits_append (p : Config.Params) (a b : Str) : toBits p (a ++ b) = toBits p a ++ toBits p b := by
  simp [toBits]

/-- A part of a payload is the part of its bits. -/
theorem toBits_slice (p : Config.Params) (t : Str) (s l : Nat) :
    toBits p (slice t s l) = slice (toBits p t) (6 * s) (6 * l) := by
  have hd : ∀ (u : Str) (k : Nat), (toBits p u).drop (6 * k) = toBits p (u.drop k) := by
    intro u k
    by_cases h : k ≤ u.length
    · conv_lhs => rw [← List.take_append_drop k u, toBits_append]
      rw [List.drop_left' (by rw [toBits_length, List.length_take, Nat.min_eq_left h])]
    · rw [List.drop_eq_nil_of_le (by rw [toBits_length]; omega), List.drop_eq_nil_of_le (by omega)]; rfl
  have ht : ∀ (u : Str) (k : Nat), (toBits p u).take (6 * k) = toBits p (u.take k) := by
    intro u k
    by_cases h : k ≤ u.length
    · conv_lhs => rw [← List.take_append_drop k u, toBits_append]
      rw [List.take_left' (by rw [toBits_length, List.length_take, Nat.min_eq_left h])]
    · rw [List.take_of_length_le (by rw [toBits_length]; omega), List.take_of_length_le (by omega)]
  rw [slice, slice, hd, ht]

theorem toBits_eq (p : Config.Params) (t : Str) : toBits p t = (t.map (deArmor p)).flatMap (bitsOf 6) := by
  simp [toBits, List.flatMap_map]

theorem toArmor_length (b : Bits) : (toArmor b).length = (b.length + 5) / 6 := by
  rw [toArmor, List.length_map, sixes_length, padSix_length]; omega

theorem toArmor_inArmor (b : Bits) : ∀ c ∈ toArmor b, inArmor c := by
  intro c hc
  obtain ⟨v, hv, rfl⟩ := List.mem_map.mp hc
  exact armorByte_inArmor (sixes_lt _ v hv)

/-- Bits first: TOBITS of TOARMOR is the bit string padded to a multiple of 6 (rule R92). -/
theorem toBits_toArmor (p : Config.Params) (b : Bits) : toBits p (toArmor b) = padSix b := by
  have h : (sixes (padSix b)).map (deArmor p ∘ armorByte) = sixes (padSix b) := by
    conv_rhs => rw [← List.map_id (sixes (padSix b))]
    exact List.map_congr_left fun v hv => deArmor_armorByte p (sixes_lt _ v hv)
  rw [toBits_eq, toArmor, List.map_map, h, flatMap_sixes]
  rw [padSix_length]; exact ⟨_, rfl⟩

/-- Bytes first: TOARMOR of TOBITS re-armors every byte by itself. -/
theorem toArmor_toBits (t : Str) :
    toArmor (toBits Config.params t) = t.map fun c => armorByte (deArmor Config.params c) := by
  have h : (t.map (deArmor Config.params)).map (· % 64) = t.map (deArmor Config.params) := by
    rw [List.map_map]
    exact List.map_congr_left fun c _ => Nat.mod_eq_of_lt (deArmor_lt c)
  rw [toArmor, padSix_of_dvd (by rw [toBits_length]; exact ⟨_, rfl⟩), toBits_eq, sixes_flatMap, h, List.map_map]
  rfl

/-! ### Text -/

theorem textByte_toNat {v : Nat} (h : v < 64) : (textByte v).toNat = if v < 32 then v + 64 else v := by
  unfold textByte
  split <;> simp [BitVec.toNat_ofNat] <;> omega

/-- Trimming: the text is what is left when the spaces at its end are taken off (rule R110). -/
theorem trim_spec (s : Str) :
    ∃ k, s = (s.reverse.dropWhile (· == spaceByte)).reverse ++ List.replicate k spaceByte := by
  refine ⟨(s.reverse.takeWhile (· == spaceByte)).length, ?_⟩
  have h1 : s.reverse.takeWhile (· == spaceByte)
      = List.replicate (s.reverse.takeWhile (· == spaceByte)).length spaceByte := by
    refine List.eq_replicate_of_mem fun c hc => ?_
    have := List.mem_takeWhile_imp hc
    simpa using this
  have h2 := List.takeWhile_append_dropWhile (p := (· == spaceByte)) (l := s.reverse)
  have h3 := congrArg List.reverse h2
  rw [List.reverse_append, List.reverse_reverse] at h3
  conv_lhs => rw [← h3]
  congr 1
  conv_lhs => rw [h1]
  simp

theorem trim_last (s : Str) : ((s.reverse.dropWhile (· == spaceByte)).reverse).getLast? ≠ some spaceByte := by
  rw [List.getLast?_reverse]
  intro h
  have := List.head?_dropWhile_not (p := (· == spaceByte)) (l := s.reverse)
  rw [h] at this
  simp at this

/-- A text with no space at its end is left as it is by the trim. -/
theorem trim_id {s : Str} (h : s.getLast? ≠ some spaceByte) : (s.reverse.dropWhile (· == spaceByte)).reverse = s := by
  rw [← List.head?_reverse] at h
  cases hr : s.reverse with
  | nil => have : s = [] := by simpa using hr
           simp [this]
  | cons c r =>
    rw [hr] at h
    have hc : (c == spaceByte) = false := by simpa using h
    rw [List.dropWhile_cons_of_neg (by simp [hc]), ← hr, List.reverse_reverse]

end Sys2Proof.Machine
end

