-- ==== Sys2Proof/Laws/Exec.lean ====
section
/-! SUPPORT. What executing an instruction and taking a step can do, said once: every meaning ends its request with a
result that its operands alone determine. -/

namespace Sys2Proof.Machine

/-- The result of an instruction: its response, or the reason it is refused. -/
def resultOf : Instr → Except Refusal Response
  | .tobits payload => .ok (.bits (toBits Config.params payload))
  | .toarmor b => .ok (.str (toArmor b))
  | .extu b start length => (extu b start length).map .nat
  | .exts b start length => (exts b start length).map .int
  | .insu b start length value => (insu b start length value).map .bits
  | .inss b start length value => (inss b start length value).map .bits
  | .txtdec b => .ok (.str (txtdec b))
  | .txtenc text maxChars => .ok (.bits (txtenc Config.params text maxChars))
  | .declon raw => .ok (.num (declon Config.params raw))
  | .declat raw => .ok (.num (declat Config.params raw))
  | .msgdec payload => .ok (msgdecResponse Config.params payload)
  | .decline line => .ok (declineResponse Config.params line)
  | .decopt line option tag => .ok (.num (decopt Config.params line option tag))
  | .encposa type f => (encPosA Config.params type f).map .sentences
  | .encbase f => (encBase Config.params f).map .sentences
  | .encstat f => (encStat Config.params f).map .sentences
  | .encposb f => (encPosB Config.params f).map .sentences
  | .enc24a f => (encNameA Config.params f).map .sentences
  | .enc24b f => (encStaticB Config.params f).map .sentences
  | .isvalid line pfx => .ok (.bool (isValid line pfx))
  | .parse line => .ok (.fields (parse line).1 (parse line).2)
  | .chksum sentence => (chksum sentence).map .nat
  | .frame payload tag => (frame payload tag).map .sentences
  | .chkvfy sentence => .ok (.bool (chkvfy sentence))
  | .msg1 f => .ok (.record (recPosA 1 f) .positionReportA)
  | .msg2 f => .ok (.record (recPosA 2 f) .positionReportA)
  | .msg3 f => .ok (.record (recPosA 3 f) .positionReportA)
  | .msg4 f => .ok (.record (recBase f) .baseStationPartial)
  | .msg5 f => .ok (.record (recVoyage f) .staticVoyageData)
  | .msg18 f => .ok (.record (recPosB f) .positionReportB)
  | .msg24a f => .ok (.record (recNameA f) .staticDataReportA)
  | .msg24b f => .ok (.record (recStaticB f) .staticDataReportB)
  | .msg24x mmsi partNumber => .ok (.record (recPartX mmsi partNumber) .headerOnly)
  | .msgother type mmsi => .ok (.record (recHeader type mmsi) .unrecognized)
  | .msgshort type mmsi => .ok (.record (recHeader type mmsi) .headerOnly)
  | .msgempty => .ok (.record Rec.zero .unrecognized)

theorem exec_eq_respond (i : Instr) (s : State) : exec i s = respond (resultOf i) s := by cases i <;> rfl

/-- An instruction answers with a response in every state exactly when that is its result. -/
theorem exec_answers_iff (i : Instr) (r : Response) :
    (∀ s : State, exec i s = .next { requests := s.requests, responses := s.responses ++ [r] }) ↔
      resultOf i = .ok r := by
  constructor
  · intro h
    have h0 := h State.reset
    rw [exec_eq_respond] at h0
    obtain ⟨r', hr, hs⟩ := respond_next h0
    have : r' = r := by simpa [State.deliver] using (congrArg State.responses hs).symm
    rw [hr, this]
  · intro h s
    rw [exec_eq_respond, h]; rfl

/-- An instruction is refused in every state exactly when that is its result. -/
theorem exec_refuses_iff (i : Instr) (e : Refusal) :
    (∀ s : State, exec i s = .refused e) ↔ resultOf i = .error e := by
  constructor
  · intro h
    have h0 := h State.reset
    rw [exec_eq_respond] at h0
    cases hr : resultOf i with
    | ok r => rw [hr] at h0; simp at h0
    | error e' => rw [hr] at h0; simpa using h0
  · intro h s
    rw [exec_eq_respond, h]; rfl

/-- All that a step can do. -/
theorem step_cases {s t : State} (h : step s = .next t) :
    (s.requests = [] ∧ t = s) ∨
      ∃ q rest i r, s.requests = q :: rest ∧ decodeRequest q = .ok i ∧ resultOf i = .ok r ∧
        t = { requests := rest, responses := s.responses ++ [r] } := by
  unfold step at h
  cases hq : s.requests with
  | nil => rw [hq] at h; exact .inl ⟨rfl, by simpa using h.symm⟩
  | cons q rest =>
    rw [hq] at h
    simp only [decode] at h
    cases hd : decodeRequest q with
    | error e => rw [hd] at h; simp at h
    | ok i =>
      rw [hd] at h
      simp only [exec_eq_respond] at h
      obtain ⟨r, hr, ht⟩ := respond_next h
      exact .inr ⟨q, rest, i, r, rfl, hd, hr, ht⟩

/-- The step of a request that decodes. -/
theorem step_of_decode {s : State} {q : Request} {rest : List Request} {i : Instr} (hq : s.requests = q :: rest)
    (hd : decodeRequest q = .ok i) : step s = respond (resultOf i) { requests := rest, responses := s.responses } := by
  simp only [step, hq, decode, hd, exec_eq_respond]

/-- The instructions a request word can be: the 24 operations. -/
def isOperation : Instr → Bool
  | .tobits _ | .toarmor _ | .extu _ _ _ | .exts _ _ _ | .insu _ _ _ _ | .inss _ _ _ _ | .txtdec _ | .txtenc _ _
  | .declon _ | .declat _ | .msgdec _ | .decline _ | .decopt _ _ _ | .encposa _ _ | .encbase _ | .encstat _
  | .encposb _ | .enc24a _ | .enc24b _ | .isvalid _ _ | .parse _ | .chksum _ | .frame _ _ | .chkvfy _ => true
  | .msg1 _ | .msg2 _ | .msg3 _ | .msg4 _ | .msg5 _ | .msg18 _ | .msg24a _ | .msg24b _ | .msg24x _ _
  | .msgother _ _ | .msgshort _ _ | .msgempty => false

/-- A request word has one meaning, and it is an operation. -/
theorem decodeRequest_ok {q : Request} {i : Instr} (h : decodeRequest q = .ok i) :
    encode i = .request q ∧ isOperation i = true := by
  obtain ⟨opsel, operands⟩ := q
  have ho : ∀ k, opsel.toNat = k → opsel = BitVec.ofNat 5 k := by rintro k rfl; simp
  unfold decodeRequest at h
  dsimp only at h
  split at h <;> rename_i hk <;>
    first
      | (obtain rfl := ho _ hk; split at h <;> first | (cases h; exact ⟨rfl, rfl⟩) | cases h)
      | cases h

end Sys2Proof.Machine
end

