-- ==== Sys2Proof/Laws/FieldCodec.lean ====
section
/-! SUPPORT. The checked field operations, case by case (rules R100 to R103, R196, R197). -/

namespace Sys2Proof.Machine

theorem extu_ok {b : Bits} {s l : Nat} (hl : l ≤ 30) (h : s + l ≤ b.length) : extu b s l = .ok (uintAt b s l) :=
  if_neg (show ¬(l > 30 ∨ s + l > b.length) by omega)

theorem extu_slice {b : Bits} {s l : Nat} (h : l > 30 ∨ s + l > b.length) : extu b s l = .error .sliceOutOfRange :=
  if_pos (show l > 30 ∨ s + l > b.length from h)

theorem exts_ok {b : Bits} {s l : Nat} (h1 : 1 ≤ l) (hl : l ≤ 30) (h : s + l ≤ b.length) :
    exts b s l = .ok (sintAt b s l) :=
  if_neg (show ¬(l < 1 ∨ l > 30 ∨ s + l > b.length) by omega)

theorem exts_slice {b : Bits} {s l : Nat} (h : l < 1 ∨ l > 30 ∨ s + l > b.length) :
    exts b s l = .error .sliceOutOfRange :=
  if_pos (show l < 1 ∨ l > 30 ∨ s + l > b.length from h)

theorem insu_eq (b : Bits) (s l : Nat) (v : Int) :
    insu b s l v =
      if l > 30 ∨ s + l > b.length then .error .sliceOutOfRange
      else if v < 0 ∨ v ≥ 2 ^ l then .error .valueOutOfRange
      else .ok (splice b s (bitsOf l v.toNat)) := rfl

theorem insu_ok {b : Bits} {s l : Nat} {v : Int} (hl : l ≤ 30) (h : s + l ≤ b.length) (h0 : 0 ≤ v) (h2 : v < 2 ^ l) :
    insu b s l v = .ok (splice b s (bitsOf l v.toNat)) := by
  rw [insu_eq, if_neg (by omega), if_neg (by omega)]

theorem insu_slice {b : Bits} {s l : Nat} {v : Int} (h : l > 30 ∨ s + l > b.length) :
    insu b s l v = .error .sliceOutOfRange := by
  rw [insu_eq, if_pos h]

theorem insu_value {b : Bits} {s l : Nat} {v : Int} (hl : l ≤ 30) (h : s + l ≤ b.length) (hv : v < 0 ∨ v ≥ 2 ^ l) :
    insu b s l v = .error .valueOutOfRange := by
  rw [insu_eq, if_neg (by omega), if_pos hv]

theorem inss_eq (b : Bits) (s l : Nat) (v : Int) :
    inss b s l v =
      if l < 1 ∨ l > 30 ∨ s + l > b.length then .error .sliceOutOfRange
      else if v < -(2 ^ (l - 1)) ∨ v > 2 ^ (l - 1) - 1 then .error .valueOutOfRange
      else insu b s l (twosOf l v) := rfl

theorem inss_ok {b : Bits} {s l : Nat} {v : Int} (h1 : 1 ≤ l) (hl : l ≤ 30) (h : s + l ≤ b.length)
    (hv1 : -(2 ^ (l - 1)) ≤ v) (hv2 : v < 2 ^ (l - 1)) :
    inss b s l v = .ok (splice b s (bitsOf l (twosOf l v).toNat)) := by
  obtain ⟨r1, r2⟩ := twosOf_range h1 hv1 hv2
  rw [inss_eq, if_neg (by omega), if_neg (by omega), insu_ok hl h r1 r2]

theorem inss_slice {b : Bits} {s l : Nat} {v : Int} (h : l < 1 ∨ l > 30 ∨ s + l > b.length) :
    inss b s l v = .error .sliceOutOfRange := by
  rw [inss_eq, if_pos h]

theorem inss_value {b : Bits} {s l : Nat} {v : Int} (h1 : 1 ≤ l) (hl : l ≤ 30) (h : s + l ≤ b.length)
    (hv : v < -(2 ^ (l - 1)) ∨ v > 2 ^ (l - 1) - 1) : inss b s l v = .error .valueOutOfRange := by
  rw [inss_eq, if_neg (by omega), if_pos hv]

/-- When EXTU answers, its slice was in range. -/
theorem extu_inv {b : Bits} {s l x : Nat} (h : extu b s l = .ok x) :
    l ≤ 30 ∧ s + l ≤ b.length ∧ x = uintAt b s l := by
  by_cases hr : l > 30 ∨ s + l > b.length
  · rw [extu_slice hr] at h; cases h
  · rw [extu_ok (by omega) (by omega)] at h
    exact ⟨by omega, by omega, by simpa using h.symm⟩

/-- When EXTS answers, its slice was in range and not empty. -/
theorem exts_inv {b : Bits} {s l : Nat} {x : Int} (h : exts b s l = .ok x) :
    1 ≤ l ∧ l ≤ 30 ∧ s + l ≤ b.length ∧ x = sintAt b s l := by
  by_cases hr : l < 1 ∨ l > 30 ∨ s + l > b.length
  · rw [exts_slice hr] at h; cases h
  · rw [exts_ok (by omega) (by omega) (by omega)] at h
    exact ⟨by omega, by omega, by omega, by simpa using h.symm⟩

/-- When INSU answers, its slice was in range and its value fitted. -/
theorem insu_inv {b out : Bits} {s l : Nat} {v : Int} (h : insu b s l v = .ok out) :
    l ≤ 30 ∧ s + l ≤ b.length ∧ 0 ≤ v ∧ v < 2 ^ l ∧ out = splice b s (bitsOf l v.toNat) := by
  rw [insu_eq] at h
  split at h
  · cases h
  · split at h
    · cases h
    · exact ⟨by omega, by omega, by omega, by omega, by simpa using h.symm⟩

/-- When INSS answers, its slice was in range and not empty and its value fitted. -/
theorem inss_inv {b out : Bits} {s l : Nat} {v : Int} (h : inss b s l v = .ok out) :
    1 ≤ l ∧ l ≤ 30 ∧ s + l ≤ b.length ∧ -(2 ^ (l - 1)) ≤ v ∧ v < 2 ^ (l - 1) ∧
      out = splice b s (bitsOf l (twosOf l v).toNat) := by
  rw [inss_eq] at h
  split at h
  · cases h
  · split at h
    · cases h
    · exact ⟨by omega, by omega, by omega, by omega, by omega, (insu_inv h).2.2.2.2⟩

end Sys2Proof.Machine
end

