-- ==== Sys2Proof/Laws/Messages.lean ====
section
/-! SUPPORT. Messages: what writing a list of fields leaves in a bit string, and what reading a layout from it gives back
(rules R68 to R78, R150). -/

namespace Sys2Proof.Machine

/-! ### Fields as bits -/

/-- Where a field starts. -/
def putStart : Put → Nat
  | .unsigned s _ _ => s
  | .signed s _ _ => s
  | .bool s _ => s
  | .text s _ => s

/-- The bits a field writes. -/
def putBits : Put → Bits
  | .unsigned _ l x => bitsOf l x.toNat
  | .signed _ l x => bitsOf l (twosOf l x).toNat
  | .bool _ x => bitsOf 1 x.toNat
  | .text _ w => w

/-- Where a field ends. -/
def putEnd (f : Put) : Nat := putStart f + (putBits f).length

/-- The field's value fits its width. -/
def putFits : Put → Bool
  | .unsigned _ l x => fitsU l x
  | .signed _ l x => fitsS l x
  | .bool _ _ => true
  | .text _ _ => true

/-- Two fields share no bit. -/
def putApart (f g : Put) : Prop := putEnd f ≤ putStart g ∨ putEnd g ≤ putStart f

theorem writePut_eq (b : Bits) (f : Put) : writePut b f = splice b (putStart f) (putBits f) := by
  cases f <;> rfl

theorem writePuts_length (fs : List Put) (b : Bits) (h : ∀ f ∈ fs, putEnd f ≤ b.length) :
    (fs.foldl writePut b).length = b.length := by
  induction fs generalizing b with
  | nil => rfl
  | cons f fs ih =>
    have hf := h f (by simp)
    have hl : (writePut b f).length = b.length := by rw [writePut_eq]; exact splice_length hf
    rw [List.foldl_cons, ih _ (by rw [hl]; exact fun g hg => h g (by simp [hg])), hl]

/-- Writing fields leaves every disjoint bit range as it was. -/
theorem slice_writePuts_apart (fs : List Put) (b : Bits) {s l : Nat} (h : ∀ f ∈ fs, putEnd f ≤ b.length)
    (hd : ∀ f ∈ fs, s + l ≤ putStart f ∨ putEnd f ≤ s) : slice (fs.foldl writePut b) s l = slice b s l := by
  induction fs generalizing b with
  | nil => rfl
  | cons f fs ih =>
    have hf := h f (by simp)
    have hl : (writePut b f).length = b.length := by rw [writePut_eq]; exact splice_length hf
    rw [List.foldl_cons, ih _ (by rw [hl]; exact fun g hg => h g (by simp [hg])) (fun g hg => hd g (by simp [hg])),
      writePut_eq, slice_splice_disjoint hf (hd f (by simp))]

/-- Writing fields that are pairwise apart leaves each field's bits at its place. -/
theorem slice_writePuts_mem (fs : List Put) (b : Bits) (h : ∀ f ∈ fs, putEnd f ≤ b.length)
    (hp : fs.Pairwise putApart) {f : Put} (hf : f ∈ fs) :
    slice (fs.foldl writePut b) (putStart f) (putBits f).length = putBits f := by
  induction fs generalizing b with
  | nil => simp at hf
  | cons g fs ih =>
    have hg := h g (by simp)
    have hl : (writePut b g).length = b.length := by rw [writePut_eq]; exact splice_length hg
    rw [List.foldl_cons]
    rw [List.pairwise_cons] at hp
    have hrest : ∀ k ∈ fs, putEnd k ≤ (writePut b g).length := by rw [hl]; exact fun k hk => h k (by simp [hk])
    rcases List.mem_cons.mp hf with rfl | hf'
    · rw [slice_writePuts_apart fs _ hrest (fun k hk => hp.1 k hk), writePut_eq, slice_splice_same hg]
    · exact ih _ hrest hp.2 hf'

theorem slice_length_le {α : Type} (xs : List α) (s l : Nat) : (slice xs s l).length ≤ l := by simp [slice]

theorem uintAt_writePuts {fs : List Put} {b : Bits} (h : ∀ f ∈ fs, putEnd f ≤ b.length)
    (hp : fs.Pairwise putApart) {s l : Nat} {x : Int} (hf : Put.unsigned s l x ∈ fs) (hx : fitsU l x = true) :
    (uintAt (fs.foldl writePut b) s l : Int) = x := by
  have hs := slice_writePuts_mem fs b h hp hf
  simp only [putStart, putBits, bitsOf_length] at hs
  simp only [fitsU, Bool.and_eq_true, decide_eq_true_eq] at hx
  rw [uintAt, hs, uint_bitsOf, Nat.mod_eq_of_lt (by zify; rw [Int.toNat_of_nonneg hx.1]; exact hx.2),
    Int.toNat_of_nonneg hx.1]

theorem sintAt_of_slice {b : Bits} {s l : Nat} {v : Int} (hl : 1 ≤ l)
    (h1 : -(2 ^ (l - 1)) ≤ v) (h2 : v < 2 ^ (l - 1)) (hs : slice b s l = bitsOf l (twosOf l v).toNat) :
    sintAt b s l = v := by
  obtain ⟨r1, r2⟩ := twosOf_range hl h1 h2
  have hu : uintAt b s l = (twosOf l v).toNat := by
    rw [uintAt, hs, uint_bitsOf, Nat.mod_eq_of_lt (by zify; rw [Int.toNat_of_nonneg r1]; exact r2)]
  have hsign : b[s]? = some (decide (v < 0)) := by
    rw [← bitsOf_twosOf_sign hl h1 h2, ← hs, slice_getElem?, if_pos (by omega), Nat.add_zero]
  rw [sintAt, hu, hsign, Int.toNat_of_nonneg r1, twosOf]
  by_cases hneg : v < 0 <;> simp [hneg]

theorem sintAt_writePuts {fs : List Put} {b : Bits} (h : ∀ f ∈ fs, putEnd f ≤ b.length)
    (hp : fs.Pairwise putApart) {s l : Nat} {x : Int} (hl : 1 ≤ l) (hf : Put.signed s l x ∈ fs)
    (hx : fitsS l x = true) : sintAt (fs.foldl writePut b) s l = x := by
  have hs := slice_writePuts_mem fs b h hp hf
  simp only [putStart, putBits, bitsOf_length] at hs
  simp only [fitsS, Bool.and_eq_true, decide_eq_true_eq] at hx
  exact sintAt_of_slice hl hx.1 hx.2 hs

theorem boolAt_writePuts {fs : List Put} {b : Bits} (h : ∀ f ∈ fs, putEnd f ≤ b.length)
    (hp : fs.Pairwise putApart) {s : Nat} {x : Bool} (hf : Put.bool s x ∈ fs) :
    uintAt (fs.foldl writePut b) s 1 = x.toNat := by
  have hs := slice_writePuts_mem fs b h hp hf
  simp only [putStart, putBits, bitsOf_length] at hs
  rw [uintAt, hs, uint_bitsOf]
  cases x <;> rfl

theorem textAt_writePuts {fs : List Put} {b : Bits} (h : ∀ f ∈ fs, putEnd f ≤ b.length)
    (hp : fs.Pairwise putApart) {s l : Nat} {w : Bits} (hw : w.length = l) (hf : Put.text s w ∈ fs) :
    slice (fs.foldl writePut b) s l = w := by
  have hs := slice_writePuts_mem fs b h hp hf
  simp only [putStart, putBits] at hs
  rw [← hw, hs]

/-! ### Reading through the padding of TOARMOR -/

theorem slice_append_left {α : Type} (b z : List α) {s l : Nat} (h : s + l ≤ b.length) :
    slice (b ++ z) s l = slice b s l := by
  simp [slice, List.drop_append, List.take_append]
  rw [Nat.sub_eq_zero_of_le (by omega : s ≤ b.length), Nat.sub_eq_zero_of_le (by omega : l ≤ b.length - s)]
  simp

theorem slice_padSix {b : Bits} {s l : Nat} (h : s + l ≤ b.length) : slice (padSix b) s l = slice b s l :=
  slice_append_left _ _ h

theorem uintAt_padSix {b : Bits} {s l : Nat} (h : s + l ≤ b.length) : uintAt (padSix b) s l = uintAt b s l := by
  rw [uintAt, slice_padSix h]; rfl

theorem sintAt_padSix {b : Bits} {s l : Nat} (hl : 1 ≤ l) (h : s + l ≤ b.length) :
    sintAt (padSix b) s l = sintAt b s l := by
  have hb : (padSix b)[s]? = b[s]? := by rw [padSix, List.getElem?_append_left (by omega)]
  rw [sintAt, uintAt_padSix h, hb]; rfl

/-! ### The checked writes of the encoders (rules R150, R152) -/

/-- A field lies inside the string and is no wider than 30 bits, and no signed field is empty. -/
def putInside (n : Nat) : Put → Bool
  | .unsigned s l _ => decide (l ≤ 30) && decide (s + l ≤ n)
  | .signed s l _ => decide (1 ≤ l) && decide (l ≤ 30) && decide (s + l ≤ n)
  | .bool s _ => decide (s + 1 ≤ n)
  | .text s w => decide (s + w.length ≤ n)

theorem putInside_end {n : Nat} {f : Put} (h : putInside n f = true) : putEnd f ≤ n := by
  cases f <;> simp_all [putInside, putEnd, putStart, putBits]

theorem insertPut_of_inside {b : Bits} {f : Put} (h : putInside b.length f = true) :
    insertPut b f = if putFits f = true then .ok (writePut b f) else .error .valueOutOfRange := by
  cases f with
  | unsigned s l x =>
    simp only [putInside, Bool.and_eq_true, decide_eq_true_eq] at h
    simp only [insertPut, putFits, fitsU, Bool.and_eq_true, decide_eq_true_eq, writePut]
    by_cases hx : 0 ≤ x ∧ x < 2 ^ l
    · rw [if_pos hx, insu_ok h.1 h.2 hx.1 hx.2]
    · rw [if_neg hx, insu_value h.1 h.2 (by omega)]
  | signed s l x =>
    simp only [putInside, Bool.and_eq_true, decide_eq_true_eq] at h
    simp only [insertPut, putFits, fitsS, Bool.and_eq_true, decide_eq_true_eq, writePut]
    by_cases hx : -(2 ^ (l - 1)) ≤ x ∧ x < 2 ^ (l - 1)
    · rw [if_pos hx, inss_ok h.1.1 h.1.2 h.2 hx.1 hx.2]
    · rw [if_neg hx, inss_value h.1.1 h.1.2 h.2 (by omega)]
  | bool s x =>
    simp only [putInside, decide_eq_true_eq] at h
    rw [insertPut, insu_ok (by omega) h (by omega) (by cases x <;> simp)]
    cases x <;> rfl
  | text s w => rfl

/-- Writing a list of fields inside the string: done when every value fits, refused otherwise. -/
theorem insertAll_of_inside (fs : List Put) (b : Bits) (h : ∀ f ∈ fs, putInside b.length f = true) :
    insertAll b fs = if fs.all putFits = true then .ok (fs.foldl writePut b) else .error .valueOutOfRange := by
  induction fs generalizing b with
  | nil => rfl
  | cons f fs ih =>
    have hf := h f (by simp)
    have hl : (writePut b f).length = b.length := by
      rw [writePut_eq]; exact splice_length (putInside_end hf)
    rw [insertAll, insertPut_of_inside hf]
    cases hx : putFits f with
    | false => simp [hx]
    | true =>
      simp only [if_true, List.all_cons, hx, Bool.true_and, List.foldl_cons]
      exact ih _ (by rw [hl]; exact fun g hg => h g (by simp [hg]))

end Sys2Proof.Machine
end

