-- ==== Sys2Proof/Laws/Layouts.lean ====
section
/-! SUPPORT. The layouts (rules R68 to R78): which row a bit string selects, what a layout's fields leave in a message,
and that reading a written layout gives the fields back. -/

namespace Sys2Proof.Machine

/-! ### Dispatch -/

theorem rowOf_empty {b : Bits} (h : b.length < 6) : rowOf b = .msgempty := if_pos h

/-- The row of a bit string of at least six bits, by its type (rule R78). -/
theorem rowOf_type {b : Bits} (h : 6 ≤ b.length) :
    rowOf b =
      match uintAt b 0 6 with
      | 1 => if 168 ≤ b.length then .msg1 else .msgshort
      | 2 => if 168 ≤ b.length then .msg2 else .msgshort
      | 3 => if 168 ≤ b.length then .msg3 else .msgshort
      | 4 => if 168 ≤ b.length then .msg4 else .msgshort
      | 5 => if 424 ≤ b.length then .msg5 else .msgshort
      | 18 => if 168 ≤ b.length then .msg18 else .msgshort
      | 24 => if 160 ≤ b.length then partRow b else .msgshort
      | _ => .msgother :=
  if_neg (show ¬b.length < 6 by omega)

theorem rowOf_msg1 {b : Bits} (h : 168 ≤ b.length) (ht : uintAt b 0 6 = 1) : rowOf b = .msg1 := by
  rw [rowOf_type (by omega), ht]; exact if_pos h

theorem rowOf_msg2 {b : Bits} (h : 168 ≤ b.length) (ht : uintAt b 0 6 = 2) : rowOf b = .msg2 := by
  rw [rowOf_type (by omega), ht]; exact if_pos h

theorem rowOf_msg3 {b : Bits} (h : 168 ≤ b.length) (ht : uintAt b 0 6 = 3) : rowOf b = .msg3 := by
  rw [rowOf_type (by omega), ht]; exact if_pos h

theorem rowOf_msg4 {b : Bits} (h : 168 ≤ b.length) (ht : uintAt b 0 6 = 4) : rowOf b = .msg4 := by
  rw [rowOf_type (by omega), ht]; exact if_pos h

theorem rowOf_msg5 {b : Bits} (h : 424 ≤ b.length) (ht : uintAt b 0 6 = 5) : rowOf b = .msg5 := by
  rw [rowOf_type (by omega), ht]; exact if_pos h

theorem rowOf_msg18 {b : Bits} (h : 168 ≤ b.length) (ht : uintAt b 0 6 = 18) : rowOf b = .msg18 := by
  rw [rowOf_type (by omega), ht]; exact if_pos h

theorem rowOf_msg24 {b : Bits} (h : 160 ≤ b.length) (ht : uintAt b 0 6 = 24) : rowOf b = partRow b := by
  rw [rowOf_type (by omega), ht]; exact if_pos h

theorem partRow_a {b : Bits} (h : uintAt b 38 2 = 0) : partRow b = .msg24a := by rw [partRow, h]; rfl

theorem partRow_b {b : Bits} (h : uintAt b 38 2 = 1) : partRow b = .msg24b := by rw [partRow, h]; rfl

theorem partRow_x {b : Bits} (h : 2 ≤ uintAt b 38 2) : partRow b = .msg24x := by
  unfold partRow; split <;> first | omega | rfl

/-- A type without a layout (rule R77). -/
theorem rowOf_msgother {b : Bits} (h : 6 ≤ b.length) (ht : uintAt b 0 6 ∉ Config.supportedTypes) :
    rowOf b = .msgother := by
  rw [rowOf_type h]
  split <;> first | rfl | (rename_i hk; rw [hk] at ht; exact absurd (by decide) ht)

/-- A supported type whose minimum length is not met (rule R133). -/
theorem rowOf_msgshort {b : Bits} (h : 6 ≤ b.length) (ht : uintAt b 0 6 ∈ Config.supportedTypes)
    (hn : b.length < Config.minBits (uintAt b 0 6)) : rowOf b = .msgshort := by
  simp only [Config.supportedTypes, List.mem_cons, List.not_mem_nil, or_false] at ht
  rw [rowOf_type h]
  rcases ht with ht | ht | ht | ht | ht | ht | ht <;> rw [ht] at hn ⊢ <;> exact if_neg (Nat.not_le.mpr hn)

/-- The type and length that each row's selection means (rules R78, R122). -/
theorem rowOf_spec (b : Bits) :
    match rowOf b with
    | .msg1 => 168 ≤ b.length ∧ uintAt b 0 6 = 1
    | .msg2 => 168 ≤ b.length ∧ uintAt b 0 6 = 2
    | .msg3 => 168 ≤ b.length ∧ uintAt b 0 6 = 3
    | .msg4 => 168 ≤ b.length ∧ uintAt b 0 6 = 4
    | .msg5 => 424 ≤ b.length ∧ uintAt b 0 6 = 5
    | .msg18 => 168 ≤ b.length ∧ uintAt b 0 6 = 18
    | .msg24a => 160 ≤ b.length ∧ uintAt b 0 6 = 24 ∧ uintAt b 38 2 = 0
    | .msg24b => 160 ≤ b.length ∧ uintAt b 0 6 = 24 ∧ uintAt b 38 2 = 1
    | .msg24x => 160 ≤ b.length ∧ uintAt b 0 6 = 24 ∧ 2 ≤ uintAt b 38 2
    | .msgother => 6 ≤ b.length ∧ uintAt b 0 6 ∉ Config.supportedTypes
    | .msgshort =>
      6 ≤ b.length ∧ uintAt b 0 6 ∈ Config.supportedTypes ∧ b.length < Config.minBits (uintAt b 0 6)
    | .msgempty => b.length < 6 := by
  by_cases h6 : b.length < 6
  · rw [rowOf_empty h6]; exact h6
  have h6 : 6 ≤ b.length := by omega
  by_cases hs : uintAt b 0 6 ∈ Config.supportedTypes
  · by_cases hn : b.length < Config.minBits (uintAt b 0 6)
    · rw [rowOf_msgshort h6 hs hn]; exact ⟨h6, hs, hn⟩
    have hs' := hs
    simp only [Config.supportedTypes, List.mem_cons, List.not_mem_nil, or_false] at hs'
    rcases hs' with ht | ht | ht | ht | ht | ht | ht <;> rw [ht] at hn <;> simp only [Config.minBits] at hn
    · rw [rowOf_msg1 (by omega) ht]; exact ⟨by omega, ht⟩
    · rw [rowOf_msg2 (by omega) ht]; exact ⟨by omega, ht⟩
    · rw [rowOf_msg3 (by omega) ht]; exact ⟨by omega, ht⟩
    · rw [rowOf_msg4 (by omega) ht]; exact ⟨by omega, ht⟩
    · rw [rowOf_msg5 (by omega) ht]; exact ⟨by omega, ht⟩
    · rw [rowOf_msg18 (by omega) ht]; exact ⟨by omega, ht⟩
    · rw [rowOf_msg24 (by omega) ht]
      by_cases h0 : uintAt b 38 2 = 0
      · rw [partRow_a h0]; exact ⟨by omega, ht, h0⟩
      by_cases h1 : uintAt b 38 2 = 1
      · rw [partRow_b h1]; exact ⟨by omega, ht, h1⟩
      · rw [partRow_x (by omega)]; exact ⟨by omega, ht, by omega⟩
  · rw [rowOf_msgother h6 hs]; exact ⟨h6, hs⟩

/-! ### A written message -/

/-- The fields of a message lie inside it and share no bit. -/
structure GoodLayout (n : Nat) (type mmsi : Int) (fs : List Put) : Prop where
  inside : ∀ f ∈ headerPuts type mmsi ++ fs, putInside n f = true
  apart : (headerPuts type mmsi ++ fs).Pairwise putApart

variable {n : Nat} {type mmsi : Int} {fs : List Put}

theorem GoodLayout.end_le (h : GoodLayout n type mmsi fs) :
    ∀ f ∈ headerPuts type mmsi ++ fs, putEnd f ≤ (zeros n).length := by
  intro f hf
  rw [zeros, List.length_replicate]
  exact putInside_end (h.inside f hf)

theorem messageBits_length (h : GoodLayout n type mmsi fs) : (messageBits n type mmsi fs).length = n := by
  rw [messageBits, writePuts_length _ _ h.end_le, zeros, List.length_replicate]

theorem messageBits_uint (h : GoodLayout n type mmsi fs) {s l : Nat} {x : Int}
    (hf : Put.unsigned s l x ∈ headerPuts type mmsi ++ fs) (hx : fitsU l x = true) :
    (uintAt (messageBits n type mmsi fs) s l : Int) = x := uintAt_writePuts h.end_le h.apart hf hx

theorem messageBits_sint (h : GoodLayout n type mmsi fs) {s l : Nat} {x : Int} (hl : 1 ≤ l)
    (hf : Put.signed s l x ∈ headerPuts type mmsi ++ fs) (hx : fitsS l x = true) :
    sintAt (messageBits n type mmsi fs) s l = x := sintAt_writePuts h.end_le h.apart hl hf hx

theorem messageBits_bool (h : GoodLayout n type mmsi fs) {s : Nat} {x : Bool}
    (hf : Put.bool s x ∈ headerPuts type mmsi ++ fs) :
    uintAt (messageBits n type mmsi fs) s 1 = x.toNat := boolAt_writePuts h.end_le h.apart hf

theorem messageBits_text (h : GoodLayout n type mmsi fs) {s l : Nat} {w : Bits} (hw : w.length = l)
    (hf : Put.text s w ∈ headerPuts type mmsi ++ fs) : slice (messageBits n type mmsi fs) s l = w :=
  textAt_writePuts h.end_le h.apart hw hf

/-- Bits that no field covers are zero (rule R53). -/
theorem messageBits_gap (h : GoodLayout n type mmsi fs) {s l : Nat}
    (hd : ∀ f ∈ headerPuts type mmsi ++ fs, s + l ≤ putStart f ∨ putEnd f ≤ s) :
    slice (messageBits n type mmsi fs) s l = slice (zeros n) s l := slice_writePuts_apart _ _ h.end_le hd

/-! The same, read through the padding that armoring adds. -/

theorem padded_uint (h : GoodLayout n type mmsi fs) {s l : Nat} {x : Int}
    (hf : Put.unsigned s l x ∈ headerPuts type mmsi ++ fs) (hx : fitsU l x = true) :
    (uintAt (padSix (messageBits n type mmsi fs)) s l : Int) = x := by
  have hi := h.inside _ hf
  simp only [putInside, Bool.and_eq_true, decide_eq_true_eq] at hi
  rw [uintAt_padSix (by rw [messageBits_length h]; exact hi.2), messageBits_uint h hf hx]

theorem padded_sint (h : GoodLayout n type mmsi fs) {s l : Nat} {x : Int} (hl : 1 ≤ l)
    (hf : Put.signed s l x ∈ headerPuts type mmsi ++ fs) (hx : fitsS l x = true) :
    sintAt (padSix (messageBits n type mmsi fs)) s l = x := by
  have hi := h.inside _ hf
  simp only [putInside, Bool.and_eq_true, decide_eq_true_eq] at hi
  rw [sintAt_padSix hl (by rw [messageBits_length h]; exact hi.2), messageBits_sint h hl hf hx]

theorem padded_bool (h : GoodLayout n type mmsi fs) {s : Nat} {x : Bool}
    (hf : Put.bool s x ∈ headerPuts type mmsi ++ fs) :
    (uintAt (padSix (messageBits n type mmsi fs)) s 1 == 1) = x := by
  have hi := h.inside _ hf
  simp only [putInside, decide_eq_true_eq] at hi
  rw [uintAt_padSix (by rw [messageBits_length h]; exact hi), messageBits_bool h hf]
  cases x <;> rfl

theorem padded_text (h : GoodLayout n type mmsi fs) {s l : Nat} {w : Bits} (hw : w.length = l)
    (hf : Put.text s w ∈ headerPuts type mmsi ++ fs) : slice (padSix (messageBits n type mmsi fs)) s l = w := by
  have hi := h.inside _ hf
  simp only [putInside, decide_eq_true_eq] at hi
  rw [slice_padSix (by rw [messageBits_length h, ← hw]; exact hi), messageBits_text h hw hf]

theorem padded_length (h : GoodLayout n type mmsi fs) :
    (padSix (messageBits n type mmsi fs)).length = 6 * ((n + 5) / 6) := by
  rw [padSix_length, messageBits_length h]

theorem padded_type (h : GoodLayout n type mmsi fs) (hx : fitsU 6 type = true) :
    (uintAt (padSix (messageBits n type mmsi fs)) 0 6 : Int) = type := padded_uint h (by simp [headerPuts]) hx

theorem padded_mmsi (h : GoodLayout n type mmsi fs) (hx : fitsU 30 mmsi = true) :
    (uintAt (padSix (messageBits n type mmsi fs)) 8 30 : Int) = mmsi := padded_uint h (by simp [headerPuts]) hx

/-! ### The layouts are good -/

theorem goodLayout_posA (type mmsi : Int) (f : PosA) : GoodLayout 168 type mmsi f.puts := by
  constructor <;> simp [headerPuts, PosA.puts, putInside, putApart, putEnd, putStart, putBits]

theorem goodLayout_base (type mmsi : Int) (f : Base) : GoodLayout 168 type mmsi f.puts := by
  constructor <;> simp [headerPuts, Base.puts, putInside, putApart, putEnd, putStart, putBits]

theorem goodLayout_posB (type mmsi : Int) (f : PosB) : GoodLayout 168 type mmsi f.puts := by
  constructor <;> simp [headerPuts, PosB.puts, putInside, putApart, putEnd, putStart, putBits]

theorem goodLayout_voyage (type mmsi : Int) {f : Voyage Bits} (hc : f.callsign.length = 42)
    (hn : f.shipName.length = 120) : GoodLayout 424 type mmsi f.puts := by
  constructor <;> simp [headerPuts, Voyage.puts, putInside, putApart, putEnd, putStart, putBits, hc, hn]

theorem goodLayout_nameA (type mmsi : Int) {f : NameA Bits} (hn : f.shipName.length = 120) :
    GoodLayout 160 type mmsi f.puts := by
  constructor <;> simp [headerPuts, NameA.puts, putInside, putApart, putEnd, putStart, putBits, hn]

theorem goodLayout_staticB (type mmsi : Int) {f : StaticB Bits} (hc : f.callsign.length = 42) :
    GoodLayout 160 type mmsi f.puts := by
  constructor <;> simp [headerPuts, StaticB.puts, putInside, putApart, putEnd, putStart, putBits, hc]

theorem goodLayout_partX (type mmsi part : Int) : GoodLayout 160 type mmsi [.unsigned 38 2 part] := by
  constructor <;> simp [headerPuts, putInside, putApart, putEnd, putStart, putBits]

theorem goodLayout_header (type mmsi : Int) : GoodLayout 38 type mmsi [] := by
  constructor <;> simp [headerPuts, putInside, putApart, putEnd, putStart, putBits]

/-! ### Reading back -/

theorem readPosA_message {type : Int} {f : PosA} (hf : f.fits = true) :
    readPosA (padSix (messageBits 168 type f.mmsi f.puts)) = f := by
  have g := goodLayout_posA type f.mmsi f
  simp only [PosA.fits, Bool.and_eq_true] at hf
  obtain ⟨⟨⟨⟨⟨⟨⟨⟨h1, h2⟩, h3⟩, h4⟩, h5⟩, h6⟩, h7⟩, h8⟩, h9⟩ := hf
  obtain ⟨m, ns, rot, sog, acc, lon, lat, cog, hd, ts⟩ := f
  simp only [readPosA, PosA.mk.injEq]
  exact ⟨padded_mmsi g h1, padded_uint g (by simp [PosA.puts]) h2, padded_sint g (by omega) (by simp [PosA.puts]) h3,
    padded_uint g (by simp [PosA.puts]) h4, padded_bool g (by simp [PosA.puts]),
    padded_sint g (by omega) (by simp [PosA.puts]) h5, padded_sint g (by omega) (by simp [PosA.puts]) h6,
    padded_uint g (by simp [PosA.puts]) h7, padded_uint g (by simp [PosA.puts]) h8,
    padded_uint g (by simp [PosA.puts]) h9⟩

theorem readBase_message {type : Int} {f : Base} (hf : f.fits = true) :
    readBase (padSix (messageBits 168 type f.mmsi f.puts)) = f := by
  have g := goodLayout_base type f.mmsi f
  simp only [Base.fits, Bool.and_eq_true] at hf
  obtain ⟨⟨h1, h2⟩, h3⟩ := hf
  obtain ⟨m, lon, lat⟩ := f
  simp only [readBase, Base.mk.injEq]
  exact ⟨padded_mmsi g h1, padded_sint g (by omega) (by simp [Base.puts]) h2,
    padded_sint g (by omega) (by simp [Base.puts]) h3⟩

theorem readPosB_message {type : Int} {f : PosB} (hf : f.fits = true) :
    readPosB (padSix (messageBits 168 type f.mmsi f.puts)) = f := by
  have g := goodLayout_posB type f.mmsi f
  simp only [PosB.fits, Bool.and_eq_true] at hf
  obtain ⟨⟨⟨⟨⟨h1, h2⟩, h3⟩, h4⟩, h5⟩, h6⟩ := hf
  obtain ⟨m, sog, lon, lat, cog, hd⟩ := f
  simp only [readPosB, PosB.mk.injEq]
  exact ⟨padded_mmsi g h1, padded_uint g (by simp [PosB.puts]) h2, padded_sint g (by omega) (by simp [PosB.puts]) h3,
    padded_sint g (by omega) (by simp [PosB.puts]) h4, padded_uint g (by simp [PosB.puts]) h5,
    padded_uint g (by simp [PosB.puts]) h6⟩

theorem readVoyage_message {type : Int} {f : Voyage Bits} (hf : f.fits = true) (hc : f.callsign.length = 42)
    (hn : f.shipName.length = 120) : readVoyage (padSix (messageBits 424 type f.mmsi f.puts)) = f := by
  have g := goodLayout_voyage type f.mmsi hc hn
  simp only [Voyage.fits, Bool.and_eq_true] at hf
  obtain ⟨⟨⟨⟨⟨⟨h1, h2⟩, h3⟩, h4⟩, h5⟩, h6⟩, h7⟩ := hf
  obtain ⟨m, imo, call, name, st, a, b, c, d⟩ := f
  simp only [readVoyage, Voyage.mk.injEq]
  exact ⟨padded_mmsi g h1, padded_uint g (by simp [Voyage.puts]) h2, padded_text g hc (by simp [Voyage.puts]),
    padded_text g hn (by simp [Voyage.puts]), padded_uint g (by simp [Voyage.puts]) h3,
    padded_uint g (by simp [Voyage.puts]) h4, padded_uint g (by simp [Voyage.puts]) h5,
    padded_uint g (by simp [Voyage.puts]) h6, padded_uint g (by simp [Voyage.puts]) h7⟩

theorem readNameA_message {type : Int} {f : NameA Bits} (hf : f.fits = true) (hn : f.shipName.length = 120) :
    readNameA (padSix (messageBits 160 type f.mmsi f.puts)) = f := by
  have g := goodLayout_nameA type f.mmsi hn
  obtain ⟨m, name⟩ := f
  simp only [readNameA, NameA.mk.injEq]
  exact ⟨padded_mmsi g hf, padded_text g hn (by simp [NameA.puts])⟩

theorem readStaticB_message {type : Int} {f : StaticB Bits} (hf : f.fits = true) (hc : f.callsign.length = 42) :
    readStaticB (padSix (messageBits 160 type f.mmsi f.puts)) = f := by
  have g := goodLayout_staticB type f.mmsi hc
  simp only [StaticB.fits, Bool.and_eq_true] at hf
  obtain ⟨⟨⟨⟨⟨h1, h2⟩, h3⟩, h4⟩, h5⟩, h6⟩ := hf
  obtain ⟨m, st, call, a, b, c, d⟩ := f
  simp only [readStaticB, StaticB.mk.injEq]
  exact ⟨padded_mmsi g h1, padded_uint g (by simp [StaticB.puts]) h2, padded_text g hc (by simp [StaticB.puts]),
    padded_uint g (by simp [StaticB.puts]) h3, padded_uint g (by simp [StaticB.puts]) h4,
    padded_uint g (by simp [StaticB.puts]) h5, padded_uint g (by simp [StaticB.puts]) h6⟩

/-! ### Decoding a written message -/

theorem padded_type_nat (h : GoodLayout n type mmsi fs) {t : Nat} (ht : type = t) (hx : t < 64) :
    uintAt (padSix (messageBits n type mmsi fs)) 0 6 = t := by
  have := padded_type h (by simp [fitsU, ht]; omega)
  omega

theorem decodeBits_posA {f : PosA} (hf : f.fits = true) :
    decodeBits (padSix (messageBits 168 1 f.mmsi f.puts)) = .msg1 f ∧
      decodeBits (padSix (messageBits 168 2 f.mmsi f.puts)) = .msg2 f ∧
      decodeBits (padSix (messageBits 168 3 f.mmsi f.puts)) = .msg3 f := by
  have g := fun t : Int => goodLayout_posA t f.mmsi f
  refine ⟨?_, ?_, ?_⟩
  · rw [decodeBits, rowOf_msg1 (by rw [padded_length (g 1)]) (padded_type_nat (g 1) rfl (by omega))]
    simp only [readPosA_message hf]
  · rw [decodeBits, rowOf_msg2 (by rw [padded_length (g 2)]) (padded_type_nat (g 2) rfl (by omega))]
    simp only [readPosA_message hf]
  · rw [decodeBits, rowOf_msg3 (by rw [padded_length (g 3)]) (padded_type_nat (g 3) rfl (by omega))]
    simp only [readPosA_message hf]

theorem decodeBits_base {f : Base} (hf : f.fits = true) :
    decodeBits (padSix (messageBits 168 4 f.mmsi f.puts)) = .msg4 f := by
  have g := goodLayout_base 4 f.mmsi f
  rw [decodeBits, rowOf_msg4 (by rw [padded_length g]) (padded_type_nat g rfl (by omega))]
  simp only [readBase_message hf]

theorem decodeBits_posB {f : PosB} (hf : f.fits = true) :
    decodeBits (padSix (messageBits 168 18 f.mmsi f.puts)) = .msg18 f := by
  have g := goodLayout_posB 18 f.mmsi f
  rw [decodeBits, rowOf_msg18 (by rw [padded_length g]) (padded_type_nat g rfl (by omega))]
  simp only [readPosB_message hf]

theorem decodeBits_voyage {f : Voyage Bits} (hf : f.fits = true) (hc : f.callsign.length = 42)
    (hn : f.shipName.length = 120) : decodeBits (padSix (messageBits 424 5 f.mmsi f.puts)) = .msg5 f := by
  have g := goodLayout_voyage 5 f.mmsi hc hn
  rw [decodeBits, rowOf_msg5 (by rw [padded_length g]; omega) (padded_type_nat g rfl (by omega))]
  simp only [readVoyage_message hf hc hn]

theorem decodeBits_nameA {f : NameA Bits} (hf : f.fits = true) (hn : f.shipName.length = 120) :
    decodeBits (padSix (messageBits 160 24 f.mmsi f.puts)) = .msg24a f := by
  have g := goodLayout_nameA 24 f.mmsi hn
  have hp := padded_uint g (s := 38) (l := 2) (x := 0) (by simp [NameA.puts]) (by decide)
  rw [decodeBits, rowOf_msg24 (by rw [padded_length g]; omega) (padded_type_nat g rfl (by omega)),
    partRow_a (by omega)]
  simp only [readNameA_message hf hn]

theorem decodeBits_staticB {f : StaticB Bits} (hf : f.fits = true) (hc : f.callsign.length = 42) :
    decodeBits (padSix (messageBits 160 24 f.mmsi f.puts)) = .msg24b f := by
  have g := goodLayout_staticB 24 f.mmsi hc
  have hp := padded_uint g (s := 38) (l := 2) (x := 1) (by simp [StaticB.puts]) (by decide)
  rw [decodeBits, rowOf_msg24 (by rw [padded_length g]; omega) (padded_type_nat g rfl (by omega)),
    partRow_b (by omega)]
  simp only [readStaticB_message hf hc]

theorem decodeBits_partX {mmsi part : Int} (hm : fitsU 30 mmsi = true) (hp : part = 2 ∨ part = 3) :
    decodeBits (padSix (messageBits 160 24 mmsi [.unsigned 38 2 part])) = .msg24x mmsi part := by
  have g := goodLayout_partX 24 mmsi part
  have hx := padded_uint g (s := 38) (l := 2) (x := part) (by simp) (by simp [fitsU]; omega)
  rw [decodeBits, rowOf_msg24 (by rw [padded_length g]; omega) (padded_type_nat g rfl (by omega)),
    partRow_x (by omega)]
  simp only [hx, padded_mmsi g hm]

/-- A header decodes to the row its type and length select, with its fields (rules R68, R132, R133). -/
theorem header_read {type : Int} {mmsi : Option Int} (ht : fitsU 6 type = true) (hm : mmsiOk mmsi = true) :
    (uintAt (padSix (headerBits type mmsi)) 0 6 : Int) = type ∧ readMmsi (padSix (headerBits type mmsi)) = mmsi ∧
      6 ≤ (padSix (headerBits type mmsi)).length ∧ (padSix (headerBits type mmsi)).length < 160 := by
  cases mmsi with
  | none =>
    simp only [fitsU, Bool.and_eq_true, decide_eq_true_eq] at ht
    have hl : (bitsOf 6 type.toNat).length = 6 := bitsOf_length _ _
    have hp : padSix (headerBits type none) = bitsOf 6 type.toNat := padSix_of_dvd (by rw [headerBits, hl])
    rw [hp]
    refine ⟨?_, ?_, by omega, by omega⟩
    · have : slice (bitsOf 6 type.toNat) 0 6 = bitsOf 6 type.toNat := by
        rw [slice, List.drop_zero, List.take_of_length_le (by omega)]
      rw [uintAt, this, uint_bitsOf, Nat.mod_eq_of_lt (by zify; rw [Int.toNat_of_nonneg ht.1]; exact ht.2),
        Int.toNat_of_nonneg ht.1]
    · exact if_neg (by rw [hl]; decide)
  | some m =>
    have g := goodLayout_header type m
    have hl : (padSix (headerBits type (some m))).length = 42 := padded_length g
    refine ⟨padded_type g ht, ?_, by omega, by omega⟩
    refine (if_pos (show Config.mmsiMinBits ≤ _ by rw [hl]; decide)).trans ?_
    exact congrArg some (padded_mmsi g hm)

end Sys2Proof.Machine
end

