-- ==== Sys2Proof/Laws/SpecTerms.lean ====
section
/-! SUPPORT. The spec's own formulas, as the statements use them, and the model's functions are the same functions. -/

namespace Sys2Proof.Spec

open Sys2Proof.Machine

/-! ### Answers and Refuses -/

theorem answers_iff {i : Instr} {r : Response} : Answers i r ↔ resultOf i = .ok r := exec_answers_iff i r

theorem refuses_iff {i : Instr} {e : Refusal} : Refuses i e ↔ resultOf i = .error e := exec_refuses_iff i e

/-- An instruction has one response. -/
theorem Answers.unique {i : Instr} {r r' : Response} (h : Answers i r) (h' : Answers i r') : r = r' := by
  rw [answers_iff] at h h'
  rw [h] at h'
  exact Except.ok.inj h'

/-! ### Fields -/

theorem fieldValue_eq {b : Bits} {s l : Nat} (h : s + l ≤ b.length) : fieldValue b s l = uintAt b s l :=
  (uintAt_sum h).symm

theorem signedValue_eq {b : Bits} {s l : Nat} (h : s + l ≤ b.length) : signedValue b s l = sintAt b s l := by
  rw [signedValue, sintAt, fieldValue_eq h, List.getD_eq_getElem?_getD]
  cases hb : b[s]? with
  | none => simp
  | some x => cases x <;> simp

/-- Zeros after the string do not change a field read past its end. -/
theorem fieldValue_zeros (b : Bits) (k s l : Nat) : fieldValue (b ++ zeros k) s l = fieldValue b s l := by
  unfold fieldValue
  refine Finset.sum_congr rfl fun i _ => ?_
  congr 2
  rw [List.getD_eq_getElem?_getD, List.getD_eq_getElem?_getD, List.getElem?_append]
  split
  · rfl
  · rename_i hi
    rw [List.getElem?_eq_none (by omega : b.length ≤ s + i), zeros, List.getElem?_replicate]
    split <;> rfl

theorem fieldValue_lt (b : Bits) (s l : Nat) : fieldValue b s l < 2 ^ l := by
  have h := fieldValue_zeros b (s + l) s l
  rw [← h, fieldValue_eq (by simp [zeros])]
  exact uintAt_lt _ _ _

theorem subBits_eq {b : Bits} {s l : Nat} (h : s + l ≤ b.length) : subBits b s l = slice b s l := by
  refine List.ext_getElem? fun i => ?_
  rw [slice_getElem?, subBits, List.getElem?_map]
  by_cases hi : i < l
  · rw [if_pos hi, List.getElem?_range hi, Option.map_some, List.getD_eq_getElem?_getD,
      List.getElem?_eq_getElem (by omega : s + i < b.length)]
    rfl
  · rw [if_neg hi, List.getElem?_eq_none (by simp; omega)]
    rfl

theorem bit_eq {b : Bits} {s : Nat} (h : s < b.length) : (uintAt b s 1 == 1) = b.getD s false := by
  rw [← fieldValue_eq (by omega)]
  simp only [fieldValue, Finset.range_one, Finset.sum_singleton, Nat.add_zero]
  cases b.getD s false <;> rfl

/-! ### Alphabets -/

theorem sixOf_eq (c : Byte) : sixOf c = deArmor Config.params c := by
  rw [deArmor_default]
  unfold sixOf
  simp only [← Nat.lt_succ_iff]

theorem armorOf_eq (v : Nat) : armorOf v = armorByte v := rfl

theorem inAlphabet_iff (c : Byte) : InAlphabet c ↔ inArmor c := Iff.rfl

theorem bitsOf_six (v : Nat) : bitsOf 6 v = (List.range 6).map fun j => v.testBit (5 - j) := rfl

theorem payloadBits_eq (payload : Str) : payloadBits payload = toBits Config.params payload := by
  simp only [payloadBits, toBits, sixOf_eq, bitsOf_six]

theorem payloadBits_length (payload : Str) : (payloadBits payload).length = 6 * payload.length := by
  rw [payloadBits_eq, toBits_length]

theorem textBytes_eq (b : Bits) : textBytes b = ((sixes b).map textByte).filter (· != padByte) := by
  rw [textBytes]
  congr 1
  refine List.ext_getElem? fun k => ?_
  rw [List.getElem?_map, List.getElem?_map, sixes_getElem?]
  by_cases hk : k < b.length / 6
  · rw [if_pos hk, List.getElem?_range hk, Option.map_some, Option.map_some, fieldValue_eq (by omega)]
    rfl
  · rw [if_neg hk, List.getElem?_eq_none (by simp; omega)]
    rfl

/-- TXTDEC is the text of its field (rule R110). -/
theorem textOf_txtdec (b : Bits) : TextOf b (txtdec b) := by
  obtain ⟨k, hk⟩ := trim_spec (((sixes b).map textByte).filter (· != padByte))
  exact ⟨⟨k, by rw [textBytes_eq]; exact hk⟩, trim_last _⟩

theorem upperOf_eq (c : Byte) : upperOf c = upper c := by
  unfold upperOf upper
  split
  · rename_i h
    refine BitVec.eq_of_toNat_eq ?_
    rw [BitVec.toNat_sub, BitVec.toNat_ofNat, BitVec.toNat_ofNat]
    have := c.isLt
    omega
  · rfl

theorem groupOf_eq (c : Byte) : groupOf c = textCode Config.params c := by
  unfold groupOf textCode
  simp only [Config.params]
  split_ifs <;> omega

/-! ### Scaling -/

theorem mkRat_div (z : Int) (n : Nat) : mkRat z n = (z : Rat) / n := Rat.mkRat_eq_div z n

theorem lonOf_eq (raw : Int) : lonOf raw = declon Config.params raw := by
  unfold lonOf declon
  simp only [matchesSentinel, Config.params, Config.lonSentinel, Config.onesSentinel, Bool.or_eq_true, beq_iff_eq,
    mkRat_div, Config.posScale]
  rfl

theorem latOf_eq (raw : Int) : latOf raw = declat Config.params raw := by
  unfold latOf declat
  simp only [matchesSentinel, Config.params, Config.latSentinel, Config.onesSentinel, Bool.or_eq_true, beq_iff_eq,
    mkRat_div, Config.posScale]
  rfl

theorem tenths_eq (raw : Nat) : tenths raw = .rat ((raw : Rat) / 10) := by
  rw [tenths, mkRat_div]; rfl

theorem ofInt_eq (z : Int) : ofInt z = .rat z := by
  rw [ofInt, mkRat_div]; simp

end Sys2Proof.Spec
end

