-- ==== Sys2Proof/Laws/Texts.lean ====
section
/-! SUPPORT. Text fields: what TXTDEC delivers, and the round trips (rules R110 to R114). -/

namespace Sys2Proof.Machine

open Sys2Proof.Spec

/-! ### The bytes TXTDEC can deliver -/

theorem textByte_range {v : Nat} (h : v < 64) (hp : textByte v ≠ padByte) :
    (32 ≤ (textByte v).toNat ∧ (textByte v).toNat ≤ 63) ∨ (65 ≤ (textByte v).toNat ∧ (textByte v).toNat ≤ 95) := by
  have hv := textByte_toNat h
  have h0 : v ≠ 0 := by rintro rfl; exact hp rfl
  rw [hv]; split <;> omega

/-- The text of a field of at most `6 * chars` bits is legal (rules R22, R110). -/
theorem txtdec_legal {b : Bits} {chars : Nat} (h : b.length / 6 ≤ chars) : legalText chars (txtdec b) := by
  obtain ⟨k, hk⟩ := trim_spec (((sixes b).map textByte).filter (· != padByte))
  have hk' : ((sixes b).map textByte).filter (· != padByte) = txtdec b ++ List.replicate k spaceByte := hk
  refine ⟨?_, ?_, trim_last _⟩
  · have h1 := congrArg List.length hk'
    have h2 := List.length_filter_le (· != padByte) ((sixes b).map textByte)
    rw [List.length_map, sixes_length] at h2
    rw [List.length_append] at h1
    omega
  · intro c hc
    have hm : c ∈ ((sixes b).map textByte).filter (· != padByte) := by
      rw [hk']; exact List.mem_append_left _ hc
    obtain ⟨hm, hp⟩ := List.mem_filter.mp hm
    obtain ⟨v, hv, rfl⟩ := List.mem_map.mp hm
    exact textByte_range (sixes_lt _ v hv) (by simpa using hp)

/-! ### The groups TXTENC writes -/

theorem fitText_eq (text : Str) (m : Nat) :
    fitText text m = (text.map upper).take m ++ List.replicate (m - text.length) padByte := by
  unfold fitText
  simp only [List.length_map]
  split
  · rw [show m - text.length = 0 by omega]; simp
  · rw [List.take_of_length_le (by simp; omega)]

theorem fitText_length (text : Str) (m : Nat) : (fitText text m).length = m := by
  rw [fitText_eq]; simp; omega

theorem txtenc_length (p : Config.Params) (text : Str) (m : Nat) : (txtenc p text m).length = 6 * m := by
  rw [txtenc, flatMap_bitsOf_length, fitText_length]

theorem textCode_lt {p : Config.Params} (hp : p.spaceCode < 64) (c : Byte) : textCode p c < 64 := by
  unfold textCode; simp only []; split_ifs <;> omega

theorem sixes_txtenc {p : Config.Params} (hp : p.spaceCode < 64) (text : Str) (m : Nat) :
    sixes (txtenc p text m) = (fitText text m).map (textCode p) := by
  have h : txtenc p text m = ((fitText text m).map (textCode p)).flatMap (bitsOf 6) := by
    simp [txtenc, List.flatMap_map]
  rw [h, sixes_flatMap, List.map_map]
  exact List.map_congr_left fun c _ => Nat.mod_eq_of_lt (textCode_lt hp c)

theorem upper_range (c : Byte) : ¬(97 ≤ (upper c).toNat ∧ (upper c).toNat ≤ 122) := by
  unfold upper
  split
  · rw [BitVec.toNat_ofNat]; omega
  · assumption

theorem upper_id {c : Byte} (h : ¬(97 ≤ c.toNat ∧ c.toNat ≤ 122)) : upper c = c := if_neg h

theorem survives_iff (c : Byte) :
    survives c = true ↔ (65 ≤ c.toNat ∧ c.toNat ≤ 90) ∨ (48 ≤ c.toNat ∧ c.toNat ≤ 57) := by
  simp [survives]

theorem survives_upper_id {c : Byte} (h : survives c = true) : upper c = c := by
  rw [survives_iff] at h
  exact upper_id (by omega)

/-- The code of a byte that survives decodes to the byte; every other code decodes to the pad. -/
theorem textByte_textCode (c : Byte) :
    textByte (textCode Config.params c) = if survives c = true then c else padByte := by
  refine BitVec.eq_of_toNat_eq ?_
  rw [textByte_toNat (textCode_lt (by decide) c)]
  have hc := survives_iff c
  by_cases hs : survives c = true
  · rw [if_pos hs]
    rw [hc] at hs
    simp only [textCode, Config.params]
    split_ifs <;> omega
  · rw [if_neg hs]
    rw [hc] at hs
    have : padByte.toNat = 64 := rfl
    rw [this]
    simp only [textCode, Config.params]
    split_ifs <;> omega

theorem survives_ne_pad {c : Byte} (h : survives c = true) : (c != padByte) = true := by
  rw [survives_iff] at h
  rw [bne_iff_ne]
  rintro rfl
  simp [padByte] at h

theorem survives_ne_space {c : Byte} (h : survives c = true) : c ≠ spaceByte := by
  rw [survives_iff] at h
  rintro rfl
  simp [spaceByte] at h

theorem decoded_codes (l : Str) :
    ((l.map (textCode Config.params)).map textByte).filter (· != padByte) = l.filter survives := by
  induction l with
  | nil => rfl
  | cons c l ih =>
    rw [List.map_cons, List.map_cons, List.filter_cons, List.filter_cons, ih, textByte_textCode]
    by_cases hs : survives c = true
    · simp [hs, survives_ne_pad hs]
    · simp [hs]

theorem filter_survives_last (l : Str) : (l.filter survives).getLast? ≠ some spaceByte := by
  intro h
  have hm := List.mem_of_getLast? h
  exact survives_ne_space (List.mem_filter.mp hm).2 rfl

/-- TXTDEC of TXTENC: the letters and digits of the cut, upper-cased text (rule R112). -/
theorem txtdec_txtenc (t : Str) (m : Nat) :
    txtdec (txtenc Config.params t m) = ((t.take m).map upperOf).filter survives := by
  have hu : (upperOf : Byte → Byte) = upper := funext upperOf_eq
  have hpad : (List.replicate (m - t.length) padByte).filter survives = [] := by
    rw [List.filter_eq_nil_iff]
    intro c hc
    rw [List.eq_of_mem_replicate hc]; decide
  have hfit : (fitText t m).filter survives = ((t.take m).map upper).filter survives := by
    rw [fitText_eq, List.filter_append, hpad, List.append_nil, List.map_take]
  unfold txtdec
  simp only [sixes_txtenc (show Config.params.spaceCode < 64 by decide), decoded_codes, hfit, hu]
  exact trim_id (filter_survives_last _)

/-! ### The other round trip (rule R113) -/

/-- The groups a text field must have to survive decoding and encoding: letters and digits, then zeros. -/
def wordThenZeros (g : List Nat) : Prop :=
  ∃ n, n ≤ g.length ∧ ∀ k, k < g.length →
    if k < n then (1 ≤ g.getD k 0 ∧ g.getD k 0 ≤ 26) ∨ (48 ≤ g.getD k 0 ∧ g.getD k 0 ≤ 57) else g.getD k 0 = 0

theorem survives_textByte {v : Nat} (h : v < 64) :
    survives (textByte v) = true ↔ (1 ≤ v ∧ v ≤ 26) ∨ (48 ≤ v ∧ v ≤ 57) := by
  rw [survives_iff, textByte_toNat h]; split <;> omega

theorem textCode_textByte {v : Nat} (h : (1 ≤ v ∧ v ≤ 26) ∨ (48 ≤ v ∧ v ≤ 57)) :
    textCode Config.params (textByte v) = v := by
  have hv : v < 64 := by omega
  have := textByte_toNat hv
  unfold textCode
  simp only [this, Config.params]
  split_ifs <;> omega

theorem wordThenZeros_iff {g : List Nat} :
    wordThenZeros g ↔ ∃ w z, g = w ++ List.replicate z 0 ∧
      ∀ v ∈ w, (1 ≤ v ∧ v ≤ 26) ∨ (48 ≤ v ∧ v ≤ 57) := by
  constructor
  · rintro ⟨n, hn, h⟩
    refine ⟨g.take n, g.length - n, ?_, ?_⟩
    · refine List.ext_getElem? fun k => ?_
      rw [List.getElem?_append, List.length_take, Nat.min_eq_left hn]
      by_cases hk : k < n
      · rw [if_pos hk, List.getElem?_take_of_lt hk]
      · rw [if_neg hk, List.getElem?_replicate]
        by_cases hg : k < g.length
        · have := h k hg
          rw [if_neg hk, List.getD_eq_getElem?_getD, List.getElem?_eq_getElem hg] at this
          rw [if_pos (by omega), List.getElem?_eq_getElem hg]
          exact congrArg some this
        · rw [if_neg (by omega), List.getElem?_eq_none (by omega)]
    · intro v hv
      obtain ⟨k, hk, rfl⟩ := List.mem_iff_getElem.mp hv
      rw [List.length_take] at hk
      have := h k (by omega)
      rw [if_pos (by omega), List.getD_eq_getElem?_getD, List.getElem?_eq_getElem (by omega)] at this
      rw [List.getElem_take]
      exact this
  · rintro ⟨w, z, rfl, hw⟩
    refine ⟨w.length, by simp, fun k hk => ?_⟩
    rw [List.getD_eq_getElem?_getD, List.getElem?_append]
    split
    · rename_i hkw
      rw [List.getElem?_eq_getElem hkw]
      exact hw _ (List.getElem_mem hkw)
    · rw [List.getElem?_replicate]; split <;> rfl

theorem sixes_inj {a b : Bits} (ha : 6 ∣ a.length) (hb : 6 ∣ b.length) (h : sixes a = sixes b) : a = b := by
  rw [← flatMap_sixes ha, ← flatMap_sixes hb, h]

/-- A list whose codes decode to a word: its text. -/
theorem txtdec_word {b : Bits} {w : List Nat} {z : Nat} (hg : sixes b = w ++ List.replicate z 0)
    (hw : ∀ v ∈ w, (1 ≤ v ∧ v ≤ 26) ∨ (48 ≤ v ∧ v ≤ 57)) : txtdec b = w.map textByte := by
  have hs : ∀ c ∈ w.map textByte, survives c = true := by
    intro c hc
    obtain ⟨v, hv, rfl⟩ := List.mem_map.mp hc
    have := hw v hv
    exact (survives_textByte (by omega)).mpr this
  have h1 : (w.map textByte).filter (· != padByte) = w.map textByte :=
    List.filter_eq_self.mpr fun c hc => survives_ne_pad (hs c hc)
  have h2 : ((List.replicate z 0).map textByte).filter (· != padByte) = [] := by
    rw [List.filter_eq_nil_iff]
    intro c hc
    obtain ⟨v, hv, rfl⟩ := List.mem_map.mp hc
    rw [List.eq_of_mem_replicate hv]; decide
  unfold txtdec
  simp only [hg, List.map_append, List.filter_append, h1, h2, List.append_nil]
  refine trim_id fun hlast => ?_
  exact survives_ne_space (hs _ (List.mem_of_getLast? hlast)) rfl

/-- TXTENC of TXTDEC gives the field back exactly when it is a word and zeros (rule R113). -/
theorem txtenc_txtdec_iff {b : Bits} {m : Nat} (hb : b.length = 6 * m) :
    txtenc Config.params (txtdec b) m = b ↔ wordThenZeros (sixes b) := by
  have hsp : Config.params.spaceCode < 64 := by decide
  have hl : (sixes b).length = m := by rw [sixes_length]; omega
  rw [wordThenZeros_iff]
  constructor
  · intro h
    have hg : sixes b = (fitText (txtdec b) m).map (textCode Config.params) := by
      conv_lhs => rw [← h]
      rw [sixes_txtenc hsp]
    -- the decoded text is made of letters and digits, so its codes are a word
    have hs : ∀ c ∈ txtdec b, survives c = true := by
      have h3 := txtdec_txtenc (txtdec b) m
      rw [h] at h3
      intro c hc
      rw [h3] at hc
      exact (List.mem_filter.mp hc).2
    have hlen : (txtdec b).length ≤ m := (txtdec_legal (b := b) (chars := m) (by omega)).1
    refine ⟨(txtdec b).map (textCode Config.params), m - (txtdec b).length, ?_, ?_⟩
    · rw [hg, fitText_eq, List.map_append, List.map_replicate]
      congr 1
      rw [List.take_of_length_le (by simpa using hlen), List.map_map]
      refine List.map_congr_left fun c hc => ?_
      rw [Function.comp, survives_upper_id (hs c hc)]
    · intro v hv
      obtain ⟨c, hc, rfl⟩ := List.mem_map.mp hv
      have h4 := textByte_textCode c
      rw [if_pos (hs c hc)] at h4
      rw [← survives_textByte (textCode_lt hsp c), h4]
      exact hs c hc
  · rintro ⟨w, z, hg, hw⟩
    have ht := txtdec_word hg hw
    have hz : z = m - w.length := by
      have := congrArg List.length hg
      rw [hl, List.length_append, List.length_replicate] at this
      omega
    refine sixes_inj (by rw [txtenc_length]; exact ⟨_, rfl⟩) (by rw [hb]; exact ⟨_, rfl⟩) ?_
    rw [sixes_txtenc hsp, fitText_eq, ht, hg, hz, List.map_append, List.map_replicate, List.length_map]
    congr 1
    have hwl : w.length ≤ m := by
      have := congrArg List.length hg
      rw [hl, List.length_append] at this
      omega
    rw [List.take_of_length_le (by simpa using hwl), List.map_map, List.map_map]
    conv_rhs => rw [← List.map_id w]
    refine List.map_congr_left fun v hv => ?_
    have hr := hw v hv
    have hsv : survives (textByte v) = true := (survives_textByte (by omega)).mpr hr
    simp only [Function.comp, survives_upper_id hsv, textCode_textByte hr, id]

end Sys2Proof.Machine
end

