-- ==== Sys2Proof/Laws/Records.lean ====
section
/-! SUPPORT. Records: MSGDEC is the row its payload decodes to, every decoded row is well formed, and a well-formed row's
record is legal (rules R22, R26, R27, R122 to R134). -/

namespace Sys2Proof.Machine

/-! ### MSGDEC and its rows -/

theorem variantOf_short {r : Rec} {n : Nat} (h : n < 6) : variantOf r n = .unrecognized := if_pos h

/-- VARIANT of at least six bits (rule R26). -/
theorem variantOf_type {r : Rec} {n : Nat} (h : 6 ≤ n) :
    variantOf r n =
      match r.type with
      | 1 => if 168 ≤ n then .positionReportA else .headerOnly
      | 2 => if 168 ≤ n then .positionReportA else .headerOnly
      | 3 => if 168 ≤ n then .positionReportA else .headerOnly
      | 4 => if 168 ≤ n then .baseStationPartial else .headerOnly
      | 5 => if 424 ≤ n then .staticVoyageData else .headerOnly
      | 18 => if 168 ≤ n then .positionReportB else .headerOnly
      | 24 =>
        if 160 ≤ n then
          match r.partNumber with
          | 0 => .staticDataReportA
          | 1 => .staticDataReportB
          | _ => .headerOnly
        else .headerOnly
      | _ => .unrecognized :=
  if_neg (show ¬n < 6 by omega)

theorem variantOf_other {r : Rec} {n : Nat} (h : r.type ∉ Config.supportedTypes) : variantOf r n = .unrecognized := by
  by_cases h6 : n < 6
  · exact variantOf_short h6
  rw [variantOf_type (by omega)]
  split <;> first | rfl | (rename_i hk; rw [hk] at h; exact absurd (by decide) h)

theorem variantOf_shorter {r : Rec} {n : Nat} (h6 : 6 ≤ n) (h : r.type ∈ Config.supportedTypes)
    (hn : n < Config.minBits r.type) : variantOf r n = .headerOnly := by
  simp only [Config.supportedTypes, List.mem_cons, List.not_mem_nil, or_false] at h
  rw [variantOf_type h6]
  rcases h with h | h | h | h | h | h | h <;> rw [h] at hn ⊢ <;> exact if_neg (Nat.not_le.mpr hn)

theorem variantOf_part {r : Rec} {n : Nat} (hn : 160 ≤ n) (ht : r.type = 24) :
    variantOf r n =
      match r.partNumber with
      | 0 => .staticDataReportA
      | 1 => .staticDataReportB
      | _ => .headerOnly := by
  rw [variantOf_type (by omega), ht]; exact if_pos hn

/-- The record MSGDEC fills, with its VARIANT, is the one the row's meaning delivers (rules R78, R122). -/
theorem recordOf_bits (b : Bits) : Except.ok (recordOf (recOfBits b) b.length) = resultOf (decodeBits b) := by
  have h := rowOf_spec b
  unfold recordOf recOfBits decodeBits
  split at h <;> rename_i hr <;> simp only [hr, resultOf] <;> congr 2
  · rw [variantOf_type (by omega), show (recPosA 1 (readPosA b)).type = 1 from rfl]; exact if_pos h.1
  · rw [variantOf_type (by omega), show (recPosA 2 (readPosA b)).type = 2 from rfl]; exact if_pos h.1
  · rw [variantOf_type (by omega), show (recPosA 3 (readPosA b)).type = 3 from rfl]; exact if_pos h.1
  · rw [variantOf_type (by omega), show (recBase (readBase b)).type = 4 from rfl]; exact if_pos h.1
  · rw [variantOf_type (by omega), show (recVoyage (readVoyage b)).type = 5 from rfl]; exact if_pos h.1
  · rw [variantOf_type (by omega), show (recPosB (readPosB b)).type = 18 from rfl]; exact if_pos h.1
  · exact variantOf_part h.1 rfl
  · exact variantOf_part h.1 rfl
  · rw [variantOf_part h.1 rfl]
    have hp : (recPartX (uintAt b 8 30) (uintAt b 38 2)).partNumber = uintAt b 38 2 := rfl
    rw [hp]
    have h2 := h.2.2
    split <;> first | omega | rfl
  · exact variantOf_other h.2
  · exact variantOf_shorter h.1 h.2.1 h.2.2
  · exact variantOf_short h

theorem resultOf_msgdec (payload : Str) : resultOf (.msgdec payload) = resultOf (decodeMessage payload) :=
  recordOf_bits (toBits Config.params payload)

/-! ### Decoded rows are well formed -/

theorem fitsU_uintAt (b : Bits) (s l : Nat) : fitsU l (uintAt b s l) = true := by
  have := uintAt_lt b s l
  simp only [fitsU, Bool.and_eq_true, decide_eq_true_eq]
  exact ⟨by omega, by exact_mod_cast this⟩

theorem fitsS_sintAt {b : Bits} {s l : Nat} (hl : 1 ≤ l) (h : s + l ≤ b.length) : fitsS l (sintAt b s l) = true := by
  have := sintAt_range hl h
  simpa [fitsS] using this

theorem readPosA_fits {b : Bits} (h : 168 ≤ b.length) : (readPosA b).fits = true := by
  simp only [PosA.fits, readPosA, fitsU_uintAt, fitsS_sintAt (l := 8) (by omega) (by omega : 42 + 8 ≤ b.length),
    fitsS_sintAt (l := 28) (by omega) (by omega : 61 + 28 ≤ b.length),
    fitsS_sintAt (l := 27) (by omega) (by omega : 89 + 27 ≤ b.length), Bool.and_self]

theorem readBase_fits {b : Bits} (h : 168 ≤ b.length) : (readBase b).fits = true := by
  simp only [Base.fits, readBase, fitsU_uintAt, fitsS_sintAt (l := 28) (by omega) (by omega : 79 + 28 ≤ b.length),
    fitsS_sintAt (l := 27) (by omega) (by omega : 107 + 27 ≤ b.length), Bool.and_self]

theorem readPosB_fits {b : Bits} (h : 168 ≤ b.length) : (readPosB b).fits = true := by
  simp only [PosB.fits, readPosB, fitsU_uintAt, fitsS_sintAt (l := 28) (by omega) (by omega : 57 + 28 ≤ b.length),
    fitsS_sintAt (l := 27) (by omega) (by omega : 85 + 27 ≤ b.length), Bool.and_self]

theorem readVoyage_fits (b : Bits) : (readVoyage b).fits = true := by
  simp only [Voyage.fits, readVoyage, fitsU_uintAt, Bool.and_self]

theorem readNameA_fits (b : Bits) : (readNameA b).fits = true := fitsU_uintAt _ _ _

theorem readStaticB_fits (b : Bits) : (readStaticB b).fits = true := by
  simp only [StaticB.fits, readStaticB, fitsU_uintAt, Bool.and_self]

theorem readMmsi_ok (b : Bits) : mmsiOk (readMmsi b) = true := by
  unfold readMmsi
  split
  · exact fitsU_uintAt _ _ _
  · rfl

theorem isSupported_nat (t : Nat) : isSupported t = decide (t ∈ Config.supportedTypes) := by
  simp [isSupported]

/-- What a message bit string decodes to is written as a message: it is one of the twelve rows of format MSG. -/
theorem decodeBits_isMessage (b : Bits) : ∃ q, encode (decodeBits b) = .message q := by
  unfold decodeBits
  split <;> exact ⟨_, rfl⟩

/-- A message bit string is a well-formed row: no field of a layout lies outside it, and every value fits its width
(rule R49). -/
theorem decodeBits_wellFormed (b : Bits) : WellFormed (decodeBits b) = true := by
  have h := rowOf_spec b
  unfold decodeBits
  split at h <;> rename_i hr <;> simp only [hr, WellFormed]
  · exact readPosA_fits h.1
  · exact readPosA_fits h.1
  · exact readPosA_fits h.1
  · exact readBase_fits h.1
  · have h1 : (readVoyage b).callsign.length = 42 := slice_length b (by omega)
    have h2 : (readVoyage b).shipName.length = 120 := slice_length b (by omega)
    simp only [readVoyage_fits, textWidth, h1, h2]; decide
  · exact readPosB_fits h.1
  · have h2 : (readNameA b).shipName.length = 120 := slice_length b (by omega)
    simp only [readNameA_fits, textWidth, h2]; decide
  · have h1 : (readStaticB b).callsign.length = 42 := slice_length b (by omega)
    simp only [readStaticB_fits, textWidth, h1]; decide
  · have := uintAt_lt b 38 2
    simp only [fitsU_uintAt, Bool.true_and, Bool.or_eq_true, beq_iff_eq]
    omega
  · rw [isSupported_nat, decide_eq_false h.2, readMmsi_ok, fitsU_uintAt]; rfl
  · rw [isSupported_nat, decide_eq_true h.2.1, readMmsi_ok]; rfl

/-! ### Records are legal -/

theorem fitsU_toNat {l : Nat} {x : Int} (h : fitsU l x = true) : x.toNat < 2 ^ l ∧ (x.toNat : Int) = x := by
  simp only [fitsU, Bool.and_eq_true, decide_eq_true_eq] at h
  exact ⟨by zify; rw [Int.toNat_of_nonneg h.1]; exact h.2, Int.toNat_of_nonneg h.1⟩

theorem fitsS_range {l : Nat} {x : Int} (h : fitsS l x = true) : -(2 ^ (l - 1)) ≤ x ∧ x < 2 ^ (l - 1) := by
  simpa [fitsS] using h

theorem legalText_nil (chars : Nat) : legalText chars [] := ⟨by simp, by simp, by simp⟩

theorem zero_inRange : Rec.zero.InRange := by
  constructor <;> first | exact legalText_nil _ | decide

theorem recPosA_legal {t : Nat} {f : PosA} (ht : t = 1 ∨ t = 2 ∨ t = 3) (hf : f.fits = true) :
    (recPosA t f).Legal .positionReportA := by
  simp only [PosA.fits, Bool.and_eq_true] at hf
  obtain ⟨⟨⟨⟨⟨⟨⟨⟨h1, h2⟩, h3⟩, h4⟩, h5⟩, h6⟩, h7⟩, h8⟩, h9⟩ := hf
  refine ⟨?_, rfl, ht⟩
  exact { zero_inRange with
    type := by simp only [recPosA]; omega
    mmsi := (fitsU_toNat h1).1
    navStatus := (fitsU_toNat h2).1
    rot := fitsS_range h3
    sogRaw := (fitsU_toNat h4).1
    lonRaw := fitsS_range h5
    latRaw := fitsS_range h6
    cogRaw := (fitsU_toNat h7).1
    heading := (fitsU_toNat h8).1
    timestamp := (fitsU_toNat h9).1 }

theorem recBase_legal {f : Base} (hf : f.fits = true) : (recBase f).Legal .baseStationPartial := by
  simp only [Base.fits, Bool.and_eq_true] at hf
  obtain ⟨⟨h1, h2⟩, h3⟩ := hf
  refine ⟨?_, rfl, rfl⟩
  exact { zero_inRange with
    type := (by decide : 4 < 2 ^ 6)
    mmsi := (fitsU_toNat h1).1
    lonRaw := fitsS_range h2
    latRaw := fitsS_range h3 }

theorem recPosB_legal {f : PosB} (hf : f.fits = true) : (recPosB f).Legal .positionReportB := by
  simp only [PosB.fits, Bool.and_eq_true] at hf
  obtain ⟨⟨⟨⟨⟨h1, h2⟩, h3⟩, h4⟩, h5⟩, h6⟩ := hf
  refine ⟨?_, rfl, rfl⟩
  exact { zero_inRange with
    type := (by decide : 18 < 2 ^ 6)
    mmsi := (fitsU_toNat h1).1
    sogRaw := (fitsU_toNat h2).1
    lonRaw := fitsS_range h3
    latRaw := fitsS_range h4
    cogRaw := (fitsU_toNat h5).1
    heading := (fitsU_toNat h6).1 }

theorem recVoyage_legal {f : Voyage Bits} (hf : f.fits = true) (hc : f.callsign.length = 42)
    (hn : f.shipName.length = 120) : (recVoyage f).Legal .staticVoyageData := by
  simp only [Voyage.fits, Bool.and_eq_true] at hf
  obtain ⟨⟨⟨⟨⟨⟨h1, h2⟩, h3⟩, h4⟩, h5⟩, h6⟩, h7⟩ := hf
  refine ⟨?_, rfl, rfl⟩
  exact { zero_inRange with
    type := (by decide : 5 < 2 ^ 6)
    mmsi := (fitsU_toNat h1).1
    imo := (fitsU_toNat h2).1
    callsign := txtdec_legal (by omega)
    shipName := txtdec_legal (by omega)
    shipType := (fitsU_toNat h3).1
    dimA := (fitsU_toNat h4).1
    dimB := (fitsU_toNat h5).1
    dimC := (fitsU_toNat h6).1
    dimD := (fitsU_toNat h7).1 }

theorem recNameA_legal {f : NameA Bits} (hf : f.fits = true) (hn : f.shipName.length = 120) :
    (recNameA f).Legal .staticDataReportA := by
  refine ⟨?_, rfl, rfl⟩
  exact { zero_inRange with
    type := (by decide : 24 < 2 ^ 6)
    mmsi := (fitsU_toNat hf).1
    shipName := txtdec_legal (by omega) }

theorem recStaticB_legal {f : StaticB Bits} (hf : f.fits = true) (hc : f.callsign.length = 42) :
    (recStaticB f).Legal .staticDataReportB := by
  simp only [StaticB.fits, Bool.and_eq_true] at hf
  obtain ⟨⟨⟨⟨⟨h1, h2⟩, h3⟩, h4⟩, h5⟩, h6⟩ := hf
  refine ⟨?_, rfl, rfl⟩
  exact { zero_inRange with
    type := (by decide : 24 < 2 ^ 6)
    mmsi := (fitsU_toNat h1).1
    callsign := txtdec_legal (by omega)
    shipType := (fitsU_toNat h2).1
    dimA := (fitsU_toNat h3).1
    dimB := (fitsU_toNat h4).1
    dimC := (fitsU_toNat h5).1
    dimD := (fitsU_toNat h6).1
    partNumber := (by decide : 1 < 2 ^ 2) }

theorem recPartX_legal {mmsi part : Int} (hm : fitsU 30 mmsi = true) (hp : part = 2 ∨ part = 3) :
    (recPartX mmsi part).Legal .headerOnly := by
  refine ⟨?_, rfl, (by decide : 24 ∈ Config.supportedTypes)⟩
  exact { zero_inRange with
    type := (by decide : 24 < 2 ^ 6)
    mmsi := (fitsU_toNat hm).1
    partNumber := by simp only [recPartX]; omega }

theorem recHeader_inRange {type : Int} {mmsi : Option Int} (ht : fitsU 6 type = true) (hm : mmsiOk mmsi = true) :
    (recHeader type mmsi).InRange := by
  refine { zero_inRange with type := (fitsU_toNat ht).1, mmsi := ?_ }
  cases mmsi with
  | none => exact (by decide : 0 < 2 ^ 30)
  | some m => exact (fitsU_toNat hm).1

theorem isSupported_iff {type : Int} : isSupported type = true ↔ 0 ≤ type ∧ type.toNat ∈ Config.supportedTypes := by
  simp [isSupported]

theorem supported_fits {type : Int} (h : isSupported type = true) : fitsU 6 type = true := by
  rw [isSupported_iff] at h
  simp only [Config.supportedTypes, List.mem_cons, List.not_mem_nil, or_false] at h
  simp only [fitsU, Bool.and_eq_true, decide_eq_true_eq]
  omega

theorem recHeader_unrecognized {type : Int} {mmsi : Option Int} (ht : fitsU 6 type = true)
    (hs : isSupported type = false) (hm : mmsiOk mmsi = true) : (recHeader type mmsi).Legal .unrecognized := by
  refine ⟨recHeader_inRange ht hm, rfl, fun h => ?_⟩
  have h0 : 0 ≤ type := by
    simp only [fitsU, Bool.and_eq_true, decide_eq_true_eq] at ht; exact ht.1
  rw [isSupported_iff.mpr ⟨h0, h⟩] at hs
  cases hs

theorem recHeader_headerOnly {type : Int} {mmsi : Option Int} (hs : isSupported type = true)
    (hm : mmsiOk mmsi = true) : (recHeader type mmsi).Legal .headerOnly :=
  ⟨recHeader_inRange (supported_fits hs) hm, rfl, (isSupported_iff.mp hs).2⟩

theorem zero_legal : Rec.zero.Legal .unrecognized := ⟨zero_inRange, rfl, (by decide : 0 ∉ Config.supportedTypes)⟩

/-- A decoded message's record is legal. -/
theorem msgdec_legal (payload : Str) : (msgdecResponse Config.params payload).Legal := by
  have h : Except.ok (msgdecResponse Config.params payload) = resultOf (decodeMessage payload) :=
    recordOf_bits (toBits Config.params payload)
  have hw : WellFormed (decodeMessage payload) = true := decodeBits_wellFormed _
  unfold decodeMessage decodeBits at h hw
  split at h <;> rename_i hr <;> simp only [hr, WellFormed, Bool.and_eq_true] at hw <;>
    simp only [resultOf, Except.ok.injEq] at h <;> rw [h]
  · exact recPosA_legal (.inl rfl) hw
  · exact recPosA_legal (.inr (.inl rfl)) hw
  · exact recPosA_legal (.inr (.inr rfl)) hw
  · exact recBase_legal hw
  · exact recVoyage_legal hw.1.1 (by simpa [textWidth, Config.callsignChars] using hw.1.2)
      (by simpa [textWidth, Config.nameChars] using hw.2)
  · exact recPosB_legal hw
  · exact recNameA_legal hw.1 (by simpa [textWidth, Config.nameChars] using hw.2)
  · exact recStaticB_legal hw.1 (by simpa [textWidth, Config.callsignChars] using hw.2)
  · exact recPartX_legal hw.1 (by simpa using hw.2)
  · exact recHeader_unrecognized hw.1.1 (by simpa using hw.1.2) hw.2
  · exact recHeader_headerOnly hw.1 hw.2
  · exact zero_legal

end Sys2Proof.Machine
end

