-- ==== Sys2Proof/Laws/Sentences.lean ====
section
/-! SUPPORT. Sentences: splitting, the checksum's delimiters, the spellings, and what FRAME makes (rules R60 to R63, R170
to R176). -/

namespace Sys2Proof.Machine

open Sys2Proof.Spec

/-! ### SPLIT (rule R172) -/

theorem split_ne_nil (t : Str) : split t ≠ [] := by
  cases t with
  | nil => simp [split]
  | cons c t =>
    unfold split
    split
    · simp
    · split <;> simp

theorem split_comma (t : Str) : split (comma :: t) = [] :: split t := by
  rw [split, if_pos rfl]

theorem split_cons {c : Byte} (h : c ≠ comma) {t f : Str} {fs : List Str} (ht : split t = f :: fs) :
    split (c :: t) = (c :: f) :: fs := by
  rw [split, if_neg h, ht]

/-- The shape of a split, one byte at a time. -/
theorem split_head (t : Str) : ∃ f fs, split t = f :: fs := by
  cases h : split t with
  | nil => exact absurd h (split_ne_nil t)
  | cons f fs => exact ⟨f, fs, rfl⟩

/-- Bytes free of commas before a line go to the first field. -/
theorem split_append_free {a : Str} (ha : comma ∉ a) {t f : Str} {fs : List Str} (ht : split t = f :: fs) :
    split (a ++ t) = (a ++ f) :: fs := by
  induction a with
  | nil => exact ht
  | cons c a ih =>
    simp only [List.mem_cons, not_or] at ha
    exact split_cons (Ne.symm ha.1) (ih ha.2)

theorem split_free {a : Str} (ha : comma ∉ a) : split a = [a] := by
  have := split_append_free ha (t := []) (f := []) (fs := []) rfl
  simpa using this

/-- A field and a comma before a line are one more field. -/
theorem split_field {a : Str} (ha : comma ∉ a) (t : Str) : split (a ++ comma :: t) = a :: split t := by
  have := split_append_free ha (split_comma t)
  simpa using this

theorem split_isFields (t : Str) : IsFields (split t) := by
  refine ⟨split_ne_nil t, ?_⟩
  induction t with
  | nil => simp [split]
  | cons c t ih =>
    by_cases hc : c = comma
    · subst hc; rw [split_comma]
      intro f hf
      rcases List.mem_cons.mp hf with rfl | hf
      · simp
      · exact ih f hf
    · obtain ⟨f, fs, h⟩ := split_head t
      rw [split_cons hc h]
      rw [h] at ih
      intro g hg
      rcases List.mem_cons.mp hg with rfl | hg
      · have := ih f (by simp)
        simp only [List.mem_cons, not_or]
        exact ⟨fun h => hc h.symm, this⟩
      · exact ih g (by simp [hg])

theorem lineOf_cons (a : Str) {l : List Str} (h : l ≠ []) : lineOf (a :: l) = a ++ comma :: lineOf l := by
  cases l with
  | nil => exact absurd rfl h
  | cons b l =>
    simp only [lineOf, List.intercalate, List.intersperse, List.flatten_cons]
    rfl

theorem lineOf_one (a : Str) : lineOf [a] = a := by simp [lineOf, List.intercalate]

theorem lineOf_split (t : Str) : lineOf (split t) = t := by
  induction t with
  | nil => rfl
  | cons c t ih =>
    by_cases hc : c = comma
    · subst hc; rw [split_comma, lineOf_cons _ (split_ne_nil t), ih]; rfl
    · obtain ⟨f, fs, h⟩ := split_head t
      rw [split_cons hc h]
      rw [h] at ih
      by_cases hfs : fs = []
      · subst hfs; rw [lineOf_one] at ih ⊢; rw [ih]
      · rw [lineOf_cons _ hfs] at ih ⊢; rw [← ih]; rfl

theorem split_lineOf {l : List Str} (h : IsFields l) : split (lineOf l) = l := by
  obtain ⟨hne, hfree⟩ := h
  induction l with
  | nil => exact absurd rfl hne
  | cons a l ih =>
    have ha : comma ∉ a := hfree a (by simp)
    by_cases hl : l = []
    · subst hl; rw [lineOf_one, split_free ha]
    · rw [lineOf_cons _ hl, split_field ha, ih hl fun f hf => hfree f (by simp [hf])]

theorem split_length (t : Str) : (split t).length = t.count comma + 1 := by
  induction t with
  | nil => rfl
  | cons c t ih =>
    by_cases hc : c = comma
    · subst hc; rw [split_comma, List.length_cons, ih, List.count_cons_self]
    · obtain ⟨f, fs, h⟩ := split_head t
      rw [split_cons hc h, List.count_cons_of_ne hc, ← ih, h]; rfl

/-- A line of at least two fields contains a comma. -/
theorem comma_mem_of_fields {t : Str} (h : 2 ≤ (split t).length) : comma ∈ t := by
  rw [split_length] at h
  exact List.count_pos_iff.mp (by omega)

/-! ### ISVALID (rule R170) -/

theorem isValid_iff (line pfx : Str) : isValid line pfx = true ↔ pfx <+: line ∧ comma ∈ line := by
  unfold isValid
  rw [Bool.and_eq_true, beq_iff_eq, List.contains_iff_mem]
  refine and_congr_left fun _ => ?_
  rw [List.prefix_iff_eq_take]
  exact eq_comm

/-- Bytes free of commas are a prefix of a line when they are a prefix of its first field. -/
theorem prefix_lineOf_iff {a : Str} (ha : comma ∉ a) {f : Str} {l : List Str} :
    a <+: lineOf (f :: l) ↔ a <+: f := by
  by_cases hl : l = []
  · subst hl; rw [lineOf_one]
  rw [lineOf_cons _ hl]
  induction a generalizing f with
  | nil => simp
  | cons c a ih =>
    simp only [List.mem_cons, not_or] at ha
    cases f with
    | nil =>
      refine iff_of_false (fun h => ?_) (by simp)
      exact ha.1 (List.cons_prefix_cons.mp h).1.symm
    | cons d f =>
      rw [List.cons_append, List.cons_prefix_cons, List.cons_prefix_cons, ih ha.2]

/-! ### The checksum (rules R173, R176) -/

theorem xorOf_eq (body : Str) : xorOf body = xor8 body := by
  have h : ∀ (l : Str) (x : BitVec 8), l.foldl (· ^^^ ·) x = x ^^^ l.foldr (fun c x => c ^^^ x) 0#8 := by
    intro l
    induction l with
    | nil => intro x; simp
    | cons c l ih => intro x; rw [List.foldl_cons, ih, List.foldr_cons, BitVec.xor_assoc]
  rw [xorOf, xor8, h]
  simp

theorem xor8_lt (body : Str) : xor8 body < 256 := BitVec.isLt _

theorem hexOf_eq {n : Nat} (h : n < 256) : hexOf n = hex2 n := by
  have hd : ∀ d : Fin 16, (ascii "0123456789ABCDEF").getD d.val 0#8 = hexDigit d.val := by decide
  have h1 := hd ⟨n / 16, by omega⟩
  have h2 := hd ⟨n % 16, by omega⟩
  simp only at h1 h2
  rw [hexOf, hex2, h1, h2]

theorem hex2_length (n : Nat) : (hex2 n).length = 2 := rfl

/-- Cutting a string at its first `*`. -/
theorem cut_star {body : Str} (h : star ∉ body) (after : Str) :
    (body ++ star :: after).takeWhile (· != star) = body ∧
      (body ++ star :: after).dropWhile (· != star) = star :: after := by
  induction body with
  | nil => simp
  | cons c body ih =>
    simp only [List.mem_cons, not_or] at h
    have hc : (c != star) = true := by rw [bne_iff_ne]; exact Ne.symm h.1
    obtain ⟨i1, i2⟩ := ih h.2
    simp [hc, i1, i2]

theorem delimited_body {body : Str} (h : star ∉ body) (after : Str) :
    delimited (bang :: (body ++ star :: after)) = some (body, after) := by
  obtain ⟨h1, h2⟩ := cut_star h after
  simp only [delimited, if_true, h1, h2]

theorem delimited_some {t body after : Str} (h : delimited t = some (body, after)) :
    star ∉ body ∧ t = bang :: (body ++ star :: after) := by
  cases t with
  | nil => simp [delimited] at h
  | cons c rest =>
    rw [delimited] at h
    by_cases hc : c = bang
    · rw [if_pos hc] at h
      cases hd : rest.dropWhile (· != star) with
      | nil => rw [hd] at h; simp at h
      | cons x after' =>
        rw [hd] at h
        simp only [Option.some.injEq, Prod.mk.injEq] at h
        have hx : x = star := by
          have := List.head?_dropWhile_not (p := (· != star)) (l := rest)
          rw [hd] at this
          simpa using this
        have hmem : star ∉ rest.takeWhile (· != star) := fun hm => by
          have := List.mem_takeWhile_imp hm
          simp at this
        have happ := List.takeWhile_append_dropWhile (p := (· != star)) (l := rest)
        rw [hd, h.1, h.2, hx] at happ
        rw [h.1] at hmem
        exact ⟨hmem, by rw [hc, happ]⟩
    · rw [if_neg hc] at h; simp at h

theorem delimited_none {t : Str} (h : t.head? ≠ some bang ∨ star ∉ t) : delimited t = none := by
  cases hd : delimited t with
  | none => rfl
  | some x =>
    obtain ⟨hb, rfl⟩ := delimited_some (t := t) (body := x.1) (after := x.2) hd
    rcases h with h | h
    · exact absurd rfl h
    · exact absurd (by simp) h

/-- A string that starts with `!` and holds a `*` is a body between the two and a rest. -/
theorem delimited_shape {t : Str} (h : t.head? = some bang) (hs : star ∈ t) :
    ∃ body after, star ∉ body ∧ t = bang :: (body ++ star :: after) := by
  cases t with
  | nil => simp at h
  | cons c rest =>
    obtain rfl : c = bang := by simpa using h
    have hr : star ∈ rest := by
      rcases List.mem_cons.mp hs with h' | h'
      · exact absurd h' (by decide)
      · exact h'
    obtain ⟨a, b, rfl, ha⟩ := List.eq_append_cons_of_mem hr
    exact ⟨a, b, ha, rfl⟩

theorem chksum_body {body : Str} (h : star ∉ body) (after : Str) :
    chksum (bang :: (body ++ star :: after)) = .ok (xor8 body) := by
  rw [chksum, delimited_body h]

theorem chksum_none {t : Str} (h : t.head? ≠ some bang ∨ star ∉ t) : chksum t = .error .noDelimiter := by
  rw [chksum, delimited_none h]

theorem chkvfy_iff (t : Str) :
    chkvfy t = true ↔ ∃ body rest, star ∉ body ∧ t = bang :: (body ++ star :: (hex2 (xor8 body) ++ rest)) := by
  rw [chkvfy]
  constructor
  · intro h
    cases hd : delimited t with
    | none => rw [hd] at h; simp at h
    | some x =>
      obtain ⟨body, after⟩ := x
      rw [hd] at h
      obtain ⟨hb, ht⟩ := delimited_some hd
      have hx : after.take 2 = hex2 (xor8 body) := by simpa using h
      exact ⟨body, after.drop 2, hb, by rw [ht, ← hx, List.take_append_drop]⟩
  · rintro ⟨body, rest, hb, rfl⟩
    rw [delimited_body hb]
    have : (hex2 (xor8 body) ++ rest).take 2 = hex2 (xor8 body) := by
      rw [List.take_append_of_le_length (by rw [hex2_length]), List.take_of_length_le (by rw [hex2_length])]
    simp [this]

/-! ### Spellings (rule R14) -/

theorem decLoop_eq (fuel n : Nat) (ds : List Char) :
    decLoop fuel n (ds.map fun c => BitVec.ofNat 8 c.toNat) =
      (Nat.toDigitsCore 10 fuel n ds).map fun c => BitVec.ofNat 8 c.toNat := by
  have hd : ∀ d : Fin 10, BitVec.ofNat 8 (Nat.digitChar d.val).toNat = BitVec.ofNat 8 (48 + d.val) := by decide
  induction fuel generalizing n ds with
  | zero => rfl
  | succ fuel ih =>
    have h := hd ⟨n % 10, Nat.mod_lt _ (by omega)⟩
    simp only at h
    rw [decLoop, Nat.toDigitsCore]
    split
    · rw [List.map_cons, h]
    · rw [← h, ← List.map_cons (f := fun c : Char => BitVec.ofNat 8 c.toNat), ih]

theorem decimalOf_eq (n : Nat) : decimalOf n = dec n := (decLoop_eq (n + 1) n []).symm

/-- A byte that is a decimal digit. -/
def isDigit (c : Byte) : Prop := 48 ≤ c.toNat ∧ c.toNat ≤ 57

theorem decLoop_digits (fuel n : Nat) (acc : Str) (h : ∀ c ∈ acc, isDigit c) :
    ∀ c ∈ decLoop fuel n acc, isDigit c := by
  have hd : isDigit (BitVec.ofNat 8 (48 + n % 10)) := by
    rw [isDigit, BitVec.toNat_ofNat]; omega
  induction fuel generalizing n acc with
  | zero => exact h
  | succ fuel ih =>
    have hc : ∀ c ∈ BitVec.ofNat 8 (48 + n % 10) :: acc, isDigit c := by
      intro c hc
      rcases List.mem_cons.mp hc with rfl | hc
      · exact hd
      · exact h c hc
    rw [decLoop]
    split
    · exact hc
    · exact ih _ _ hc (by rw [isDigit, BitVec.toNat_ofNat]; omega)

theorem dec_digits (n : Nat) : ∀ c ∈ dec n, isDigit c := decLoop_digits _ _ _ (by simp)

theorem comma_not_mem_dec (n : Nat) : comma ∉ dec n := fun h => by
  have := dec_digits n _ h
  simp [isDigit, comma] at this

theorem star_not_mem_dec (n : Nat) : star ∉ dec n := fun h => by
  have := dec_digits n _ h
  simp [isDigit, star] at this

theorem hexDigit_ne {d : Nat} (h : d < 16) : hexDigit d ≠ comma ∧ hexDigit d ≠ star := by
  have : ∀ d : Fin 16, hexDigit d.val ≠ comma ∧ hexDigit d.val ≠ star := by decide
  exact this ⟨d, h⟩

theorem comma_not_mem_hex2 {n : Nat} (h : n < 256) : comma ∉ hex2 n := by
  simp only [hex2, List.mem_cons, List.not_mem_nil, or_false, not_or]
  exact ⟨(hexDigit_ne (by omega)).1.symm, (hexDigit_ne (by omega)).1.symm⟩

/-! ### One sentence (rules R62, R174) -/

/-- One of the two tags. -/
def isTag (tag : Str) : Prop := tag = Config.tagVDM ∨ tag = Config.tagVDO

theorem isTag_shape {tag : Str} (h : isTag tag) :
    tag = bang :: slice tag 1 5 ∧ comma ∉ tag ∧ star ∉ tag ∧ slice tag 1 5 = tag.drop 1 := by
  rcases h with rfl | rfl <;> decide

theorem sentence_eq {tag : Str} (h : isTag tag) (n i : Nat) (chunk : Str) :
    sentence tag n i chunk = sentenceOf tag n i chunk := by
  simp only [sentence, sentenceOf, sentenceBody, (isTag_shape h).2.2.2, decimalOf_eq, xorOf_eq,
    hexOf_eq (xor8_lt _)]

/-- The seven fields of a sentence. -/
def sentenceFields (tag : Str) (n i : Nat) (chunk : Str) : List Str :=
  [tag, dec n, dec i, [], ascii "A", chunk, ascii "0*" ++ hex2 (xor8 (sentenceBody tag n i chunk))]

theorem sentence_lineOf {tag : Str} (h : isTag tag) (n i : Nat) (chunk : Str) :
    sentence tag n i chunk = lineOf (sentenceFields tag n i chunk) := by
  have h1 : ascii "!" = [bang] := by decide
  have h2 : ascii "," = [comma] := by decide
  have h3 : ascii ",,A," = [comma, comma] ++ ascii "A" ++ [comma] := by decide
  have h4 : ascii ",0" = [comma] ++ ascii "0" := by decide
  have h6 : ascii "0*" = ascii "0" ++ ascii "*" := by decide
  have h5 := (isTag_shape h).1
  have key : ∀ x : Str, ascii "!" ++ sentenceBody tag n i chunk ++ ascii "*" ++ x =
      lineOf [tag, dec n, dec i, [], ascii "A", chunk, ascii "0*" ++ x] := by
    intro x
    rw [lineOf_cons _ (by simp), lineOf_cons _ (by simp), lineOf_cons _ (by simp), lineOf_cons _ (by simp),
      lineOf_cons _ (by simp), lineOf_cons _ (by simp), lineOf_one]
    conv_rhs => rw [h5]
    simp only [sentenceBody, h1, h2, h3, h4, h6, List.append_assoc, List.cons_append, List.nil_append]
  exact key _

theorem sentenceFields_isFields {tag : Str} (h : isTag tag) (n i : Nat) {chunk : Str} (hc : comma ∉ chunk) :
    IsFields (sentenceFields tag n i chunk) := by
  refine ⟨by simp [sentenceFields], fun f hf => ?_⟩
  have h0 : comma ∉ ascii "0*" := by decide
  have hA : comma ∉ ascii "A" := by decide
  have hx := comma_not_mem_hex2 (xor8_lt (sentenceBody tag n i chunk))
  simp only [sentenceFields, List.mem_cons, List.not_mem_nil, or_false] at hf
  rcases hf with rfl | rfl | rfl | rfl | rfl | rfl | rfl
  · exact (isTag_shape h).2.1
  · exact comma_not_mem_dec n
  · exact comma_not_mem_dec i
  · simp
  · exact hA
  · exact hc
  · intro hm
    rcases List.mem_append.mp hm with hm | hm
    · exact h0 hm
    · exact hx hm

theorem split_sentence {tag : Str} (h : isTag tag) (n i : Nat) {chunk : Str} (hc : comma ∉ chunk) :
    split (sentence tag n i chunk) = sentenceFields tag n i chunk := by
  rw [sentence_lineOf h, split_lineOf (sentenceFields_isFields h n i hc)]

theorem isValid_sentence {tag : Str} (h : isTag tag) (n i : Nat) (chunk : Str) :
    isValid (sentence tag n i chunk) tag = true := by
  rw [isValid_iff, sentence_lineOf h]
  have hl : lineOf (sentenceFields tag n i chunk) = tag ++ comma :: lineOf (sentenceFields tag n i chunk).tail :=
    lineOf_cons tag (by simp)
  rw [hl]
  exact ⟨List.prefix_append _ _, by simp⟩

theorem star_not_mem_body {tag : Str} (h : isTag tag) (n i : Nat) {chunk : Str} (hc : star ∉ chunk) :
    star ∉ sentenceBody tag n i chunk := by
  have h0 : star ∉ slice tag 1 5 := by
    rw [(isTag_shape h).2.2.2]; exact fun hm => (isTag_shape h).2.2.1 (List.mem_of_mem_drop hm)
  have h1 : star ∉ ascii "," := by decide
  have h2 : star ∉ ascii ",,A," := by decide
  have h3 : star ∉ ascii ",0" := by decide
  simp only [sentenceBody, List.mem_append, not_or]
  exact ⟨⟨⟨⟨⟨⟨⟨h0, h1⟩, star_not_mem_dec n⟩, h1⟩, star_not_mem_dec i⟩, h2⟩, hc⟩, h3⟩

/-- A sentence whose chunk holds no `*`: its body, its checksum, and nothing after. -/
theorem sentence_shape (tag : Str) (n i : Nat) (chunk : Str) :
    sentence tag n i chunk =
      bang :: (sentenceBody tag n i chunk ++ star :: hex2 (xor8 (sentenceBody tag n i chunk))) := by
  have h1 : ascii "!" = [bang] := by decide
  have h2 : ascii "*" = [star] := by decide
  simp [sentence, h1, h2]

/-! ### FRAME (rules R174, R175) -/

theorem frame_ok {tag : Str} (h : isTag tag) (payload : Str) :
    frame payload tag = .ok ((List.range (fragments payload)).map fun k =>
      sentence tag (fragments payload) (k + 1) (slice payload (62 * k) 62)) :=
  if_neg (by rcases h with h | h <;> simp [h])

theorem frame_bad {tag : Str} (h : ¬isTag tag) (payload : Str) : frame payload tag = .error .badTag :=
  if_pos (by simpa [isTag, not_or] using h)

/-- When FRAME answers, its tag was one of the two. -/
theorem frame_inv {payload tag : Str} {l : List Str} (h : frame payload tag = .ok l) :
    isTag tag ∧ l = (List.range (fragments payload)).map fun k =>
      sentence tag (fragments payload) (k + 1) (slice payload (62 * k) 62) := by
  by_cases ht : isTag tag
  · rw [frame_ok ht] at h; exact ⟨ht, (Except.ok.inj h).symm⟩
  · rw [frame_bad ht] at h; cases h

theorem fragments_eq (payload : Str) : fragments payload = (payload.length + 61) / 62 := rfl

/-- The chunks joined are the payload. -/
theorem chunks_join (payload : Str) (m : Nat) :
    (List.range m).flatMap (fun k => slice payload (62 * k) 62) = payload.take (62 * m) := by
  induction m with
  | zero => simp
  | succ m ih =>
    rw [List.range_succ, List.flatMap_append, ih, List.flatMap_singleton, Nat.mul_succ, List.take_add]
    rfl

theorem slice_sublist (payload : Str) (s l : Nat) : ∀ c ∈ slice payload s l, c ∈ payload := by
  intro c hc
  exact List.mem_of_mem_drop (List.mem_of_mem_take hc)

/-- The sentences of a payload free of commas carry it whole (rule R175). -/
theorem carried_frame {tag payload : Str} (h : isTag tag) (hc : comma ∉ payload) :
    carried ((List.range (fragments payload)).map fun k =>
      sentence tag (fragments payload) (k + 1) (slice payload (62 * k) 62)) = payload := by
  rw [carried, List.flatMap_map]
  have : ∀ k, (split (sentence tag (fragments payload) (k + 1) (slice payload (62 * k) 62))).getD 5 []
      = slice payload (62 * k) 62 := by
    intro k
    rw [split_sentence h _ _ fun hm => hc (slice_sublist payload _ _ _ hm)]
    rfl
  simp only [this]
  rw [chunks_join, List.take_of_length_le (by rw [fragments_eq]; omega)]

theorem armor_free {b : Bits} : comma ∉ toArmor b ∧ star ∉ toArmor b := by
  constructor <;> intro h <;> have := toArmor_inArmor b _ h <;> simp [inArmor, comma, star] at this

end Sys2Proof.Machine
end

