-- ==== Sys2Proof/Laws/Encoders.lean ====
section
/-! SUPPORT. The encoders: each is the framed, armored message of its fields, or refuses a value that does not fit (rules
R150 to R160). -/

namespace Sys2Proof.Machine

open Sys2Proof.Spec
open Sys2Proof.Config (EncLayout)

/-- The sentences that carry the message bits `b` (rule R150). -/
def sentencesOf (b : Bits) : List Str :=
  (List.range (fragments (toArmor b))).map fun k =>
    sentence Config.tagVDM (fragments (toArmor b)) (k + 1) (slice (toArmor b) (62 * k) 62)

theorem frame_toArmor (b : Bits) : frame (toArmor b) Config.tagVDM = .ok (sentencesOf b) := frame_ok (.inl rfl) _

theorem sentencesOf_length (b : Bits) : (sentencesOf b).length = ((b.length + 5) / 6 + 61) / 62 := by
  rw [sentencesOf, List.length_map, List.length_range, fragments_eq, toArmor_length]

theorem carried_sentencesOf (b : Bits) : carried (sentencesOf b) = toArmor b :=
  carried_frame (.inl rfl) armor_free.1

/-- An encoder's message, with its checks (rules R150, R152). -/
theorem encodeMessage_eq {layout : EncLayout} {n : Nat} {type mmsi : Int} {fs : List Put}
    (g : GoodLayout n type mmsi fs) (hn : Config.params.encBits layout = n) :
    encodeMessage Config.params layout type mmsi fs =
      if (headerPuts type mmsi ++ fs).all putFits = true then .ok (sentencesOf (messageBits n type mmsi fs))
      else .error .valueOutOfRange := by
  rw [encodeMessage, hn, insertAll_of_inside _ _ (by rw [zeros, List.length_replicate]; exact g.inside)]
  by_cases h : (headerPuts type mmsi ++ fs).all putFits = true
  · rw [if_pos h, if_pos h, ← frame_toArmor]; rfl
  · rw [if_neg h, if_neg h]

theorem posA_putFits (type : Int) (f : PosA) :
    (headerPuts type f.mmsi ++ f.puts).all putFits = (fitsU 6 type && f.fits) := by
  simp [headerPuts, PosA.puts, putFits, PosA.fits, Bool.and_assoc]

theorem base_putFits (f : Base) : (headerPuts 4 f.mmsi ++ f.puts).all putFits = f.fits := by
  simp [headerPuts, Base.puts, putFits, Base.fits, Bool.and_assoc, show fitsU 6 4 = true by decide]

theorem posB_putFits (f : PosB) : (headerPuts 18 f.mmsi ++ f.puts).all putFits = f.fits := by
  simp [headerPuts, PosB.puts, putFits, PosB.fits, Bool.and_assoc, show fitsU 6 18 = true by decide]

theorem voyage_putFits (f : Voyage Bits) : (headerPuts 5 f.mmsi ++ f.puts).all putFits = f.fits := by
  simp [headerPuts, Voyage.puts, putFits, Voyage.fits, Bool.and_assoc, show fitsU 6 5 = true by decide]

theorem nameA_putFits (f : NameA Bits) : (headerPuts 24 f.mmsi ++ f.puts).all putFits = f.fits := by
  simp [headerPuts, NameA.puts, putFits, NameA.fits, show fitsU 6 24 = true by decide,
    show fitsU 2 0 = true by decide]

theorem staticB_putFits (f : StaticB Bits) : (headerPuts 24 f.mmsi ++ f.puts).all putFits = f.fits := by
  simp [headerPuts, StaticB.puts, putFits, StaticB.fits, Bool.and_assoc, show fitsU 6 24 = true by decide,
    show fitsU 2 1 = true by decide]

theorem voyageBits_lengths (f : Voyage Str) :
    (voyageBits Config.params f).callsign.length = 42 ∧ (voyageBits Config.params f).shipName.length = 120 :=
  ⟨txtenc_length _ _ _, txtenc_length _ _ _⟩

theorem nameABits_length (f : NameA Str) : (nameABits Config.params f).shipName.length = 120 := txtenc_length _ _ _

theorem staticBBits_length (f : StaticB Str) : (staticBBits Config.params f).callsign.length = 42 :=
  txtenc_length _ _ _

/-! ### What each encoder answers -/

theorem encPosA_eq (t : Int) (f : PosA) :
    encPosA Config.params t f =
      if (t = 1 ∨ t = 2 ∨ t = 3) ∧ f.fits = true then .ok (sentencesOf (messageBits 168 t f.mmsi f.puts))
      else .error .valueOutOfRange := by
  unfold encPosA
  by_cases ht : t = 1 ∨ t = 2 ∨ t = 3
  · have h6 : fitsU 6 t = true := by rcases ht with rfl | rfl | rfl <;> decide
    rw [if_pos ht, encodeMessage_eq (goodLayout_posA t f.mmsi f) rfl, posA_putFits, h6]
    simp only [Bool.true_and, ht, true_and]
  · rw [if_neg ht, if_neg (fun h => ht h.1)]

theorem encBase_eq (f : Base) :
    encBase Config.params f =
      if f.fits = true then .ok (sentencesOf (messageBits 168 4 f.mmsi f.puts)) else .error .valueOutOfRange := by
  rw [encBase, encodeMessage_eq (goodLayout_base 4 f.mmsi f) rfl, base_putFits]

theorem encPosB_eq (f : PosB) :
    encPosB Config.params f =
      if f.fits = true then .ok (sentencesOf (messageBits 168 18 f.mmsi f.puts)) else .error .valueOutOfRange := by
  rw [encPosB, encodeMessage_eq (goodLayout_posB 18 f.mmsi f) rfl, posB_putFits]

theorem encStat_eq (f : Voyage Str) :
    encStat Config.params f =
      if f.fits = true then .ok (sentencesOf (messageBits 424 5 f.mmsi (voyageBits Config.params f).puts))
      else .error .valueOutOfRange := by
  have hl := voyageBits_lengths f
  rw [encStat, encodeMessage_eq (goodLayout_voyage 5 f.mmsi hl.1 hl.2) rfl,
    show f.mmsi = (voyageBits Config.params f).mmsi from rfl, voyage_putFits]
  rfl

theorem encNameA_eq (f : NameA Str) :
    encNameA Config.params f =
      if f.fits = true then .ok (sentencesOf (messageBits 160 24 f.mmsi (nameABits Config.params f).puts))
      else .error .valueOutOfRange := by
  rw [encNameA, encodeMessage_eq (goodLayout_nameA 24 f.mmsi (nameABits_length f)) rfl,
    show f.mmsi = (nameABits Config.params f).mmsi from rfl, nameA_putFits]
  rfl

theorem encStaticB_eq (f : StaticB Str) :
    encStaticB Config.params f =
      if f.fits = true then .ok (sentencesOf (messageBits 160 24 f.mmsi (staticBBits Config.params f).puts))
      else .error .valueOutOfRange := by
  rw [encStaticB, encodeMessage_eq (goodLayout_staticB 24 f.mmsi (staticBBits_length f)) rfl,
    show f.mmsi = (staticBBits Config.params f).mmsi from rfl, staticB_putFits]
  rfl

/-- An encoder's sentences start with the default tag. -/
theorem isValid_sentencesOf (b : Bits) : ∀ t ∈ sentencesOf b, isValid t Config.tagVDM = true := by
  intro t ht
  obtain ⟨k, -, rfl⟩ := List.mem_map.mp ht
  exact isValid_sentence (.inl rfl) _ _ _

/-! ### What an encoder's answer says of its operands -/

/-- A response of sentences is the sentences' own result. -/
theorem sentences_of_map {x : Except Refusal (List Str)} {l : List Str}
    (h : x.map Response.sentences = .ok (.sentences l)) : x = .ok l := by
  cases x with
  | ok a => cases h; rfl
  | error e => cases h

theorem encposa_inv {t : Int} {f : PosA} {l : List Str} (h : Answers (.encposa t f) (.sentences l)) :
    (t = 1 ∨ t = 2 ∨ t = 3) ∧ f.fits = true ∧ l = sentencesOf (messageBits 168 t f.mmsi f.puts) := by
  rw [answers_iff, resultOf] at h
  have h := sentences_of_map h
  rw [encPosA_eq] at h
  split at h
  · rename_i hc; cases h; exact ⟨hc.1, hc.2, rfl⟩
  · cases h

theorem encbase_inv {f : Base} {l : List Str} (h : Answers (.encbase f) (.sentences l)) :
    f.fits = true ∧ l = sentencesOf (messageBits 168 4 f.mmsi f.puts) := by
  rw [answers_iff, resultOf] at h
  have h := sentences_of_map h
  rw [encBase_eq] at h
  split at h
  · rename_i hc; cases h; exact ⟨hc, rfl⟩
  · cases h

theorem encposb_inv {f : PosB} {l : List Str} (h : Answers (.encposb f) (.sentences l)) :
    f.fits = true ∧ l = sentencesOf (messageBits 168 18 f.mmsi f.puts) := by
  rw [answers_iff, resultOf] at h
  have h := sentences_of_map h
  rw [encPosB_eq] at h
  split at h
  · rename_i hc; cases h; exact ⟨hc, rfl⟩
  · cases h

theorem encstat_inv {f : Voyage Str} {l : List Str} (h : Answers (.encstat f) (.sentences l)) :
    f.fits = true ∧ l = sentencesOf (messageBits 424 5 f.mmsi (voyageBits Config.params f).puts) := by
  rw [answers_iff, resultOf] at h
  have h := sentences_of_map h
  rw [encStat_eq] at h
  split at h
  · rename_i hc; cases h; exact ⟨hc, rfl⟩
  · cases h

theorem enc24a_inv {f : NameA Str} {l : List Str} (h : Answers (.enc24a f) (.sentences l)) :
    f.fits = true ∧ l = sentencesOf (messageBits 160 24 f.mmsi (nameABits Config.params f).puts) := by
  rw [answers_iff, resultOf] at h
  have h := sentences_of_map h
  rw [encNameA_eq] at h
  split at h
  · rename_i hc; cases h; exact ⟨hc, rfl⟩
  · cases h

theorem enc24b_inv {f : StaticB Str} {l : List Str} (h : Answers (.enc24b f) (.sentences l)) :
    f.fits = true ∧ l = sentencesOf (messageBits 160 24 f.mmsi (staticBBits Config.params f).puts) := by
  rw [answers_iff, resultOf] at h
  have h := sentences_of_map h
  rw [encStaticB_eq] at h
  split at h
  · rename_i hc; cases h; exact ⟨hc, rfl⟩
  · cases h

/-! ### A message in the spec's own terms -/

section Message

variable {n : Nat} {type mmsi : Int} {fs : List Put}

theorem messageBits_fieldValue (g : GoodLayout n type mmsi fs) {s l : Nat} {x : Int}
    (hf : Put.unsigned s l x ∈ headerPuts type mmsi ++ fs) (hx : fitsU l x = true) :
    (fieldValue (messageBits n type mmsi fs) s l : Int) = x := by
  have hi := g.inside _ hf
  simp only [putInside, Bool.and_eq_true, decide_eq_true_eq] at hi
  rw [fieldValue_eq (by rw [messageBits_length g]; exact hi.2), messageBits_uint g hf hx]

theorem messageBits_signedValue (g : GoodLayout n type mmsi fs) {s l : Nat} {x : Int} (hl : 1 ≤ l)
    (hf : Put.signed s l x ∈ headerPuts type mmsi ++ fs) (hx : fitsS l x = true) :
    signedValue (messageBits n type mmsi fs) s l = x := by
  have hi := g.inside _ hf
  simp only [putInside, Bool.and_eq_true, decide_eq_true_eq] at hi
  rw [signedValue_eq (by rw [messageBits_length g]; exact hi.2), messageBits_sint g hl hf hx]

theorem messageBits_bit (g : GoodLayout n type mmsi fs) {s : Nat} {x : Bool}
    (hf : Put.bool s x ∈ headerPuts type mmsi ++ fs) : (messageBits n type mmsi fs).getD s false = x := by
  have hi := g.inside _ hf
  simp only [putInside, decide_eq_true_eq] at hi
  rw [← bit_eq (by rw [messageBits_length g]; omega), messageBits_bool g hf]
  cases x <;> rfl

theorem messageBits_subBits (g : GoodLayout n type mmsi fs) {s l : Nat} {w : Bits} (hw : w.length = l)
    (hf : Put.text s w ∈ headerPuts type mmsi ++ fs) : subBits (messageBits n type mmsi fs) s l = w := by
  have hi := g.inside _ hf
  simp only [putInside, decide_eq_true_eq] at hi
  rw [subBits_eq (by rw [messageBits_length g, ← hw]; exact hi), messageBits_text g hw hf]

/-- Bits that no field covers are zero (rule R151). -/
theorem messageBits_zeroFrom (g : GoodLayout n type mmsi fs) {lo hi : Nat} (hn : hi ≤ n)
    (hd : ∀ f ∈ headerPuts type mmsi ++ fs, hi ≤ putStart f ∨ putEnd f ≤ lo) :
    ZeroFrom (messageBits n type mmsi fs) lo hi := by
  intro k h1 h2
  have h := messageBits_gap g (s := lo) (l := hi - lo) fun f hf => by have := hd f hf; omega
  have h3 := congrArg (fun x : Bits => x[k - lo]?) h
  simp only [slice_getElem?] at h3
  rw [if_pos (by omega), if_pos (by omega), show lo + (k - lo) = k by omega, zeros, List.getElem?_replicate,
    if_pos (by omega)] at h3
  rw [List.getD_eq_getElem?_getD, h3]; rfl

/-- An encoder whose sentences carry `b` sends the message `b`. -/
theorem sendsMessage_of_result {i : Instr} {b : Bits} (h : resultOf i = .ok (.sentences (sentencesOf b))) :
    SendsMessage i b := by
  refine ⟨toArmor b, sentencesOf b, answers_iff.mpr rfl, ?_, answers_iff.mpr h⟩
  rw [answers_iff, resultOf, show ascii "!AIVDM" = Config.tagVDM from rfl, frame_toArmor]; rfl

end Message

/-! ### Decoding what an encoder carries -/

/-- The response of MSGDEC for the payload that a message's sentences carry. -/
theorem msgdec_carried (b : Bits) : resultOf (.msgdec (carried (sentencesOf b))) = resultOf (decodeBits (padSix b)) := by
  rw [carried_sentencesOf, resultOf_msgdec, decodeMessage, toBits_toArmor]

end Sys2Proof.Machine
end

