-- ==== Sys2Proof/Laws/PerInstr.lean ====
section
/-! SUPPORT. One lemma per constructor: an instruction's words are of its own row of the opcode table (rules R5, R33, R78,
R79, R81). -/

namespace Sys2Proof.Laws.TableRow

open Sys2Proof Sys2Proof.Machine

/-- What a row of the table fixes of its words: a request's OPSEL and number of operands, or a message's shortest payload
in bytes. -/
inductive Row where
  | op (opsel operands : Nat)
  | msg (bytes : Nat)
deriving DecidableEq, Repr

/-- The bytes of a message that ends with its header. -/
def headerBytes : Option Int → Nat
  | none => 1
  | some _ => 7

/-- The row of an instruction, as spec/opcode_table.json has it. -/
def row : Instr → Row
  | .tobits _ => .op 0x01 1
  | .toarmor _ => .op 0x02 1
  | .extu _ _ _ => .op 0x03 3
  | .exts _ _ _ => .op 0x04 3
  | .insu _ _ _ _ => .op 0x05 4
  | .inss _ _ _ _ => .op 0x06 4
  | .txtdec _ => .op 0x07 1
  | .txtenc _ _ => .op 0x08 2
  | .declon _ => .op 0x09 1
  | .declat _ => .op 0x0A 1
  | .msgdec _ => .op 0x0B 1
  | .decline _ => .op 0x0C 1
  | .decopt _ _ _ => .op 0x0D 3
  | .encposa _ _ => .op 0x0E 11
  | .encbase _ => .op 0x0F 3
  | .encstat _ => .op 0x10 9
  | .encposb _ => .op 0x11 6
  | .enc24a _ => .op 0x12 2
  | .enc24b _ => .op 0x13 7
  | .isvalid _ _ => .op 0x14 2
  | .parse _ => .op 0x15 1
  | .chksum _ => .op 0x16 1
  | .frame _ _ => .op 0x17 2
  | .chkvfy _ => .op 0x18 1
  | .msg1 _ => .msg 28
  | .msg2 _ => .msg 28
  | .msg3 _ => .msg 28
  | .msg4 _ => .msg 28
  | .msg5 _ => .msg 71
  | .msg18 _ => .msg 28
  | .msg24a _ => .msg 27
  | .msg24b _ => .msg 27
  | .msg24x _ _ => .msg 27
  | .msgother _ m => .msg (headerBytes m)
  | .msgshort _ m => .msg (headerBytes m)
  | .msgempty => .msg 0

/-- Words of a row. -/
def OfRow : Row → Words → Prop
  | .op code k, .request r => r.opsel.toNat = code ∧ r.operands.length = k
  | .msg bytes, .message p => p.length = bytes ∧ ∀ c ∈ p, inArmor c
  | _, _ => False

/-- A well-formed instruction's words are of its row. -/
def Statement (i : Instr) : Prop := WellFormed i = true → OfRow (row i) (encode i)

theorem ofRow_toArmor {b : Bits} {n bytes : Nat} (hn : b.length = n) (h : (n + 5) / 6 = bytes) :
    OfRow (.msg bytes) (.message (toArmor b)) := ⟨by rw [toArmor_length, hn, h], toArmor_inArmor b⟩

theorem headerBits_bytes (type : Int) (mmsi : Option Int) :
    ((headerBits type mmsi).length + 5) / 6 = headerBytes mmsi := by
  cases mmsi with
  | none => rw [headerBits, bitsOf_length]; rfl
  | some m =>
    have h : (headerBits type (some m)).length = 38 := messageBits_length (goodLayout_header type m)
    rw [h]; rfl

theorem textWidth_length {chars : Nat} {b : Bits} (h : textWidth chars b = true) : b.length = 6 * chars := by
  simpa [textWidth] using h

theorem tobits (payload : Str) : Statement (.tobits payload) := fun _ => ⟨rfl, rfl⟩

theorem toarmor (b : Bits) : Statement (.toarmor b) := fun _ => ⟨rfl, rfl⟩

theorem extu (b : Bits) (s l : Nat) : Statement (.extu b s l) := fun _ => ⟨rfl, rfl⟩

theorem exts (b : Bits) (s l : Nat) : Statement (.exts b s l) := fun _ => ⟨rfl, rfl⟩

theorem insu (b : Bits) (s l : Nat) (v : Int) : Statement (.insu b s l v) := fun _ => ⟨rfl, rfl⟩

theorem inss (b : Bits) (s l : Nat) (v : Int) : Statement (.inss b s l v) := fun _ => ⟨rfl, rfl⟩

theorem txtdec (b : Bits) : Statement (.txtdec b) := fun _ => ⟨rfl, rfl⟩

theorem txtenc (t : Str) (m : Nat) : Statement (.txtenc t m) := fun _ => ⟨rfl, rfl⟩

theorem declon (raw : Int) : Statement (.declon raw) := fun _ => ⟨rfl, rfl⟩

theorem declat (raw : Int) : Statement (.declat raw) := fun _ => ⟨rfl, rfl⟩

theorem msgdec (payload : Str) : Statement (.msgdec payload) := fun _ => ⟨rfl, rfl⟩

theorem decline (line : Str) : Statement (.decline line) := fun _ => ⟨rfl, rfl⟩

theorem decopt (line option tag : Str) : Statement (.decopt line option tag) := fun _ => ⟨rfl, rfl⟩

theorem encposa (t : Int) (f : PosA) : Statement (.encposa t f) := fun _ => ⟨rfl, rfl⟩

theorem encbase (f : Base) : Statement (.encbase f) := fun _ => ⟨rfl, rfl⟩

theorem encstat (f : Voyage Str) : Statement (.encstat f) := fun _ => ⟨rfl, rfl⟩

theorem encposb (f : PosB) : Statement (.encposb f) := fun _ => ⟨rfl, rfl⟩

theorem enc24a (f : NameA Str) : Statement (.enc24a f) := fun _ => ⟨rfl, rfl⟩

theorem enc24b (f : StaticB Str) : Statement (.enc24b f) := fun _ => ⟨rfl, rfl⟩

theorem isvalid (line pfx : Str) : Statement (.isvalid line pfx) := fun _ => ⟨rfl, rfl⟩

theorem parse (line : Str) : Statement (.parse line) := fun _ => ⟨rfl, rfl⟩

theorem chksum (t : Str) : Statement (.chksum t) := fun _ => ⟨rfl, rfl⟩

theorem frame (payload tag : Str) : Statement (.frame payload tag) := fun _ => ⟨rfl, rfl⟩

theorem chkvfy (t : Str) : Statement (.chkvfy t) := fun _ => ⟨rfl, rfl⟩

theorem msg1 (f : PosA) : Statement (.msg1 f) := fun _ =>
  ofRow_toArmor (messageBits_length (goodLayout_posA 1 f.mmsi f)) rfl

theorem msg2 (f : PosA) : Statement (.msg2 f) := fun _ =>
  ofRow_toArmor (messageBits_length (goodLayout_posA 2 f.mmsi f)) rfl

theorem msg3 (f : PosA) : Statement (.msg3 f) := fun _ =>
  ofRow_toArmor (messageBits_length (goodLayout_posA 3 f.mmsi f)) rfl

theorem msg4 (f : Base) : Statement (.msg4 f) := fun _ =>
  ofRow_toArmor (messageBits_length (goodLayout_base 4 f.mmsi f)) rfl

theorem msg5 (f : Voyage Bits) : Statement (.msg5 f) := fun h => by
  simp only [WellFormed, Bool.and_eq_true] at h
  exact ofRow_toArmor
    (messageBits_length (goodLayout_voyage 5 f.mmsi (textWidth_length h.1.2) (textWidth_length h.2))) rfl

theorem msg18 (f : PosB) : Statement (.msg18 f) := fun _ =>
  ofRow_toArmor (messageBits_length (goodLayout_posB 18 f.mmsi f)) rfl

theorem msg24a (f : NameA Bits) : Statement (.msg24a f) := fun h => by
  simp only [WellFormed, Bool.and_eq_true] at h
  exact ofRow_toArmor (messageBits_length (goodLayout_nameA 24 f.mmsi (textWidth_length h.2))) rfl

theorem msg24b (f : StaticB Bits) : Statement (.msg24b f) := fun h => by
  simp only [WellFormed, Bool.and_eq_true] at h
  exact ofRow_toArmor (messageBits_length (goodLayout_staticB 24 f.mmsi (textWidth_length h.2))) rfl

theorem msg24x (mmsi part : Int) : Statement (.msg24x mmsi part) := fun _ =>
  ofRow_toArmor (messageBits_length (goodLayout_partX 24 mmsi part)) rfl

theorem msgother (type : Int) (mmsi : Option Int) : Statement (.msgother type mmsi) := fun _ =>
  ofRow_toArmor rfl (headerBits_bytes type mmsi)

theorem msgshort (type : Int) (mmsi : Option Int) : Statement (.msgshort type mmsi) := fun _ =>
  ofRow_toArmor rfl (headerBits_bytes type mmsi)

theorem msgempty : Statement .msgempty := fun _ => ⟨rfl, by simp⟩

end Sys2Proof.Laws.TableRow
end

