-- ==== Sys2Proof/Tests/Slice0.lean ====
section
/-! SUPPORT. The model's own tests. Expected values are the spec's: its vectors (95_test_vectors.md, named V-…), the
examples of its rules, or hand calculation from a rule. Then the witnesses: for every statement with hypotheses, values
that meet them. -/

namespace Sys2Proof.Tests

-- A kernel evaluation is one thread with a large stack; run one at a time.
set_option Elab.async false

open Sys2Proof Sys2Proof.Machine Sys2Proof.Spec

/-! ### Helpers -/

/-- A bit string written as text; characters other than 0 and 1 are for reading. -/
def bin (t : String) : Bits := (t.toList.filter fun c => c == '0' || c == '1').map (· == '1')

/-- What one step answers to a request with nothing else pending or held. -/
def answer (opsel : BitVec 5) (operands : List Operand) : Except Refusal (List Response) :=
  match step { requests := [⟨opsel, operands⟩], responses := [] } with
  | .next s => .ok s.responses
  | .fault f => nomatch f
  | .refused e => .error e

/-- What an instruction answers on its own. -/
def answerOf (i : Instr) : Except Refusal (List Response) :=
  match exec i State.reset with
  | .next s => .ok s.responses
  | .fault f => nomatch f
  | .refused e => .error e

/-- The Scenario 1 payload and line (V-S1). -/
def payload1 : Str := ascii "17lcM@0000846L5spFLLL2LJ04CL"

def line1 : Str := ascii "!AIVDM,1,1,,B,17lcM@0000846L5spFLLL2LJ04CL,0*54"

/-- The fields of the Scenario 1 message (V-S1). -/
def fields1 : PosA where
  mmsi := 525000000
  navStatus := 0
  rot := 0
  sogRaw := 0
  posAccuracy := false
  lonRaw := 67646338
  latRaw := -4319631
  cogRaw := 3184
  heading := 78
  timestamp := 13

def record1 : Rec :=
  { type := 1, mmsi := 525000000, lonRaw := 67646338, latRaw := -4319631, cogRaw := 3184, heading := 78,
    timestamp := 13 }

/-- The operands of V-D14 (b): every field at a protocol sentinel. -/
def fieldsB : PosA where
  mmsi := 123456789
  navStatus := 5
  rot := -128
  sogRaw := 1023
  posAccuracy := true
  lonRaw := 108600000
  latRaw := 54600000
  cogRaw := 3600
  heading := 511
  timestamp := 60

/-- Zero operands. -/
def fields0 : PosA := ⟨0, 0, 0, 0, false, 0, 0, 0, 0, 0⟩

/-- The operands of V-D4. -/
def base4 : Base := ⟨2300001, -73500000, 24600000⟩

/-- The operands of V-S3. -/
def voyage5 : Voyage Str := ⟨374426000, 0, ascii "3EWC6", ascii "CRANE VESTA", 0, 0, 0, 0, 0⟩

/-- The operands of V-D18. -/
def posb18 : PosB := ⟨338123456, 61, -73500000, 24600000, 899, 511⟩

/-- The operands of V-D24A. -/
def nameA24 : NameA Str := ⟨338123456, ascii "SEA BIRD 2"⟩

/-- The operands of V-D24B. -/
def staticB24 : StaticB Str := ⟨338123456, 37, ascii "WDE1234", 5, 7, 2, 2⟩

def sentence4 : Str := ascii "!AIVDM,1,1,,A,402<HH@000000G??E0GMMh000000,0*71"

def sentence18 : Str := ascii "!AIVDM,1,1,,A,B52MJh00?Ekkm@5oGL0p?wP00000,0*62"

def sentence24A : Str := ascii "!AIVDM,1,1,,A,H52MJh1<D408U8@380000000000,0*55"

def payload24B : Str := ascii "H52MJh4UG45ijkl0`7220000000"

def sentence24B : Str := ascii "!AIVDM,1,1,,A,H52MJh4UG45ijkl0`7220000000,0*72"

/-- The two sentences of V-S3 and the payload they carry. -/
def sentence5a : Str := ascii "!AIVDM,2,1,,A,55U59T000003<EL?H00=84pD1HE=@400000000000000000000000000000000,0*19"

def sentence5b : Str := ascii "!AIVDM,2,2,,A,000000000,0*16"

def payload5 : Str := ascii "55U59T000003<EL?H00=84pD1HE=@400000000000000000000000000000000000000000"

/-! ### Well-formedness: each check refuses an ill-formed term -/

theorem test_wellFormed_fields :
    WellFormed (.extu (bin "101") 1 3) = false ∧ WellFormed (.extu (zeros 31) 0 31) = false ∧
      WellFormed (.exts (bin "101") 0 0) = false ∧ WellFormed (.exts (bin "101") 1 3) = false ∧
      WellFormed (.insu (bin "0000") 0 4 16) = false ∧ WellFormed (.insu (bin "0000") 0 4 (-1)) = false ∧
      WellFormed (.insu (bin "0000") 2 3 1) = false ∧ WellFormed (.inss (zeros 8) 0 8 128) = false ∧
      WellFormed (.inss (zeros 8) 0 8 (-129)) = false ∧ WellFormed (.inss (zeros 8) 0 0 0) = false := by decide

theorem test_wellFormed_encoders :
    WellFormed (.encposa 4 fields0) = false ∧ WellFormed (.encposa 0 fields0) = false ∧
      WellFormed (.encbase ⟨2 ^ 30, 0, 0⟩) = false ∧ WellFormed (.encbase ⟨0, 2 ^ 27, 0⟩) = false ∧
      WellFormed (.encbase ⟨0, 0, -(2 ^ 26) - 1⟩) = false ∧
      WellFormed (.encstat { voyage5 with imo := -1 }) = false ∧
      WellFormed (.encstat { voyage5 with dimC := 64 }) = false ∧
      WellFormed (.encposb { posb18 with sogRaw := 1024 }) = false ∧
      WellFormed (.enc24a { nameA24 with mmsi := -1 }) = false ∧
      WellFormed (.enc24b { staticB24 with shipType := 256 }) = false := by decide

theorem test_wellFormed_posA :
    ({ fields0 with mmsi := 2 ^ 30 } : PosA).fits = false ∧ ({ fields0 with navStatus := 16 } : PosA).fits = false ∧
      ({ fields0 with rot := 128 } : PosA).fits = false ∧ ({ fields0 with sogRaw := 1024 } : PosA).fits = false ∧
      ({ fields0 with lonRaw := 268435455 } : PosA).fits = false ∧
      ({ fields0 with latRaw := 268435455 } : PosA).fits = false ∧
      ({ fields0 with cogRaw := 4096 } : PosA).fits = false ∧ ({ fields0 with heading := 512 } : PosA).fits = false ∧
      ({ fields0 with timestamp := 64 } : PosA).fits = false := by decide

theorem test_wellFormed_framer :
    WellFormed (.chksum (ascii "AIVDM,1*00")) = false ∧ WellFormed (.chksum (ascii "!AIVDM,1")) = false ∧
      WellFormed (.frame [] (ascii "$GPGGA")) = false := by decide

theorem test_wellFormed_messages :
    WellFormed (.msg1 { fields0 with heading := 512 }) = false ∧
      WellFormed (.msg2 { fields0 with rot := -129 }) = false ∧
      WellFormed (.msg3 { fields0 with mmsi := -1 }) = false ∧ WellFormed (.msg4 ⟨0, -(2 ^ 27) - 1, 0⟩) = false ∧
      WellFormed (.msg5 ⟨0, 0, zeros 41, zeros 120, 0, 0, 0, 0, 0⟩) = false ∧
      WellFormed (.msg5 ⟨0, 0, zeros 42, zeros 126, 0, 0, 0, 0, 0⟩) = false ∧
      WellFormed (.msg18 { posb18 with cogRaw := 4096 }) = false ∧ WellFormed (.msg24a ⟨0, zeros 114⟩) = false ∧
      WellFormed (.msg24b ⟨0, 0, zeros 48, 0, 0, 0, 0⟩) = false ∧ WellFormed (.msg24x 0 1) = false ∧
      WellFormed (.msg24x 0 4) = false ∧ WellFormed (.msgother 24 none) = false ∧
      WellFormed (.msgother 64 none) = false ∧ WellFormed (.msgother 6 (some (2 ^ 30))) = false ∧
      WellFormed (.msgshort 6 none) = false ∧ WellFormed (.msgshort 1 (some (-1))) = false := by decide

/-! ### Decoding: request words by the OPSEL table (rule R5) -/

theorem test_decode_bitArmor :
    decode (.request ⟨0b00001, [.str (ascii "17")]⟩) = .ok (.tobits (ascii "17")) ∧
      decode (.request ⟨0b00010, [.bits (bin "1111")]⟩) = .ok (.toarmor (bin "1111")) := by decide

theorem test_decode_fieldCodec :
    decode (.request ⟨0b00011, [.bits (bin "101"), .nat 1, .nat 2]⟩) = .ok (.extu (bin "101") 1 2) ∧
      decode (.request ⟨0b00100, [.bits (bin "101"), .nat 1, .nat 2]⟩) = .ok (.exts (bin "101") 1 2) ∧
      decode (.request ⟨0b00101, [.bits (bin "101"), .nat 1, .nat 2, .int 3]⟩) = .ok (.insu (bin "101") 1 2 3) ∧
      decode (.request ⟨0b00110, [.bits (bin "101"), .nat 1, .nat 2, .int (-2)]⟩) =
        .ok (.inss (bin "101") 1 2 (-2)) := by decide

theorem test_decode_textCodec :
    decode (.request ⟨0b00111, [.bits (bin "000001")]⟩) = .ok (.txtdec (bin "000001")) ∧
      decode (.request ⟨0b01000, [.str (ascii "A"), .nat 7]⟩) = .ok (.txtenc (ascii "A") 7) := by decide

theorem test_decode_messageCodec :
    decode (.request ⟨0b01001, [.int 7]⟩) = .ok (.declon 7) ∧ decode (.request ⟨0b01010, [.int 7]⟩) = .ok (.declat 7) ∧
      decode (.request ⟨0b01011, [.str (ascii "w")]⟩) = .ok (.msgdec (ascii "w")) ∧
      decode (.request ⟨0b01100, [.str (ascii "w")]⟩) = .ok (.decline (ascii "w")) ∧
      decode (.request ⟨0b01101, [.str (ascii "l"), .str (ascii "o"), .str (ascii "t")]⟩) =
        .ok (.decopt (ascii "l") (ascii "o") (ascii "t")) := by decide

theorem test_decode_encoders :
    decode (.request ⟨0b01110, [.int 1, .int 2, .int 3, .int 4, .int 5, .bool true, .int 6, .int 7, .int 8, .int 9,
        .int 10]⟩) = .ok (.encposa 1 ⟨2, 3, 4, 5, true, 6, 7, 8, 9, 10⟩) ∧
      decode (.request ⟨0b01111, [.int 1, .int 2, .int 3]⟩) = .ok (.encbase ⟨1, 2, 3⟩) ∧
      decode (.request ⟨0b10000, [.int 1, .int 2, .str (ascii "c"), .str (ascii "n"), .int 3, .int 4, .int 5, .int 6,
        .int 7]⟩) = .ok (.encstat ⟨1, 2, ascii "c", ascii "n", 3, 4, 5, 6, 7⟩) ∧
      decode (.request ⟨0b10001, [.int 1, .int 2, .int 3, .int 4, .int 5, .int 6]⟩) =
        .ok (.encposb ⟨1, 2, 3, 4, 5, 6⟩) ∧
      decode (.request ⟨0b10010, [.int 1, .str (ascii "n")]⟩) = .ok (.enc24a ⟨1, ascii "n"⟩) ∧
      decode (.request ⟨0b10011, [.int 1, .int 2, .str (ascii "c"), .int 3, .int 4, .int 5, .int 6]⟩) =
        .ok (.enc24b ⟨1, 2, ascii "c", 3, 4, 5, 6⟩) := by decide

theorem test_decode_framer :
    decode (.request ⟨0b10100, [.str (ascii "l"), .str (ascii "p")]⟩) = .ok (.isvalid (ascii "l") (ascii "p")) ∧
      decode (.request ⟨0b10101, [.str (ascii "l")]⟩) = .ok (.parse (ascii "l")) ∧
      decode (.request ⟨0b10110, [.str (ascii "l")]⟩) = .ok (.chksum (ascii "l")) ∧
      decode (.request ⟨0b10111, [.str (ascii "p"), .str (ascii "t")]⟩) = .ok (.frame (ascii "p") (ascii "t")) ∧
      decode (.request ⟨0b11000, [.str (ascii "l")]⟩) = .ok (.chkvfy (ascii "l")) := by decide

/-- V-D23: the unassigned codes next to the assigned ones, and operands of the wrong shape. -/
theorem test_decode_rejected :
    decode (.request ⟨0b00000, []⟩) = .error .unassignedOpsel ∧
      decode (.request ⟨0b11001, [.str []]⟩) = .error .unassignedOpsel ∧
      decode (.request ⟨0b11111, []⟩) = .error .unassignedOpsel ∧
      decode (.request ⟨0b00001, [.nat 0]⟩) = .error .operandShape := by decide

/-! ### Decoding: messages, written as the bits of their fields (rules R70 to R76) -/

/-- V-S1, from its bit string. -/
theorem test_decode_msg1 :
    decode (.message (toArmor (bin "000001 00 011111010010101101110101000000 0000 00000000 0000000000 0
      0100000010000011001110000010 111101111100001011001110001 110001110000 001001110 001101
      0000000000100010011011100"))) = .ok (.msg1 fields1) := by decide +kernel

/-- V-D14 (c). -/
theorem test_decode_msg2 :
    decode (.message (ascii "200000OOh1k81`1<P6P00@1n0000")) =
      .ok (.msg2 ⟨1, 15, 127, 1, true, -108000000, -54000000, 1, 0, 59⟩) := by decide +kernel

/-- V-D14 (b). -/
theorem test_decode_msg3 : decode (.message (ascii "31mg=5EP?wdtSF0l4Q@>4?wp0000")) = .ok (.msg3 fieldsB) := by
  decide +kernel

/-- V-D4. -/
theorem test_decode_msg4 : decode (.message (ascii "402<HH@000000G??E0GMMh000000")) = .ok (.msg4 base4) := by
  decide +kernel

/-- V-S3 with the text groups of V-D9 and V-D7. -/
theorem test_decode_msg5 :
    decode (.message payload5) = .ok (.msg5
      { mmsi := 374426000, imo := 0, callsign := bin "110011 000101 010111 000011 110110 000000 000000",
        shipName := bin "000011 010010 000001 001110 000101 000000 010110 000101 010011 010100 000001" ++ zeros 54,
        shipType := 0, dimA := 0, dimB := 0, dimC := 0, dimD := 0 }) := by decide +kernel

/-- V-D18. -/
theorem test_decode_msg18 : decode (.message (ascii "B52MJh00?Ekkm@5oGL0p?wP00000")) = .ok (.msg18 posb18) := by
  decide +kernel

/-- V-D24A: the groups of "SEA BIRD 2". -/
theorem test_decode_msg24a :
    decode (.message (ascii "H52MJh1<D408U8@380000000000")) = .ok (.msg24a
      { mmsi := 338123456
        shipName := bin "010011 000101 000001 000000 000010 001001 010010 000100 000000 110010" ++ zeros 60 }) := by
  decide +kernel

/-- V-D24B: the groups of "WDE1234". -/
theorem test_decode_msg24b :
    decode (.message payload24B) = .ok (.msg24b
      { mmsi := 338123456, shipType := 37, callsign := bin "010111 000100 000101 110001 110010 110011 110100",
        dimA := 5, dimB := 7, dimC := 2, dimD := 2 }) := by decide +kernel

/-- V-D24X, and part number 3 with the next header bit set. -/
theorem test_decode_msg24x :
    decode (.message (ascii "H52MJh8UG45ijkl0`7220000000")) = .ok (.msg24x 338123456 2) ∧
      decode (.message (ascii "H52MJh<UG45ijkl0`7220000000")) = .ok (.msg24x 338123456 3) := by decide +kernel

/-- V-D15. -/
theorem test_decode_msgother :
    decode (.message (ascii "w")) = .ok (.msgother 63 none) ∧
      decode (.message (ascii "85M:Ih1KmPAU6jAs85`03cJm<1NHQhPFhs")) = .ok (.msgother 8 (some 366123456)) := by
  decide +kernel

/-- V-D13: six bytes are short of the `mmsi`, 27 of the layout. -/
theorem test_decode_msgshort :
    decode (.message (ascii "17lcM@")) = .ok (.msgshort 1 none) ∧
      decode (.message (ascii "402<HH@000000G??E0GMMh00000")) = .ok (.msgshort 4 (some 2300001)) := by decide +kernel

theorem test_decode_msgempty : decode (.message []) = .ok .msgempty := by decide

/-- The opcode table's words: OPSEL codes in eight bits, headers in forty. The words of MSGSHORT and MSGEMPTY fix no bit;
0 is a message of type 0. -/
theorem test_tableWords :
    decodeTableWord 8 0x03 = some (.extu [] 0 0) ∧ decodeTableWord 8 0x18 = some (.chkvfy []) ∧
      decodeTableWord 8 0x00 = none ∧ decodeTableWord 8 0x19 = none ∧
      decodeTableWord 40 0x0400000000 = some (.msg1 fields0) ∧
      decodeTableWord 40 0x4800000000 = some (.msg18 ⟨0, 0, 0, 0, 0, 0⟩) ∧
      decodeTableWord 40 0x6000000000 = some (.msg24a ⟨0, zeros 120⟩) ∧
      decodeTableWord 40 0x6000000001 = some (.msg24b ⟨0, 0, zeros 42, 0, 0, 0, 0⟩) ∧
      decodeTableWord 40 0x6000000002 = some (.msg24x 0 2) ∧ decodeTableWord 40 0 = some (.msgother 0 (some 0)) := by
  decide +kernel

/-- A row's words, placed where the step takes its next request, run. -/
theorem test_withFetchWord :
    step (State.reset.withFetchWord 8 0x16) = .next { requests := [], responses := [.nat 0] } ∧
      step (State.reset.withFetchWord 40 0x0400000000) =
        .next { requests := [], responses := [.record { type := 1 } .positionReportA] } := by
  constructor <;> exact congrArg Host.Outcome.next (by decide +kernel)

/-! ### BitArmor -/

/-- Rule R90's example: first byte first, most significant bit first. -/
theorem test_tobits : answer 0x01 [.str (ascii "17")] = .ok [.bits (bin "000001 000111")] := by decide

/-- V-D2: `X` is 40 unadjusted, `/` is -1, `x` is 64, `,` is -4. -/
theorem test_tobits_outside :
    answer 0x01 [.str (ascii "X/x,")] = .ok [.bits (bin "101000 111111 000000 111100")] := by decide

/-- V-D3: padding on the right. -/
theorem test_toarmor : answer 0x02 [.bits (bin "0000011")] = .ok [.str (ascii "1P")] := by decide

/-- V-D1: the two ends of the alphabet's gap. -/
theorem test_toarmor_gap : answer 0x02 [.bits (bin "100111 101000 111111")] = .ok [.str (ascii "W`w")] := by decide

/-! ### FieldCodec (V-D5, V-D6) -/

theorem test_extu : answer 0x03 [.bits (bin "000001 000111"), .nat 4, .nat 5] = .ok [.nat 8] := by decide

theorem test_extu_refused : answer 0x03 [.bits (bin "101"), .nat 1, .nat 3] = .error .sliceOutOfRange := by decide

theorem test_exts : answer 0x04 [.bits (bin "0 10000000"), .nat 1, .nat 8] = .ok [.int (-128)] := by decide

theorem test_exts_refused : answer 0x04 [.bits (bin "101"), .nat 0, .nat 0] = .error .sliceOutOfRange := by decide

theorem test_insu :
    answer 0x05 [.bits (bin "111111111111"), .nat 3, .nat 5, .int 9] = .ok [.bits (bin "111 01001 1111")] := by decide

/-- The slice check comes before the value check (rule R197). -/
theorem test_insu_refused :
    answer 0x05 [.bits (bin "0000"), .nat 2, .nat 3, .int 8] = .error .sliceOutOfRange := by decide

theorem test_inss :
    answer 0x06 [.bits (zeros 12), .nat 2, .nat 8, .int (-128)] = .ok [.bits (bin "00 10000000 00")] := by decide

theorem test_inss_refused : answer 0x06 [.bits (zeros 8), .nat 0, .nat 8, .int 128] = .error .valueOutOfRange := by
  decide

/-! ### TextCodec (V-D8, V-D9) -/

theorem test_txtdec :
    answer 0x07 [.bits (bin "100000 000001 000000 000010 100000 100000 111")] = .ok [.str (ascii " AB")] := by decide

theorem test_txtdec_table :
    answer 0x07 [.bits (bin "111111 100001 011111 011011 110000 111001")] = .ok [.str (ascii "?!_[09")] := by decide

theorem test_txtenc :
    answer 0x08 [.str (ascii "abc-12 x"), .nat 6] =
      .ok [.bits (bin "000001 000010 000011 000000 110001 110010")] := by decide

theorem test_txtenc_pads :
    answer 0x08 [.str (ascii "3EWC6"), .nat 7] =
      .ok [.bits (bin "110011 000101 010111 000011 110110 000000 000000")] := by decide

/-! ### MessageCodec, decode (V-D12, V-D13, V-D16, V-D17) -/

theorem test_declon : answer 0x09 [.int 67646338] = .ok [.num (.rat (mkRat 33823169 300000))] := by decide +kernel

theorem test_declon_sentinel :
    answer 0x09 [.int 268435455] = .ok [.num .nan] ∧ answer 0x09 [.int 54600000] = .ok [.num (.rat 91)] := by
  decide +kernel

theorem test_declat : answer 0x0A [.int (-54000000)] = .ok [.num (.rat (-90))] := by decide +kernel

theorem test_declat_sentinel :
    answer 0x0A [.int 54600000] = .ok [.num .nan] ∧ answer 0x0A [.int 108600000] = .ok [.num (.rat 181)] := by
  decide +kernel

/-- V-D13: bits beyond the layout are ignored. -/
theorem test_msgdec : answer 0x0B [.str (payload1 ++ ascii "wwww")] = .ok [.record record1 .positionReportA] := by
  decide +kernel

/-- V-D11: all-ones positions are -1, not unavailable. -/
theorem test_msgdec_ones :
    answer 0x0B [.str (ascii "100000@000Owwwwwwwwh00000000")] =
      .ok [.record { type := 1, mmsi := 1, lonRaw := -1, latRaw := -1 } .positionReportA] := by decide +kernel

/-- V-D16: wrong checksum and a longer tag still decode. -/
theorem test_decline :
    answer 0x0C [.str (ascii "!AIVDMX,1,1,,B,17lcM@0000846L5spFLLL2LJ04CL,0*00")] =
      .ok [.record record1 .positionReportA] := by decide +kernel

/-- V-D16: an empty payload. -/
theorem test_decline_empty :
    answer 0x0C [.str (ascii "!AIVDM,1,1,,B,,0*25")] = .ok [.record Rec.zero .unrecognized] := by decide +kernel

theorem test_decopt :
    answer 0x0D [.str line1, .str (ascii "cog"), .str (ascii "!AIVDM")] = .ok [.num (.rat (mkRat 3184 10))] := by
  decide +kernel

theorem test_decopt_wrongTag :
    answer 0x0D [.str line1, .str (ascii "cog"), .str (ascii "!AIVDO")] = .ok [.num (.rat 0)] := by decide +kernel

/-! ### The message rows: the record each fills (rules R124 to R134) -/

theorem test_msg1 : answerOf (.msg1 fields1) = .ok [.record record1 .positionReportA] := by decide

theorem test_msg2 :
    answerOf (.msg2 { fields0 with heading := 511 }) =
      .ok [.record { type := 2, heading := 511 } .positionReportA] := by decide

theorem test_msg3 :
    answerOf (.msg3 fieldsB) = .ok [.record
      { type := 3, mmsi := 123456789, navStatus := 5, rot := -128, sogRaw := 1023, posAccuracy := true,
        lonRaw := 108600000, latRaw := 54600000, cogRaw := 3600, heading := 511, timestamp := 60 }
      .positionReportA] := by decide

theorem test_msg4 :
    answerOf (.msg4 base4) =
      .ok [.record { type := 4, mmsi := 2300001, lonRaw := -73500000, latRaw := 24600000 } .baseStationPartial] := by
  decide

/-- V-S3: the name comes back without its space. -/
theorem test_msg5 :
    answer 0x0B [.str payload5] = .ok [.record
      { type := 5, mmsi := 374426000, callsign := ascii "3EWC6", shipName := ascii "CRANEVESTA" }
      .staticVoyageData] := by decide +kernel

theorem test_msg18 :
    answerOf (.msg18 posb18) = .ok [.record
      { type := 18, mmsi := 338123456, sogRaw := 61, lonRaw := -73500000, latRaw := 24600000, cogRaw := 899,
        heading := 511 } .positionReportB] := by decide

theorem test_msg24a :
    answer 0x0C [.str sentence24A] = .ok [.record
      { type := 24, mmsi := 338123456, partNumber := 0, shipName := ascii "SEABIRD2" } .staticDataReportA] := by
  decide +kernel

theorem test_msg24b :
    answer 0x0C [.str sentence24B] = .ok [.record
      { type := 24, mmsi := 338123456, partNumber := 1, shipType := 37, callsign := ascii "WDE1234", dimA := 5,
        dimB := 7, dimC := 2, dimD := 2 } .staticDataReportB] := by decide +kernel

theorem test_msg24x :
    answerOf (.msg24x 338123456 3) =
      .ok [.record { type := 24, mmsi := 338123456, partNumber := 3 } .headerOnly] := by decide

theorem test_msgother :
    answerOf (.msgother 8 (some 366123456)) = .ok [.record { type := 8, mmsi := 366123456 } .unrecognized] := by
  decide

theorem test_msgshort :
    answerOf (.msgshort 24 none) = .ok [.record { type := 24 } .headerOnly] := by decide

theorem test_msgempty : answerOf .msgempty = .ok [.record Rec.zero .unrecognized] := by decide

/-! ### MessageCodec, encode (V-D4, V-D14, V-S3, V-D18, V-D24A, V-D24B) -/

theorem test_encposa :
    answer 0x0E [.int 3, .int 123456789, .int 5, .int (-128), .int 1023, .bool true, .int 108600000, .int 54600000,
      .int 3600, .int 511, .int 60] = .ok [.sentences [ascii "!AIVDM,1,1,,A,31mg=5EP?wdtSF0l4Q@>4?wp0000,0*35"]] := by
  decide +kernel

/-- V-D14 (e): the second sentinel does not fit. -/
theorem test_encposa_refused :
    answer 0x0E [.int 1, .int 0, .int 0, .int 0, .int 0, .bool false, .int 268435455, .int 0, .int 0, .int 0,
      .int 0] = .error .valueOutOfRange := by decide +kernel

theorem test_encbase :
    answer 0x0F [.int 2300001, .int (-73500000), .int 24600000] = .ok [.sentences [sentence4]] := by decide +kernel

theorem test_encbase_refused : answer 0x0F [.int 0, .int 0, .int (2 ^ 26)] = .error .valueOutOfRange := by
  decide +kernel

theorem test_encstat :
    answer 0x10 [.int 374426000, .int 0, .str (ascii "3EWC6"), .str (ascii "CRANE VESTA"), .int 0, .int 0, .int 0,
      .int 0, .int 0] = .ok [.sentences [sentence5a, sentence5b]] := by decide +kernel

theorem test_encstat_refused :
    answer 0x10 [.int 0, .int 0, .str [], .str [], .int 0, .int 512, .int 0, .int 0, .int 0] =
      .error .valueOutOfRange := by decide +kernel

theorem test_encposb :
    answer 0x11 [.int 338123456, .int 61, .int (-73500000), .int 24600000, .int 899, .int 511] =
      .ok [.sentences [sentence18]] := by decide +kernel

theorem test_encposb_refused :
    answer 0x11 [.int 0, .int 0, .int 0, .int 0, .int 0, .int 512] = .error .valueOutOfRange := by decide +kernel

theorem test_enc24a :
    answer 0x12 [.int 338123456, .str (ascii "SEA BIRD 2")] = .ok [.sentences [sentence24A]] := by decide +kernel

theorem test_enc24a_refused : answer 0x12 [.int (2 ^ 30), .str []] = .error .valueOutOfRange := by decide +kernel

theorem test_enc24b :
    answer 0x13 [.int 338123456, .int 37, .str (ascii "WDE1234"), .int 5, .int 7, .int 2, .int 2] =
      .ok [.sentences [sentence24B]] := by decide +kernel

theorem test_enc24b_refused :
    answer 0x13 [.int 0, .int 0, .str [], .int 0, .int 0, .int 64, .int 0] = .error .valueOutOfRange := by
  decide +kernel

/-! ### SentenceFramer (V-D20 to V-D22) -/

theorem test_isvalid : answer 0x14 [.str (ascii "!AIVDM,"), .str (ascii "!AIVDM")] = .ok [.bool true] := by decide

theorem test_isvalid_noComma : answer 0x14 [.str (ascii "!AIVDM"), .str (ascii "!AIVDM")] = .ok [.bool false] := by
  decide

theorem test_parse :
    answer 0x15 [.str (ascii "a,,b,")] = .ok [.fields [ascii "a", [], ascii "b", []] false] := by decide

theorem test_parse_line :
    answer 0x15 [.str line1] = .ok [.fields
      [ascii "!AIVDM", ascii "1", ascii "1", [], ascii "B", payload1, ascii "0*54"] true] := by decide

theorem test_chksum : answer 0x16 [.str line1] = .ok [.nat 0x54] := by decide

theorem test_chksum_refused : answer 0x16 [.str (ascii "!AIVDM,1")] = .error .noDelimiter := by decide

/-- Two sentences from 63 bytes. -/
theorem test_frame :
    answer 0x17 [.str (List.replicate 63 48#8), .str (ascii "!AIVDM")] = .ok [.sentences
      [ascii "!AIVDM,2,1,,A," ++ List.replicate 62 48#8 ++ ascii ",0*25", ascii "!AIVDM,2,2,,A,0,0*16"]] := by
  decide +kernel

theorem test_frame_refused : answer 0x17 [.str [], .str (ascii "$GPGGA")] = .error .badTag := by decide

theorem test_chkvfy : answer 0x18 [.str (line1 ++ [13#8, 10#8])] = .ok [.bool true] := by decide

/-- A lower-case checksum is not accepted. -/
theorem test_chkvfy_lowerCase :
    answer 0x18 [.str (ascii "!AIVDM,1,1,,A,17lcM@0000846L5spFLLL2LJ0000,0*5c")] = .ok [.bool false] := by decide

/-! ### Witnesses

For each statement with hypotheses, values that meet them together: one for each clause, at the ends of its ranges. -/

/-- The state of a caller with one request pending and one response held. -/
def busy (r : Request) : State := { requests := [r], responses := [.nat 5] }

/-- The zero bit string of length 30 with its first bit set: the least 30-bit number. -/
def low30 : Bits := true :: zeros 29

theorem witness_StepRunsTheDecodedRequest :
    (busy ⟨0x03, [.bits (bin "101"), .nat 1, .nat 2]⟩).requests = ⟨0x03, [.bits (bin "101"), .nat 1, .nat 2]⟩ :: [] ∧
      decode (.request ⟨0x03, [.bits (bin "101"), .nat 1, .nat 2]⟩) = .ok (.extu (bin "101") 1 2) := by decide

theorem witness_UnassignedOpselIsRefused :
    ∀ o ∈ [(0x00 : BitVec 5), 0x19, 0x1F], (busy ⟨o, [.nat 7]⟩).requests = ⟨o, [.nat 7]⟩ :: [] ∧
      (o = 0x00 ∨ 0x19 ≤ o) := by decide

theorem witness_IdleStepAndMisshapenRequest :
    State.reset.requests = [] ∧
      (busy ⟨0x01, []⟩).requests = ⟨0x01, []⟩ :: [] ∧ (∀ i, encode i ≠ .request ⟨0x01, []⟩) ∧
      (busy ⟨0x18, [.nat 0]⟩).requests = ⟨0x18, [.nat 0]⟩ :: [] ∧ (∀ i, encode i ≠ .request ⟨0x18, [.nat 0]⟩) := by
  refine ⟨rfl, rfl, fun i => ?_, rfl, fun i => ?_⟩ <;> cases i <;> simp [encode]

/-! One well-formed instruction of every row, its operands at the ends of their ranges. -/

def sampleFields : List Instr :=
  [.tobits (ascii "w"), .toarmor (bin "1"), .extu low30 0 30, .extu [] 0 0, .exts low30 0 30, .exts (bin "1") 0 1,
   .insu low30 0 30 (2 ^ 30 - 1), .insu [] 0 0 0, .inss low30 0 30 (-(2 ^ 29)), .inss (bin "1") 0 1 (-1),
   .inss (bin "1") 0 1 0]

def sampleTexts : List Instr :=
  [.txtdec (bin "000001"), .txtenc (ascii "A") 7, .declon 108600000, .declat (-1), .msgdec payload1, .decline line1,
   .decopt line1 (ascii "sog") (ascii "!AIVDM")]

def sampleEncoders : List Instr :=
  [.encposa 1 ⟨2 ^ 30 - 1, 15, 127, 1023, true, 2 ^ 27 - 1, 2 ^ 26 - 1, 4095, 511, 63⟩,
   .encposa 3 ⟨0, 0, -128, 0, false, -(2 ^ 27), -(2 ^ 26), 0, 0, 0⟩, .encbase ⟨2 ^ 30 - 1, 2 ^ 27 - 1, -(2 ^ 26)⟩,
   .encstat ⟨2 ^ 30 - 1, 2 ^ 30 - 1, ascii "~", ascii "A B", 255, 511, 511, 63, 63⟩,
   .encposb ⟨2 ^ 30 - 1, 1023, -(2 ^ 27), 2 ^ 26 - 1, 4095, 511⟩, .enc24a ⟨2 ^ 30 - 1, []⟩,
   .enc24b ⟨2 ^ 30 - 1, 255, [], 511, 511, 63, 63⟩]

def sampleFramers : List Instr :=
  [.isvalid [] [], .parse [], .chksum (ascii "!*"), .frame [] (ascii "!AIVDO"), .chkvfy []]

def sampleMessages : List Instr :=
  [.msg1 ⟨2 ^ 30 - 1, 15, 127, 1023, true, 2 ^ 27 - 1, 2 ^ 26 - 1, 4095, 511, 63⟩, .msg2 fields0,
   .msg3 ⟨0, 0, -128, 0, false, -(2 ^ 27), -(2 ^ 26), 0, 0, 0⟩, .msg4 ⟨2 ^ 30 - 1, 2 ^ 27 - 1, -(2 ^ 26)⟩,
   .msg5 ⟨2 ^ 30 - 1, 2 ^ 30 - 1, zeros 42, zeros 120, 255, 511, 511, 63, 63⟩,
   .msg18 ⟨2 ^ 30 - 1, 1023, -(2 ^ 27), 2 ^ 26 - 1, 4095, 511⟩, .msg24a ⟨2 ^ 30 - 1, zeros 120⟩,
   .msg24b ⟨2 ^ 30 - 1, 255, zeros 42, 511, 511, 63, 63⟩, .msg24x 0 2, .msg24x (2 ^ 30 - 1) 3,
   .msgother 63 (some (2 ^ 30 - 1)), .msgother 0 none, .msgshort 24 (some 0), .msgshort 1 none, .msgempty]

def samples : List Instr := sampleFields ++ sampleTexts ++ sampleEncoders ++ sampleFramers ++ sampleMessages

theorem samples_cover : (samples.map Instr.ctorIdx).dedup.length = 36 := by decide +kernel

theorem witness_DecodeInvertsEncode : ∀ i ∈ samples, WellFormed i = true := by decide +kernel

theorem witness_WellFormedInstructionsComplete : ∀ i ∈ samples, WellFormed i = true := witness_DecodeInvertsEncode

theorem witness_EncodeInvertsDecodeOfRequests :
    decode (.request ⟨0x17, [.str (ascii "w"), .str []]⟩) = .ok (.frame (ascii "w") []) := by decide

theorem witness_MsgdecRunsTheRowItsPayloadIs :
    decode (.message payload1) = .ok (.msg1 fields1) ∧ decode (.message []) = .ok .msgempty := by decide +kernel

theorem legal_busy (r : Request) : (busy r).Legal := by simp [busy, State.Legal, Response.Legal]

theorem witness_EveryStepKeepsResponsesLegal :
    (busy ⟨0x0B, [.str payload1]⟩).Legal ∧
      step (busy ⟨0x0B, [.str payload1]⟩) =
        .next { requests := [], responses := [.nat 5, .record record1 .positionReportA] } :=
  ⟨legal_busy _, congrArg Host.Outcome.next (by decide +kernel)⟩

theorem witness_RequestsRunInAnyOrder :
    ∃ t, Host.Core.run Sys2Proof.core 2
      { requests := [⟨0x09, [.int 600000]⟩, ⟨0x03, [.bits (bin "101"), .nat 1, .nat 2]⟩], responses := [] } =
        .next t := ⟨_, rfl⟩

theorem witness_TobitsAppendsSixBitsPerByte :
    (0 < (ascii "17").length ∧ 0 < 6) ∧ 1 < (ascii "17").length ∧ 5 < 6 := by decide

theorem witness_ToarmorMakesOneBytePerGroup :
    Answers (.toarmor (bin "0000011")) (.str (ascii "1P")) ∧ 0 < (ascii "1P").length ∧ 1 < (ascii "1P").length :=
  ⟨answers_iff.mpr (by decide +kernel), by decide, by decide⟩

/-- Lengths 0, 1, 6 and 7: no padding, the most, none, the most again. -/
theorem witness_BitsSurviveArmoring :
    Answers (.toarmor []) (.str []) ∧ Answers (.toarmor (bin "1")) (.str (ascii "P")) ∧
      Answers (.toarmor (bin "000001")) (.str (ascii "1")) ∧ Answers (.toarmor (bin "0000011")) (.str (ascii "1P")) := by
  refine ⟨?_, ?_, ?_, ?_⟩ <;> exact answers_iff.mpr (by decide +kernel)

/-- A payload in the alphabet and one outside it (V-D2). -/
theorem witness_PayloadSurvivesIffInAlphabet :
    Answers (.tobits (ascii "0W`w")) (.bits (bin "000000 100111 101000 111111")) ∧
      (∀ c ∈ ascii "0W`w", InAlphabet c) ∧ Answers (.tobits (ascii "X")) (.bits (bin "101000")) ∧
      ¬ ∀ c ∈ ascii "X", InAlphabet c := by
  refine ⟨answers_iff.mpr (by decide +kernel), ?_, answers_iff.mpr (by decide +kernel), ?_⟩ <;>
    simp [ascii, InAlphabet]

/-- The widest slice that fits its string, the empty one, one bit too wide, one bit past the end. -/
theorem witness_ExtuReadsBigEndian :
    ((30 : Nat) ≤ 30 ∧ 1 + 30 ≤ (zeros 31).length) ∧ ((0 : Nat) ≤ 30 ∧ 31 + 0 ≤ (zeros 31).length) ∧
      ((31 : Nat) > 30 ∨ 0 + 31 > (zeros 31).length) ∧ ((30 : Nat) > 30 ∨ 2 + 30 > (zeros 31).length) := by decide

theorem witness_ExtsReadsTwosComplement :
    ((1 : Nat) ≤ 30 ∧ (30 : Nat) ≤ 30 ∧ 1 + 30 ≤ (zeros 31).length) ∧
      ((1 : Nat) ≤ 1 ∧ (1 : Nat) ≤ 30 ∧ 30 + 1 ≤ (zeros 31).length) ∧
      ((0 : Nat) < 1 ∨ (0 : Nat) > 30 ∨ 0 + 0 > (zeros 31).length) ∧
      ((31 : Nat) < 1 ∨ (31 : Nat) > 30 ∨ 0 + 31 > (zeros 31).length) ∧
      ((1 : Nat) < 1 ∨ (1 : Nat) > 30 ∨ 31 + 1 > (zeros 31).length) := by decide

theorem witness_InsuWritesItsFieldOnly :
    (30 ≤ 30 ∧ 1 + 30 ≤ (zeros 31).length ∧ (0 : Int) ≤ 2 ^ 30 - 1 ∧ (2 ^ 30 - 1 : Int) < 2 ^ 30) ∧
      (0 ≤ 30 ∧ 31 + 0 ≤ (zeros 31).length ∧ (0 : Int) ≤ 0 ∧ (0 : Int) < 2 ^ 0) ∧
      (31 > 30 ∨ 0 + 31 > (zeros 31).length) ∧ (30 > 30 ∨ 2 + 30 > (zeros 31).length) ∧
      (30 ≤ 30 ∧ 1 + 30 ≤ (zeros 31).length ∧ ((-1 : Int) < 0 ∨ (-1 : Int) ≥ 2 ^ 30)) ∧
      (30 ≤ 30 ∧ 1 + 30 ≤ (zeros 31).length ∧ ((2 ^ 30 : Int) < 0 ∨ (2 ^ 30 : Int) ≥ 2 ^ 30)) := by decide

theorem witness_InssWritesTwosComplement :
    (1 ≤ 8 ∧ 8 ≤ 30 ∧ 4 + 8 ≤ (zeros 12).length ∧ -(2 ^ (8 - 1)) ≤ (-128 : Int) ∧ (-128 : Int) ≤ 2 ^ (8 - 1) - 1) ∧
      (1 ≤ 1 ∧ 1 ≤ 30 ∧ 11 + 1 ≤ (zeros 12).length ∧ -(2 ^ (1 - 1)) ≤ (0 : Int) ∧ (0 : Int) ≤ 2 ^ (1 - 1) - 1) ∧
      (0 < 1 ∨ 0 > 30 ∨ 0 + 0 > (zeros 12).length) ∧ (31 < 1 ∨ 31 > 30 ∨ 0 + 31 > (zeros 12).length) ∧
      (8 < 1 ∨ 8 > 30 ∨ 5 + 8 > (zeros 12).length) ∧
      (1 ≤ 8 ∧ 8 ≤ 30 ∧ 4 + 8 ≤ (zeros 12).length ∧ ((-129 : Int) < -(2 ^ (8 - 1)) ∨ (-129 : Int) > 2 ^ (8 - 1) - 1)) ∧
      (1 ≤ 8 ∧ 8 ≤ 30 ∧ 4 + 8 ≤ (zeros 12).length ∧ ((128 : Int) < -(2 ^ (8 - 1)) ∨ (128 : Int) > 2 ^ (8 - 1) - 1)) := by
  decide

/-- One value for each of the six laws; the two disjoint fields touch. -/
theorem witness_FieldInverseLaws :
    Answers (.extu (bin "0101") 1 3) (.nat 5) ∧ Answers (.exts (bin "0101") 1 3) (.int (-3)) ∧
      Answers (.insu (zeros 4) 1 3 (5 : Nat)) (.bits (bin "0101")) ∧
      Answers (.inss (zeros 4) 1 3 (-3)) (.bits (bin "0101")) ∧
      IsInsertion .insu ∧ IsInsertion .inss ∧ 1 + 3 ≤ 4 ∧
      Answers (.insu (zeros 6) 1 3 5) (.bits (bin "010100")) ∧
      Answers (.inss (zeros 6) 4 2 (-1)) (.bits (bin "000011")) := by
  refine ⟨?_, ?_, ?_, ?_, .inl rfl, .inr rfl, by decide, ?_, ?_⟩ <;> exact answers_iff.mpr (by decide +kernel)

/-- A cut inside the field and one at each end. -/
theorem witness_MixedWidthReadsAgree :
    ∀ m ∈ [1, 2, 5], 1 ≤ m ∧ m ≤ 1 + 4 ∧ ∃ x y z : Nat, Answers (.extu (bin "01101") 1 4) (.nat x) ∧
      Answers (.extu (bin "01101") 1 (m - 1)) (.nat y) ∧ Answers (.extu (bin "01101") m (1 + 4 - m)) (.nat z) := by
  have a (s l x : Nat) (h : resultOf (.extu (bin "01101") s l) = .ok (.nat x)) := answers_iff.mpr h
  simp only [List.mem_cons, List.not_mem_nil, or_false]
  rintro m (rfl | rfl | rfl)
  · exact ⟨by decide, by decide, 13, 0, 13, a _ _ _ (by decide), a _ _ _ (by decide), a _ _ _ (by decide)⟩
  · exact ⟨by decide, by decide, 13, 1, 5, a _ _ _ (by decide), a _ _ _ (by decide), a _ _ _ (by decide)⟩
  · exact ⟨by decide, by decide, 13, 13, 0, a _ _ _ (by decide), a _ _ _ (by decide), a _ _ _ (by decide)⟩

theorem witness_TxtdecAnswersTheText :
    Answers (.txtdec (bin "100000 000001 011111 111111")) (.str (ascii " A_?")) ∧ 65#8 ∈ ascii " A_?" :=
  ⟨answers_iff.mpr (by decide +kernel), by decide⟩

/-- The first group and the last. -/
theorem witness_TxtencWritesMaxCharsGroups : 0 < 7 ∧ 6 < 7 := by decide

theorem witness_TextRoundTripKeepsLettersAndDigits :
    Answers (.txtenc (ascii "a b") 3) (.bits (bin "000001 000000 000010")) ∧ Answers (.txtenc [] 0) (.bits []) := by
  constructor <;> exact answers_iff.mpr (by decide +kernel)

/-- A field that survives, and one that does not (V-D10). -/
theorem witness_FieldSurvivesTextRoundTripIff :
    ((bin "000001 110000 000000").length = 6 * 3 ∧ Answers (.txtdec (bin "000001 110000 000000")) (.str (ascii "A0")) ∧
        Answers (.txtenc (ascii "A0") 3) (.bits (bin "000001 110000 000000"))) ∧
      (bin "000001 000000 000010").length = 6 * 3 ∧ Answers (.txtdec (bin "000001 000000 000010")) (.str (ascii "AB")) ∧
        ¬ Answers (.txtenc (ascii "AB") 3) (.bits (bin "000001 000000 000010")) := by
  refine ⟨⟨by decide, ?_, ?_⟩, by decide, ?_, ?_⟩
  · exact answers_iff.mpr (by decide +kernel)
  · exact answers_iff.mpr (by decide +kernel)
  · exact answers_iff.mpr (by decide +kernel)
  · rw [answers_iff]; decide +kernel

theorem witness_SpaceCodeThirtyTwoKeepsSpaces :
    (65#8 : Byte) ≠ 32#8 ∧ (∀ c ∈ ascii " A 9", survives c = true ∨ c = 32#8) ∧ (ascii " A 9").getLast? ≠ some 32#8 := by
  decide

/-- A field of 28 one-bits, and the two ends of the latitude's range. -/
theorem witness_SecondSentinelIsDeadOnDecode :
    Answers (.msgdec payload1) (.record record1 .positionReportA) ∧
      (1 ≤ 28 ∧ 28 ≤ 30 ∧ 1 + 28 ≤ (false :: List.replicate 28 true).length ∧
        ∀ i, 1 ≤ i → i < 1 + 28 → (false :: List.replicate 28 true)[i]? = some true) ∧
      (-(2 ^ 26) ≤ (-(2 ^ 26) : Int) ∧ (-(2 ^ 26) : Int) < 2 ^ 26) ∧
      (-(2 ^ 26) ≤ (2 ^ 26 - 1 : Int) ∧ (2 ^ 26 - 1 : Int) < 2 ^ 26) := by
  refine ⟨answers_iff.mpr (by decide +kernel), ⟨by decide, by decide, by decide, ?_⟩, by decide, by decide⟩
  intro i h1 h2
  obtain ⟨k, rfl⟩ := Nat.exists_eq_add_of_le' h1
  rw [List.getElem?_cons_succ, List.getElem?_replicate, if_pos (by omega)]

/-- Types 1, 2 and 3 of exactly 168 bits (V-S1, V-D14). -/
theorem witness_PositionReportAFields :
    (fieldValue (payloadBits payload1) 0 6 = 1 ∧ 168 ≤ (payloadBits payload1).length) ∧
      (fieldValue (payloadBits (ascii "200000OOh1k81`1<P6P00@1n0000")) 0 6 = 2 ∧
        168 ≤ (payloadBits (ascii "200000OOh1k81`1<P6P00@1n0000")).length) ∧
      fieldValue (payloadBits (ascii "31mg=5EP?wdtSF0l4Q@>4?wp0000")) 0 6 = 3 ∧
        168 ≤ (payloadBits (ascii "31mg=5EP?wdtSF0l4Q@>4?wp0000")).length := by decide +kernel

theorem witness_BaseStationFields :
    fieldValue (payloadBits (ascii "402<HH@000000G??E0GMMh000000")) 0 6 = 4 ∧
      168 ≤ (payloadBits (ascii "402<HH@000000G??E0GMMh000000")).length := by decide +kernel

theorem witness_StaticVoyageFields :
    fieldValue (payloadBits payload5) 0 6 = 5 ∧ 424 ≤ (payloadBits payload5).length := by decide +kernel

theorem witness_PositionReportBFields :
    fieldValue (payloadBits (ascii "B52MJh00?Ekkm@5oGL0p?wP00000")) 0 6 = 18 ∧
      168 ≤ (payloadBits (ascii "B52MJh00?Ekkm@5oGL0p?wP00000")).length := by decide +kernel

/-- Type 24 with each of the four part numbers (V-D24A, V-D24B, V-D24X). -/
theorem witness_StaticDataReportFields :
    ∀ x ∈ [(0, ascii "H52MJh1<D408U8@380000000000"), (1, payload24B), (2, ascii "H52MJh8UG45ijkl0`7220000000"),
        (3, ascii "H52MJh<UG45ijkl0`7220000000")],
      fieldValue (payloadBits x.2) 0 6 = 24 ∧ 160 ≤ (payloadBits x.2).length ∧
        fieldValue (payloadBits x.2) 38 2 = x.1 := by decide +kernel

/-- Types 0 and 63 of 6, 36 and 42 bits; types 1, 5 and 24 one byte short of their layout, and of 6 bits. -/
theorem witness_HeaderOnlyMessages :
    (∀ x ∈ [(0, ascii "0"), (63, ascii "w00000"), (63, ascii "w000000")],
      fieldValue (payloadBits x.2) 0 6 = x.1 ∧ 6 ≤ (payloadBits x.2).length ∧ x.1 ∉ [1, 2, 3, 4, 5, 18, 24]) ∧
      ∀ x ∈ [(1, ascii "1" ++ List.replicate 26 48#8), (5, ascii "5" ++ List.replicate 69 48#8),
          (24, ascii "H" ++ List.replicate 25 48#8), (18, ascii "B")],
        fieldValue (payloadBits x.2) 0 6 = x.1 ∧ 6 ≤ (payloadBits x.2).length ∧
          ((x.1 ∈ [1, 2, 3, 4, 18] ∧ (payloadBits x.2).length < 168) ∨ (x.1 = 5 ∧ (payloadBits x.2).length < 424) ∨
            (x.1 = 24 ∧ (payloadBits x.2).length < 160)) := by decide +kernel

/-- The fields of the Scenario 1 line. -/
def good : List Str := [ascii "!AIVDM", ascii "1", ascii "1", [], ascii "B", payload1, ascii "0*54"]

theorem isFields_of {l : List Str} (h : (l ≠ [] ∧ l.all fun f => !f.contains 44#8) := by decide +kernel) :
    IsFields l := by
  refine ⟨h.1, fun f hf hc => ?_⟩
  have := List.all_eq_true.mp h.2 f hf
  simp [hc] at this

/-- A line of each tag; six fields; an empty field 5; another prefix. -/
theorem witness_DeclineDecodesFieldFive :
    (∀ l ∈ [good, ascii "!AIVDO" :: good.tail],
      IsFields l ∧ (ascii "!AIVDM" <+: lineOf l ∨ ascii "!AIVDO" <+: lineOf l) ∧ 7 ≤ l.length ∧ l.getD 5 [] ≠ []) ∧
      ∀ l ∈ [good.take 6, good.set 5 [], ascii "$GPGGA" :: good.tail],
        IsFields l ∧
          ¬((ascii "!AIVDM" <+: lineOf l ∨ ascii "!AIVDO" <+: lineOf l) ∧ 7 ≤ l.length ∧ l.getD 5 [] ≠ []) := by
  constructor
  · intro l hl
    simp only [List.mem_cons, List.not_mem_nil, or_false] at hl
    obtain rfl | rfl := hl <;> exact ⟨isFields_of, by decide +kernel⟩
  · intro l hl
    simp only [List.mem_cons, List.not_mem_nil, or_false] at hl
    obtain rfl | rfl | rfl := hl <;> exact ⟨isFields_of, by decide +kernel⟩

theorem witness_DecoptAnswersTheNamedScalar :
    IsFields good ∧ Answers (.msgdec (good.getD 5 [])) (.record record1 .positionReportA) ∧
      (ascii "!AIVDM" <+: lineOf good ∧ 7 ≤ good.length ∧ good.getD 5 [] ≠ []) ∧
      ascii "shipType" ∉ ["type", "mmsi", "navStatus", "rot", "sog", "posAccuracy", "lon", "lat", "cog", "heading",
        "timestamp", "imo", "shiptype", "dimA", "dimB", "dimC", "dimD", "partNumber"].map ascii ∧
      IsFields (good.take 6) ∧ (¬ 7 ≤ (good.take 6).length) ∧ (good.set 5 []).getD 5 [] = [] ∧
      IsFields (good.set 5 []) ∧ ¬ ascii "!AIVDO" <+: lineOf good := by
  refine ⟨isFields_of, answers_iff.mpr (by decide +kernel), by decide +kernel, by decide +kernel, isFields_of,
    by decide +kernel, by decide +kernel, isFields_of, by decide +kernel⟩

/-- Two lines that differ in everything but the prefix, the number of fields being at least seven, and field 5. -/
theorem witness_DecodeLooksAtFieldFiveOnly :
    let l := good
    let m := [ascii "!AIVDM", ascii "9", [], ascii "7", ascii "A", payload1, ascii "5*00", []]
    IsFields l ∧ IsFields m ∧ 7 ≤ l.length ∧ 7 ≤ m.length ∧ l[0]? = m[0]? ∧ l[5]? = m[5]? ∧ 44#8 ∉ ascii "!AIVDM" :=
  ⟨isFields_of, isFields_of, by decide +kernel, by decide +kernel, by decide +kernel, by decide +kernel,
    by decide +kernel⟩

/-- A payload of each variant. -/
theorem witness_UnionViewOfARecord :
    Answers (.msgdec (ascii "w")) (.record { type := 63 } .unrecognized) ∧
      Answers (.msgdec (ascii "1")) (.record { type := 1 } .headerOnly) ∧
      Answers (.msgdec (ascii "H52MJh8UG45ijkl0`7220000000"))
        (.record { type := 24, mmsi := 338123456, partNumber := 2 } .headerOnly) ∧
      Answers (.msgdec (ascii "402<HH@000000G??E0GMMh000000"))
        (.record { type := 4, mmsi := 2300001, lonRaw := -73500000, latRaw := 24600000 } .baseStationPartial) ∧
      Answers (.msgdec (ascii "B52MJh00?Ekkm@5oGL0p?wP00000")) (.record
        { type := 18, mmsi := 338123456, sogRaw := 61, lonRaw := -73500000, latRaw := 24600000, cogRaw := 899,
          heading := 511 } .positionReportB) ∧
      Answers (.msgdec payload1) (.record record1 .positionReportA) ∧
      Answers (.msgdec payload5) (.record
        { type := 5, mmsi := 374426000, callsign := ascii "3EWC6", shipName := ascii "CRANEVESTA" }
        .staticVoyageData) ∧
      Answers (.msgdec (ascii "H52MJh1<D408U8@380000000000")) (.record
        { type := 24, mmsi := 338123456, partNumber := 0, shipName := ascii "SEABIRD2" } .staticDataReportA) ∧
      Answers (.msgdec payload24B) (.record
        { type := 24, mmsi := 338123456, partNumber := 1, shipType := 37, callsign := ascii "WDE1234", dimA := 5,
          dimB := 7, dimC := 2, dimD := 2 } .staticDataReportB) := by
  refine ⟨?_, ?_, ?_, ?_, ?_, ?_, ?_, ?_, ?_⟩ <;> exact answers_iff.mpr (by decide +kernel)

/-- Every field at its largest value, at its smallest, and one past each; a type outside 1..3. -/
theorem witness_EncposaSendsItsFields :
    (1 = (1 : Int) ∧ (⟨2 ^ 30 - 1, 15, 127, 1023, true, 2 ^ 27 - 1, 2 ^ 26 - 1, 4095, 511, 63⟩ : PosA).fits = true) ∧
      (3 = (3 : Int) ∧ (⟨0, 0, -128, 0, false, -(2 ^ 27), -(2 ^ 26), 0, 0, 0⟩ : PosA).fits = true) ∧
      ¬(((1 : Int) = 1 ∨ (1 : Int) = 2 ∨ (1 : Int) = 3) ∧ ({ fields0 with rot := -129 } : PosA).fits = true) ∧
      ¬(((1 : Int) = 1 ∨ (1 : Int) = 2 ∨ (1 : Int) = 3) ∧ ({ fields0 with latRaw := 2 ^ 26 } : PosA).fits = true) ∧
      ¬(((4 : Int) = 1 ∨ (4 : Int) = 2 ∨ (4 : Int) = 3) ∧ fields0.fits = true) ∧
      ¬(((0 : Int) = 1 ∨ (0 : Int) = 2 ∨ (0 : Int) = 3) ∧ fields0.fits = true) := by decide

theorem witness_EncbaseSendsItsFields :
    (⟨2 ^ 30 - 1, 2 ^ 27 - 1, -(2 ^ 26)⟩ : Base).fits = true ∧ (⟨0, -(2 ^ 27), 2 ^ 26 - 1⟩ : Base).fits = true ∧
      (⟨0, 2 ^ 27, 0⟩ : Base).fits = false ∧ (⟨-1, 0, 0⟩ : Base).fits = false := by decide

theorem witness_EncstatSendsItsFields :
    (⟨2 ^ 30 - 1, 2 ^ 30 - 1, ascii "12345678", [], 255, 511, 511, 63, 63⟩ : Voyage Str).fits = true ∧
      (⟨0, 0, [], [], 0, 0, 0, 0, 0⟩ : Voyage Str).fits = true ∧
      (⟨0, 2 ^ 30, [], [], 0, 0, 0, 0, 0⟩ : Voyage Str).fits = false ∧
      (⟨0, 0, [], [], 0, 0, 0, 0, 64⟩ : Voyage Str).fits = false := by decide

theorem witness_EncposbSendsItsFields :
    (⟨2 ^ 30 - 1, 1023, 2 ^ 27 - 1, 2 ^ 26 - 1, 4095, 511⟩ : PosB).fits = true ∧
      (⟨0, 0, -(2 ^ 27), -(2 ^ 26), 0, 0⟩ : PosB).fits = true ∧ (⟨0, 1024, 0, 0, 0, 0⟩ : PosB).fits = false ∧
      (⟨0, 0, 0, -(2 ^ 26) - 1, 0, 0⟩ : PosB).fits = false := by decide

theorem witness_EncTwentyFourASendsItsFields :
    (⟨2 ^ 30 - 1, ascii "a!"⟩ : NameA Str).fits = true ∧ (⟨0, []⟩ : NameA Str).fits = true ∧
      (⟨2 ^ 30, []⟩ : NameA Str).fits = false ∧ (⟨-1, []⟩ : NameA Str).fits = false := by decide

theorem witness_EncTwentyFourBSendsItsFields :
    (⟨2 ^ 30 - 1, 255, ascii "a", 511, 511, 63, 63⟩ : StaticB Str).fits = true ∧
      (⟨0, 0, [], 0, 0, 0, 0⟩ : StaticB Str).fits = true ∧ (⟨0, 256, [], 0, 0, 0, 0⟩ : StaticB Str).fits = false ∧
      (⟨0, 0, [], 0, -1, 0, 0⟩ : StaticB Str).fits = false := by decide

theorem answers_encposa :
    Answers (.encposa 3 fieldsB) (.sentences [ascii "!AIVDM,1,1,,A,31mg=5EP?wdtSF0l4Q@>4?wp0000,0*35"]) :=
  answers_iff.mpr (by decide +kernel)

theorem answers_encbase : Answers (.encbase base4) (.sentences [sentence4]) := answers_iff.mpr (by decide +kernel)

theorem answers_encposb : Answers (.encposb posb18) (.sentences [sentence18]) := answers_iff.mpr (by decide +kernel)

theorem answers_encstat : Answers (.encstat voyage5) (.sentences [sentence5a, sentence5b]) :=
  answers_iff.mpr (by decide +kernel)

theorem answers_enc24a : Answers (.enc24a nameA24) (.sentences [sentence24A]) := answers_iff.mpr (by decide +kernel)

theorem answers_enc24b : Answers (.enc24b staticB24) (.sentences [sentence24B]) := answers_iff.mpr (by decide +kernel)

theorem witness_FragmentCounts :
    (∃ t f l, Answers (.encposa t f) (.sentences l)) ∧ (∃ f l, Answers (.encbase f) (.sentences l)) ∧
      (∃ f l, Answers (.encposb f) (.sentences l)) ∧ (∃ f l, Answers (.enc24a f) (.sentences l)) ∧
      (∃ f l, Answers (.enc24b f) (.sentences l)) ∧ ∃ f l, Answers (.encstat f) (.sentences l) :=
  ⟨⟨_, _, _, answers_encposa⟩, ⟨_, _, answers_encbase⟩, ⟨_, _, answers_encposb⟩, ⟨_, _, answers_enc24a⟩,
    ⟨_, _, answers_enc24b⟩, ⟨_, _, answers_encstat⟩⟩

theorem witness_PositionsSurviveEncodeAndDecode :
    (∃ t f l, Answers (.encposa t f) (.sentences l)) ∧ (∃ f l, Answers (.encbase f) (.sentences l)) ∧
      ∃ f l, Answers (.encposb f) (.sentences l) :=
  ⟨⟨_, _, _, answers_encposa⟩, ⟨_, _, answers_encbase⟩, ⟨_, _, answers_encposb⟩⟩

theorem witness_StaticDataSurvivesEncodeAndDecode :
    (∃ f l, Answers (.encstat f) (.sentences l)) ∧ (∃ f l, Answers (.enc24a f) (.sentences l)) ∧
      ∃ f l, Answers (.enc24b f) (.sentences l) :=
  ⟨⟨_, _, answers_encstat⟩, ⟨_, _, answers_enc24a⟩, ⟨_, _, answers_enc24b⟩⟩

theorem witness_FragmentsDoNotDecodeAlone : ∃ f x y, Answers (.encstat f) (.sentences [x, y]) :=
  ⟨_, _, _, answers_encstat⟩

/-- Rounding down meets the constraint on QUANT. -/
theorem witness_QuantisedPositionsComeBack :
    Config.IsQuant (fun x => ⌊x * 10⌋) (fun a x => match x with
      | .rat x => ⌊x * 600000⌋
      | .nan => Config.firstSentinel a) where
  tenth_close x := by
    have h1 := Int.floor_le (x * 10)
    have h2 := Int.lt_floor_add_one (x * 10)
    rw [abs_le]
    constructor <;> linarith
  position_close _ x := by
    have h1 := Int.floor_le (x * 600000)
    have h2 := Int.lt_floor_add_one (x * 600000)
    rw [abs_le]
    constructor <;> linarith
  position_nan _ := rfl

theorem witness_ChksumXorsBetweenDelimiters :
    (42#8 : Byte) ∉ ([] : Str) ∧ (42#8 : Byte) ∉ ascii "AIVDM,1" ∧
      ((ascii "AIVDM*").head? ≠ some 33#8 ∨ 42#8 ∉ ascii "AIVDM*") ∧
      ((ascii "!AIVDM").head? ≠ some 33#8 ∨ 42#8 ∉ ascii "!AIVDM") ∧
      (([] : Str).head? ≠ some 33#8 ∨ 42#8 ∉ ([] : Str)) := by decide

theorem witness_FrameWrapsGreedyChunks :
    (ascii "!AIVDM" = ascii "!AIVDM" ∨ ascii "!AIVDM" = ascii "!AIVDO") ∧
      (ascii "!AIVDO" = ascii "!AIVDM" ∨ ascii "!AIVDO" = ascii "!AIVDO") ∧
      ascii "$GPGGA" ≠ ascii "!AIVDM" ∧ ascii "$GPGGA" ≠ ascii "!AIVDO" := by decide

/-- A payload of one byte, and a boundary one of 63. -/
theorem witness_FrameLaws :
    (Answers (.frame (ascii "0") (ascii "!AIVDM")) (.sentences [ascii "!AIVDM,1,1,,A,0,0*16"]) ∧
        42#8 ∉ ascii "0" ∧ 44#8 ∉ ascii "0") ∧
      Answers (.frame (List.replicate 63 48#8) (ascii "!AIVDM")) (.sentences
        [ascii "!AIVDM,2,1,,A," ++ List.replicate 62 48#8 ++ ascii ",0*25", ascii "!AIVDM,2,2,,A,0,0*16"]) ∧
      42#8 ∉ List.replicate 63 48#8 ∧ 44#8 ∉ List.replicate 63 48#8 :=
  ⟨⟨answers_iff.mpr (by decide +kernel), by decide +kernel, by decide +kernel⟩, answers_iff.mpr (by decide +kernel),
    by decide +kernel, by decide +kernel⟩

end Sys2Proof.Tests
end

/-! The obligations of the scope family: what decoding and encoding say of each other, what a step runs, which
instructions complete, and that an outcome depends on the operands alone (rules R5, R17, R33, R68 to R79, R196). -/

namespace Sys2Proof.Machine

open Sys2Proof.Spec

/-! ### Decoding what the encoder writes -/

/-- An operation's request word decodes to the operation, whatever its operands (rules R5, R33). -/
theorem decode_encode_operation {i : Instr} (h : isOperation i = true) : decode (encode i) = .ok i := by
  cases i
  case msg1 | msg2 | msg3 | msg4 | msg5 | msg18 | msg24a | msg24b | msg24x | msgother | msgshort | msgempty => cases h
  all_goals rfl

/-- An armored message decodes to the row that its bits, padded to whole characters, are (rules R90, R91). -/
theorem decode_message_toArmor {b : Bits} {i : Instr} (h : decodeBits (padSix b) = i) :
    decode (.message (toArmor b)) = .ok i := by
  rw [decode, decodeMessage, toBits_toArmor, h]

/-- A type read from a message is supported exactly when it is one of the seven (rule R4). -/
theorem isSupported_uintAt (b : Bits) (s l : Nat) :
    isSupported (uintAt b s l) = true ↔ uintAt b s l ∈ Config.supportedTypes := by
  rw [isSupported_nat, decide_eq_true_iff]

/-- No layout is shorter than that of type 24 (rule R11). -/
theorem minBits_ge_of_supported : ∀ t ∈ Config.supportedTypes, 160 ≤ Config.minBits t := by decide

/-- A header of a type without a layout (rule R132). -/
theorem decodeBits_header_other {type : Int} {mmsi : Option Int} (ht : fitsU 6 type = true)
    (hs : isSupported type = false) (hm : mmsiOk mmsi = true) :
    decodeBits (padSix (headerBits type mmsi)) = .msgother type mmsi := by
  obtain ⟨htype, hmmsi, hlen, -⟩ := header_read ht hm
  have hrow := rowOf_msgother hlen fun hmem => by
    rw [← isSupported_uintAt, htype, hs] at hmem; cases hmem
  simp only [decodeBits, hrow, htype, hmmsi]

/-- A header of a type whose layout is longer than a header (rule R133). -/
theorem decodeBits_header_short {type : Int} {mmsi : Option Int} (hs : isSupported type = true)
    (hm : mmsiOk mmsi = true) : decodeBits (padSix (headerBits type mmsi)) = .msgshort type mmsi := by
  obtain ⟨htype, hmmsi, hlen, hlt⟩ := header_read (supported_fits hs) hm
  have hmem := (isSupported_uintAt _ 0 6).mp (htype ▸ hs)
  have hrow := rowOf_msgshort hlen hmem (hlt.trans_le (minBits_ge_of_supported _ hmem))
  simp only [decodeBits, hrow, htype, hmmsi]

/-- A well-formed message row's payload decodes to the row: each layout is read where it was written (rules R68 to
R78). -/
theorem decode_encode_message {i : Instr} (h : isOperation i = false) (hw : WellFormed i = true) :
    decode (encode i) = .ok i := by
  cases i
  case msg1 f => exact decode_message_toArmor (decodeBits_posA hw).1
  case msg2 f => exact decode_message_toArmor (decodeBits_posA hw).2.1
  case msg3 f => exact decode_message_toArmor (decodeBits_posA hw).2.2
  case msg4 f => exact decode_message_toArmor (decodeBits_base hw)
  case msg5 f =>
    simp only [WellFormed, Bool.and_eq_true] at hw
    obtain ⟨⟨hf, hc⟩, hn⟩ := hw
    exact decode_message_toArmor
      (decodeBits_voyage hf (Laws.TableRow.textWidth_length hc) (Laws.TableRow.textWidth_length hn))
  case msg18 f => exact decode_message_toArmor (decodeBits_posB hw)
  case msg24a f =>
    simp only [WellFormed, Bool.and_eq_true] at hw
    obtain ⟨hf, hn⟩ := hw
    exact decode_message_toArmor (decodeBits_nameA hf (Laws.TableRow.textWidth_length hn))
  case msg24b f =>
    simp only [WellFormed, Bool.and_eq_true] at hw
    obtain ⟨hf, hc⟩ := hw
    exact decode_message_toArmor (decodeBits_staticB hf (Laws.TableRow.textWidth_length hc))
  case msg24x mmsi part =>
    simp only [WellFormed, Bool.and_eq_true, Bool.or_eq_true, beq_iff_eq] at hw
    exact decode_message_toArmor (decodeBits_partX hw.1 hw.2)
  case msgother type mmsi =>
    simp only [WellFormed, Bool.and_eq_true, Bool.not_eq_true'] at hw
    obtain ⟨⟨ht, hs⟩, hm⟩ := hw
    exact decode_message_toArmor (decodeBits_header_other ht hs hm)
  case msgshort type mmsi =>
    simp only [WellFormed, Bool.and_eq_true] at hw
    exact decode_message_toArmor (decodeBits_header_short hw.1 hw.2)
  case msgempty => rfl
  all_goals cases h

/-- Settles O6: an operation's operands stand in its request as they are, and a message row's layout is read where it
was written. -/
theorem decodeInvertsEncode : Obligations.DecodeInvertsEncode := by
  intro i hw
  cases h : isOperation i with
  | true => exact decode_encode_operation h
  | false => exact decode_encode_message h hw

/-- Settles O7, by the inversion of the request decoder. -/
theorem encodeInvertsDecodeOfRequests : Obligations.EncodeInvertsDecodeOfRequests :=
  fun _ _ h => (decodeRequest_ok h).1

/-! ### Well-formed instructions complete -/

/-- A computation that ends in a value ends in a response. -/
theorem exists_response_of_ok {α : Type} {x : Except Refusal α} {a : α} (c : α → Response) (h : x = .ok a) :
    ∃ r, x.map c = .ok r := ⟨c a, by rw [h]; rfl⟩

/-- A computation that a check guards ends in a response when the check is met. -/
theorem exists_response_of_check {α : Type} {x : Except Refusal α} {a : α} {e : Refusal} {p : Prop} [Decidable p]
    (c : α → Response) (hx : x = if p then .ok a else .error e) (h : p) : ∃ r, x.map c = .ok r :=
  exists_response_of_ok c (hx.trans (if_pos h))

/-- The slice check in numbers (rules R49, R50). -/
theorem sliceOk_iff {b : Bits} {s l : Nat} : sliceOk b s l = true ↔ l ≤ 30 ∧ s + l ≤ b.length := by
  simp only [sliceOk, Bool.and_eq_true, decide_eq_true_eq]
  rfl

/-- CHKSUM answers on a sentence that starts with `!` and holds a `*` (rules R173, R196). -/
theorem chksum_answers {t : Str} (h : WellFormed (.chksum t) = true) : ∃ x, chksum t = .ok x := by
  simp only [WellFormed, Bool.and_eq_true, beq_iff_eq, List.contains_iff_mem] at h
  obtain ⟨hbang, hstar⟩ := h
  have hhead := List.head?_take (l := t) (i := 1)
  rw [hbang] at hhead
  obtain ⟨body, after, hbody, rfl⟩ := delimited_shape hhead.symm hstar
  exact ⟨_, chksum_body hbody after⟩

/-- Operands in the domain of their rule are refused by no check (rule R196). -/
theorem resultOf_ok_of_wellFormed {i : Instr} (h : WellFormed i = true) : ∃ r, resultOf i = .ok r := by
  cases i
  all_goals rw [resultOf]
  case extu b s l =>
    obtain ⟨hl, hs⟩ := sliceOk_iff.mp h
    exact exists_response_of_ok .nat (extu_ok hl hs)
  case exts b s l =>
    simp only [WellFormed, Bool.and_eq_true, decide_eq_true_eq, sliceOk_iff] at h
    obtain ⟨hpos, hl, hs⟩ := h
    exact exists_response_of_ok .int (exts_ok hpos hl hs)
  case insu b s l v =>
    simp only [WellFormed, fitsU, Bool.and_eq_true, decide_eq_true_eq, sliceOk_iff] at h
    obtain ⟨⟨hl, hs⟩, hlo, hhi⟩ := h
    exact exists_response_of_ok .bits (insu_ok hl hs hlo hhi)
  case inss b s l v =>
    simp only [WellFormed, fitsS, Bool.and_eq_true, decide_eq_true_eq, sliceOk_iff] at h
    obtain ⟨⟨hpos, hl, hs⟩, hlo, hhi⟩ := h
    exact exists_response_of_ok .bits (inss_ok hpos hl hs hlo hhi)
  case encposa t f =>
    simp only [WellFormed, Bool.and_eq_true, Bool.or_eq_true, beq_iff_eq, or_assoc] at h
    exact exists_response_of_check .sentences (encPosA_eq t f) h
  case encbase f => exact exists_response_of_check .sentences (encBase_eq f) h
  case encstat f => exact exists_response_of_check .sentences (encStat_eq f) h
  case encposb f => exact exists_response_of_check .sentences (encPosB_eq f) h
  case enc24a f => exact exists_response_of_check .sentences (encNameA_eq f) h
  case enc24b f => exact exists_response_of_check .sentences (encStaticB_eq f) h
  case chksum t =>
    obtain ⟨x, hx⟩ := chksum_answers h
    exact exists_response_of_ok .nat hx
  case frame payload tag =>
    simp only [WellFormed, Bool.or_eq_true, beq_iff_eq] at h
    exact exists_response_of_ok .sentences (frame_ok h payload)
  all_goals exact ⟨_, rfl⟩

/-- Settles O11: in every state the outcome is the instruction's result, which well-formed operands make a response. -/
theorem wellFormedInstructionsComplete : Obligations.WellFormedInstructionsComplete := by
  intro i hw
  obtain ⟨r, hr⟩ := resultOf_ok_of_wellFormed hw
  exact ⟨r, answers_iff.mpr hr⟩

/-! ### Steps, samples, and the outcome as a function of the operands -/

/-- Settles O2: the step of a request that decodes and the execution of what it decodes to deliver the same result. -/
theorem stepRunsTheDecodedRequest : Obligations.StepRunsTheDecodedRequest := by
  intro s r rest i hq hd
  rw [step_of_decode hq hd, exec_eq_respond]

/-- Settles O5, by running the decoder on the five words. -/
theorem sampleWordsDecode : Obligations.SampleWordsDecode :=
  ⟨rfl, rfl, by decide, by decide, rfl⟩

/-- Settles O10: the outcome is the instruction's result, which is a response or a refusal. -/
theorem outcomeDependsOnOperandsAlone : Obligations.OutcomeDependsOnOperandsAlone := by
  intro i
  cases h : resultOf i with
  | ok r => exact .inl ⟨r, answers_iff.mpr h⟩
  | error e => exact .inr ⟨e, refuses_iff.mpr h⟩

end Sys2Proof.Machine

/-! The obligations of the state family: reset, what every step keeps of the responses held, and the tagged-union view
of a record (rules R20, R22, R26, R27, R32). -/

namespace Sys2Proof.Machine

open Sys2Proof.Spec

/-- Settles O1: reset holds no response that could be illegal. -/
theorem resetHoldsNothing : Obligations.ResetHoldsNothing :=
  ⟨reset_requests, reset_responses, fun r hr => by simp at hr⟩

/-! ### Every response is legal -/

/-- A response that a computation's value is wrapped in comes from a value the computation ends with. -/
theorem exists_value_of_map_ok {α : Type} {x : Except Refusal α} {c : α → Response} {r : Response}
    (h : x.map c = .ok r) : ∃ a, x = .ok a ∧ c a = r := by
  cases x with
  | ok a => exact ⟨a, rfl, Except.ok.inj h⟩
  | error e => cases h

/-- The armor alphabet lies within the bytes of a legal string (rule R64). -/
theorem toArmor_legal (b : Bits) : (Response.str (toArmor b)).Legal := by
  intro c hc
  have := toArmor_inArmor b c hc
  rw [inArmor] at this
  omega

/-- The text alphabet lies within the bytes of a legal string (rule R66). -/
theorem txtdec_response_legal (b : Bits) : (Response.str (txtdec b)).Legal := by
  intro c hc
  obtain ⟨-, hrange, -⟩ := txtdec_legal (le_refl (b.length / 6))
  have := hrange c hc
  omega

/-- EXTU reads at most 30 bits (rules R11, R100). -/
theorem extu_legal {b : Bits} {s l x : Nat} (h : extu b s l = .ok x) : (Response.nat x).Legal := by
  obtain ⟨hl, -, rfl⟩ := extu_inv h
  exact (uintAt_lt b s l).trans_le (Nat.pow_le_pow_right (by decide) hl)

/-- EXTS reads at most 30 bits, the sign among them (rules R11, R101). -/
theorem exts_legal {b : Bits} {s l : Nat} {x : Int} (h : exts b s l = .ok x) : (Response.int x).Legal := by
  obtain ⟨hpos, hl, hs, rfl⟩ := exts_inv h
  obtain ⟨hlo, hhi⟩ := sintAt_range hpos hs
  have hpow : (2 : Int) ^ (l - 1) ≤ 2 ^ 29 := pow_le_pow_right₀ (by decide) (by omega)
  exact ⟨by omega, by omega⟩

/-- A checksum is one byte (rule R173). -/
theorem chksum_legal {t : Str} {x : Nat} (h : chksum t = .ok x) : (Response.nat x).Legal := by
  unfold chksum at h
  split at h
  · cases h
  · cases h
    exact (xor8_lt _).trans (by decide)

/-- FRAME's sentences are valid for its tag (rules R170, R174). -/
theorem frame_legal {payload tag : Str} {l : List Str} (h : frame payload tag = .ok l) :
    (Response.sentences l).Legal := by
  obtain ⟨htag, rfl⟩ := frame_inv h
  intro t ht
  obtain ⟨k, -, rfl⟩ := List.mem_map.mp ht
  obtain rfl | rfl := id htag
  · exact .inl (isValid_sentence htag _ _ _)
  · exact .inr (isValid_sentence htag _ _ _)

/-- An encoder's sentences are valid for the default tag, whatever message it checked and built (rules R150, R170). -/
theorem encoder_legal {x : Except Refusal (List Str)} {p : Prop} [Decidable p] {b : Bits} {e : Refusal} {r : Response}
    (hx : x = if p then .ok (sentencesOf b) else .error e) (hr : x.map .sentences = .ok r) : r.Legal := by
  obtain ⟨l, hl, rfl⟩ := exists_value_of_map_ok hr
  rw [hx] at hl
  split at hl
  · cases hl
    exact fun t ht => .inl (isValid_sentencesOf b t ht)
  · cases hl

/-- PARSE's fields hold no comma, and `ok` tells whether there are seven (rules R171, R172). -/
theorem parse_legal (line : Str) : (Response.fields (parse line).1 (parse line).2).Legal := by
  obtain ⟨hne, hfree⟩ := split_isFields line
  exact ⟨hne, hfree, decide_eq_true_iff⟩

/-- DECLINE answers MSGDEC's record of field 5 or the zero record (rule R135). -/
theorem decline_legal (line : Str) : (declineResponse Config.params line).Legal := by
  unfold declineResponse
  split
  · split
    · exact msgdec_legal _
    · exact zero_legal
  · exact zero_legal

/-- Every response of an operation is legal, whatever its operands (rules R22 to R27, R33). -/
theorem resultOf_legal {i : Instr} {r : Response} (hop : isOperation i = true) (hr : resultOf i = .ok r) :
    r.Legal := by
  cases i
  case msg1 | msg2 | msg3 | msg4 | msg5 | msg18 | msg24a | msg24b | msg24x | msgother | msgshort | msgempty => cases hop
  all_goals rw [resultOf] at hr
  case toarmor b => cases hr; exact toArmor_legal b
  case txtdec b => cases hr; exact txtdec_response_legal b
  case extu b s l =>
    obtain ⟨x, hx, rfl⟩ := exists_value_of_map_ok hr
    exact extu_legal hx
  case exts b s l =>
    obtain ⟨x, hx, rfl⟩ := exists_value_of_map_ok hr
    exact exts_legal hx
  case chksum t =>
    obtain ⟨x, hx, rfl⟩ := exists_value_of_map_ok hr
    exact chksum_legal hx
  case frame payload tag =>
    obtain ⟨l, hl, rfl⟩ := exists_value_of_map_ok hr
    exact frame_legal hl
  case msgdec payload => cases hr; exact msgdec_legal payload
  case decline line => cases hr; exact decline_legal line
  case parse line => cases hr; exact parse_legal line
  case encposa t f => exact encoder_legal (encPosA_eq t f) hr
  case encbase f => exact encoder_legal (encBase_eq f) hr
  case encstat f => exact encoder_legal (encStat_eq f) hr
  case encposb f => exact encoder_legal (encPosB_eq f) hr
  case enc24a f => exact encoder_legal (encNameA_eq f) hr
  case enc24b f => exact encoder_legal (encStaticB_eq f) hr
  case insu | inss =>
    obtain ⟨out, -, rfl⟩ := exists_value_of_map_ok hr
    trivial
  case tobits | txtenc | declon | declat | decopt | isvalid | chkvfy => cases hr; trivial

/-- Delivering a legal response keeps the responses held legal. -/
theorem deliver_keeps_legal {s : State} {r : Response} (hs : s.Legal) (hr : r.Legal) : (s.deliver r).Legal := by
  intro x hx
  rw [deliver_responses, List.mem_append, List.mem_singleton] at hx
  obtain hx | rfl := hx
  · exact hs x hx
  · exact hr

/-- Settles O13: a step changes nothing or delivers one response of an operation, which is legal. -/
theorem everyStepKeepsResponsesLegal : Obligations.EveryStepKeepsResponsesLegal := by
  intro s s' hs hstep
  obtain ⟨-, rfl⟩ | ⟨q, rest, i, r, -, hdec, hres, rfl⟩ := step_cases hstep
  · exact hs
  · exact deliver_keeps_legal (s := { s with requests := rest }) hs (resultOf_legal (decodeRequest_ok hdec).2 hres)

/-! ### The tagged-union view -/

/-- Only a type-24 message of at least 160 bits gives its record a part number (rules R128, R133). -/
theorem recOfBits_partNumber_zero {b : Bits} (h : (recOfBits b).type ≠ 24 ∨ b.length < 160) :
    (recOfBits b).partNumber = 0 := by
  have hrow := rowOf_spec b
  unfold recOfBits at h ⊢
  split at hrow <;> rename_i hr <;> simp only [hr] at h ⊢
  case h_8 | h_9 =>
    obtain ht | hn := h
    · exact absurd rfl ht
    · omega
  all_goals rfl

/-- The VARIANT of a type-24 record names its part number (rules R26, R128). -/
theorem partNumber_of_variantOf {r : Rec} {n : Nat} (ht : r.type = 24) :
    (variantOf r n = .staticDataReportA → r.partNumber = 0) ∧
      (variantOf r n = .staticDataReportB → r.partNumber = 1) := by
  by_cases hn : 160 ≤ n
  · rw [variantOf_part hn ht]
    split
    · next h0 => exact ⟨fun _ => h0, nofun⟩
    · next h1 => exact ⟨nofun, fun _ => h1⟩
    · exact ⟨nofun, nofun⟩
  · have hv : variantOf r n = .unrecognized ∨ variantOf r n = .headerOnly := by
      by_cases h6 : n < 6
      · exact .inl (variantOf_short h6)
      · exact .inr (variantOf_shorter (by omega) (ht ▸ by decide) (ht ▸ Nat.lt_of_not_le hn))
    obtain hv | hv := hv <;> simp [hv]

/-- What MSGDEC answers: its record and the VARIANT of six bits per byte (rules R26, R42, R122). -/
theorem msgdec_answers_iff {payload : Str} {r : Rec} {v : Variant} :
    Answers (.msgdec payload) (.record r v) ↔
      r = msgdec Config.params payload ∧ v = variantOf r (6 * payload.length) := by
  rw [answers_iff, resultOf, msgdecResponse, recordOf, toBits_length]
  constructor
  · intro h; cases h; exact ⟨rfl, rfl⟩
  · rintro ⟨rfl, rfl⟩; rfl

/-- The record MSGDEC answers is legal for its VARIANT. -/
theorem msgdec_answer_legal {payload : Str} {r : Rec} {v : Variant} (h : Answers (.msgdec payload) (.record r v)) :
    r.Legal v := by
  have hlegal := msgdec_legal payload
  rwa [Except.ok.inj (answers_iff.mp h)] at hlegal

/-- The scaled view `sog` is the exact tenth (rule R106). -/
theorem sog_eq (r : Rec) : r.sog = .rat ((r.sogRaw : Rat) / 10) := tenths_eq r.sogRaw

/-- The scaled view `cog` is the exact tenth (rule R106). -/
theorem cog_eq (r : Rec) : r.cog = .rat ((r.cogRaw : Rat) / 10) := tenths_eq r.cogRaw

/-- The scaled view `lon` in the spec's own formula (rule R120). -/
theorem lon_eq (r : Rec) : r.lon Config.params = lonOf r.lonRaw := (lonOf_eq r.lonRaw).symm

/-- The scaled view `lat` in the spec's own formula (rule R121). -/
theorem lat_eq (r : Rec) : r.lat Config.params = latOf r.latRaw := (latOf_eq r.latRaw).symm

/-- Settles O41: the projection reads the variant's fields, legality fixes the type, and the VARIANT or the row fixes
the part number. -/
theorem unionViewOfARecord : Obligations.UnionViewOfARecord := by
  intro payload r v h
  obtain ⟨-, -, htype⟩ := msgdec_answer_legal h
  obtain ⟨hr, hv⟩ := msgdec_answers_iff.mp h
  refine ⟨?_, ?_, ?_, ?_, ?_, ?_, ?_, ?_⟩ <;> rintro rfl
  case refine_1 => rfl
  case refine_2 =>
    refine ⟨rfl, fun hpart => ?_⟩
    rw [hr, ← toBits_length Config.params] at hpart
    rw [hr]
    exact recOfBits_partNumber_zero hpart
  case refine_3 =>
    have ht : r.type = 4 := htype
    rw [project, ht, lon_eq, lat_eq]
  case refine_4 =>
    have ht : r.type = 18 := htype
    rw [project, ht, sog_eq, lon_eq, lat_eq, cog_eq]
  case refine_5 => rw [project, sog_eq, lon_eq, lat_eq, cog_eq]
  case refine_6 =>
    have ht : r.type = 5 := htype
    rw [project, ht]
  case refine_7 =>
    have ht : r.type = 24 := htype
    rw [project, ht, (partNumber_of_variantOf ht).1 hv.symm]
  case refine_8 =>
    have ht : r.type = 24 := htype
    rw [project, ht, (partNumber_of_variantOf ht).2 hv.symm]

end Sys2Proof.Machine

/-! The obligations of the memory family: every payload is a message row, pending requests run in any order, and a
field is its two parts (rules R46, R49, R56, R78, R80). -/

namespace Sys2Proof.Machine

open Sys2Proof.Spec

/-- Settles O8: whatever bits a payload is, the row they select holds them all and is written as a message. -/
theorem everyPayloadIsAWellFormedMessage : Obligations.EveryPayloadIsAWellFormedMessage := fun payload =>
  ⟨decodeMessage payload, rfl, decodeBits_wellFormed _, decodeBits_isMessage _⟩

/-! ### Pending requests -/

/-- Two steps that answer are a run of two. -/
theorem run_two_of_steps {M : Host.Core} {s u t : M.State} (hs : M.step s = .next u) (hu : M.step u = .next t) :
    M.run 2 s = .next t := by
  simp only [Host.Core.run, hs, hu]

/-- A run that ends in a state has answered a state at its first step. -/
theorem step_of_run_succ {M : Host.Core} {s t : M.State} {k : Nat} (h : M.run (k + 1) s = .next t) :
    ∃ u, M.step s = .next u ∧ M.run k u = .next t := by
  rw [Host.Core.run] at h
  split at h
  · next u hu => exact ⟨u, hu, h⟩
  · cases h
  · cases h

/-- The request `q`, when it is the next one, adds the response `r`, whatever is pending after it and held already. -/
def AddsResponse (q : Request) (r : Response) : Prop :=
  ∀ rest held, step { requests := q :: rest, responses := held } =
    .next { requests := rest, responses := held ++ [r] }

/-- A request answered in one state adds the same response in every state (rules R17, R56). -/
theorem addsResponse_of_step {q : Request} {rest : List Request} {held : List Response} {t : State}
    (h : step { requests := q :: rest, responses := held } = .next t) :
    ∃ r, AddsResponse q r ∧ t = { requests := rest, responses := held ++ [r] } := by
  obtain ⟨hnone, -⟩ | ⟨q', rest', i, r, hq, hdec, hres, rfl⟩ := step_cases h
  · cases hnone
  · cases hq
    refine ⟨r, fun rest held => ?_, rfl⟩
    rw [step_of_decode rfl hdec, hres]
    rfl

/-- Two requests that add a response each are run by two steps. -/
theorem run_two_of_addsResponse {a b : Request} {x y : Response} (ha : AddsResponse a x) (hb : AddsResponse b y)
    (rest : List Request) (held : List Response) :
    Host.Core.run Sys2Proof.core 2 { requests := a :: b :: rest, responses := held } =
      .next { requests := rest, responses := held ++ [x, y] } := by
  have hsecond : step { requests := b :: rest, responses := held ++ [x] } =
      .next { requests := rest, responses := held ++ [x, y] } := by
    rw [hb, List.append_assoc]
    rfl
  exact run_two_of_steps (ha (b :: rest) held) hsecond

/-- Settles O14: each request adds a response of its own, whichever of the two runs first. -/
theorem requestsRunInAnyOrder : Obligations.RequestsRunInAnyOrder := by
  rintro ⟨requests, held⟩ t a b rest rfl hrun
  obtain ⟨u, hfirst, hrun⟩ := step_of_run_succ hrun
  obtain ⟨x, hx, rfl⟩ := addsResponse_of_step hfirst
  obtain ⟨v, hsecond, hend⟩ := step_of_run_succ hrun
  obtain ⟨y, hy, rfl⟩ := addsResponse_of_step hsecond
  cases hend
  exact ⟨x, y, by rw [List.append_assoc]; rfl, run_two_of_addsResponse hy hx rest held⟩

/-! ### A field cut in two -/

/-- When EXTU answers a number, its slice was in range and the number is the field's. -/
theorem extu_answers_inv {b : Bits} {s l x : Nat} (h : Answers (.extu b s l) (.nat x)) :
    l ≤ 30 ∧ s + l ≤ b.length ∧ x = uintAt b s l := by
  obtain ⟨a, ha, hax⟩ := exists_value_of_map_ok (answers_iff.mp h)
  cases hax
  exact extu_inv ha

/-- Settles O24: the number of a field is that of its first part, shifted past the second part, plus the second's. -/
theorem mixedWidthReadsAgree : Obligations.MixedWidthReadsAgree := by
  intro b s l m x y z hsm hms hx hy hz
  obtain ⟨-, hlen, rfl⟩ := extu_answers_inv hx
  obtain ⟨-, -, rfl⟩ := extu_answers_inv hy
  obtain ⟨-, -, rfl⟩ := extu_answers_inv hz
  have hsplit := uintAt_split b s (m - s) (s + l - m) (by omega)
  rwa [show m - s + (s + l - m) = l by omega, show s + (m - s) = m by omega] at hsplit

end Sys2Proof.Machine

/-! The obligations of the encoding family: unassigned OPSELs, MSGDEC as the row its payload is, and what a decode looks
at in a line (rules R61, R78, R79, R82, R122, R135, R155, R177). -/

namespace Sys2Proof.Machine

open Sys2Proof.Spec

/-! ### What a decode looks at in a line -/

/-- The payload of a line of at least seven fields is field 5, unless that is empty (rules R135, R136). -/
theorem payloadOf_lineOf {l : List Str} {p : Str} (hl : IsFields l) (h7 : 7 ≤ l.length) (h5 : l[5]? = some p) :
    payloadOf (lineOf l) = if p = [] then none else some p := by
  have hparse : parse (lineOf l) = (l, true) := by
    rw [parse, split_lineOf hl]
    exact congrArg (l, ·) (decide_eq_true h7)
  simp only [payloadOf, hparse, Config.payloadField, h5]
  cases p <;> rfl

/-- Two lines of at least seven fields with the same field 5 have the same payload. -/
theorem payloadOf_congr {l m : List Str} (hl : IsFields l) (hm : IsFields m) (hl7 : 7 ≤ l.length) (hm7 : 7 ≤ m.length)
    (h5 : l[5]? = m[5]?) : payloadOf (lineOf l) = payloadOf (lineOf m) := by
  have hget : l[5]? = some l[5] := List.getElem?_eq_getElem _
  rw [payloadOf_lineOf hl hl7 hget, payloadOf_lineOf hm hm7 (h5 ▸ hget)]

/-- ISVALID of a line of at least two fields tests field 0 alone, when the bytes sought hold no comma (rule R170). -/
theorem isValid_lineOf_iff {f : Str} {l : List Str} {pfx : Str} (hl : l ≠ []) (hp : comma ∉ pfx) :
    isValid (lineOf (f :: l)) pfx = true ↔ pfx <+: f := by
  rw [isValid_iff, prefix_lineOf_iff hp, lineOf_cons f hl]
  simp

/-- Two lines of at least seven fields with the same field 0 are valid for the same bytes, when these hold no comma. -/
theorem isValid_congr {l m : List Str} {pfx : Str} (hl7 : 7 ≤ l.length) (hm7 : 7 ≤ m.length) (h0 : l[0]? = m[0]?)
    (hp : comma ∉ pfx) : isValid (lineOf l) pfx = isValid (lineOf m) pfx := by
  obtain ⟨f, fs, rfl⟩ := List.exists_cons_of_length_pos (show 0 < l.length by omega)
  obtain ⟨g, gs, rfl⟩ := List.exists_cons_of_length_pos (show 0 < m.length by omega)
  obtain rfl : f = g := Option.some.inj h0
  rw [Bool.eq_iff_iff, isValid_lineOf_iff (by rintro rfl; simp at hl7) hp,
    isValid_lineOf_iff (by rintro rfl; simp at hm7) hp]

/-- Settles O40: DECLINE and DECOPT read a line through its validity for a tag and its payload alone. -/
theorem decodeLooksAtFieldFiveOnly : Obligations.DecodeLooksAtFieldFiveOnly := by
  intro l m hl hm hl7 hm7 h0 h5 s
  have hpayload := payloadOf_congr hl hm hl7 hm7 h5
  have hvalid : ∀ tag, comma ∉ tag → isValid (lineOf l) tag = isValid (lineOf m) tag :=
    fun _ => isValid_congr hl7 hm7 h0
  refine ⟨?_, fun option tag htag => ?_⟩
  · rw [exec_eq_respond, exec_eq_respond, resultOf, resultOf, declineResponse, declineResponse, hpayload,
      hvalid _ (by decide), hvalid _ (by decide)]
  · rw [exec_eq_respond, exec_eq_respond, resultOf, resultOf, decopt, decopt, hpayload, hvalid tag htag]

/-! ### A fragment by itself -/

/-- DECLINE of a sentence is MSGDEC of its chunk (rules R61, R135). -/
theorem resultOf_decline_sentence {tag : Str} (h : isTag tag) (n i : Nat) {chunk : Str} (hc : comma ∉ chunk) :
    resultOf (.decline (sentence tag n i chunk)) = resultOf (.msgdec chunk) := by
  have hvalid :
      (isValid (sentence tag n i chunk) Config.tagVDM || isValid (sentence tag n i chunk) Config.tagVDO) = true := by
    rw [Bool.or_eq_true]
    obtain rfl | rfl := id h
    · exact .inl (isValid_sentence h n i chunk)
    · exact .inr (isValid_sentence h n i chunk)
  have hpayload : payloadOf (sentence tag n i chunk) = if chunk = [] then none else some chunk := by
    rw [sentence_lineOf h]
    exact payloadOf_lineOf (sentenceFields_isFields h n i hc) (by simp [sentenceFields]) rfl
  rw [resultOf, resultOf, declineResponse, if_pos hvalid, hpayload]
  by_cases hne : chunk = []
  · subst hne; rfl
  · rw [if_neg hne]

/-- A field of a slice is a field of the whole. -/
theorem uintAt_slice (b : Bits) {s l t k : Nat} (h : t + k ≤ l) : uintAt (slice b s l) t k = uintAt b (s + t) k := by
  rw [uintAt, uintAt, slice, slice, slice, List.drop_take, List.take_take, List.drop_drop, Nat.min_eq_left (by omega)]

/-- A field inside a run of zeros is 0. -/
theorem fieldValue_of_zeroFrom {b : Bits} {lo hi s l : Nat} (h : ZeroFrom b lo hi) (hlo : lo ≤ s) (hhi : s + l ≤ hi) :
    fieldValue b s l = 0 :=
  Finset.sum_eq_zero fun i hi => by
    have := Finset.mem_range.mp hi
    rw [h (s + i) (by omega) (by omega)]
    simp

/-- A message of 424 bits is sent as two sentences: 62 characters and the 9 that remain (rules R155, R174). -/
theorem sentencesOf_two {b : Bits} (h : b.length = 424) :
    sentencesOf b = [sentence Config.tagVDM 2 1 (slice (toArmor b) 0 62),
      sentence Config.tagVDM 2 2 (slice (toArmor b) 62 62)] := by
  have hfrag : fragments (toArmor b) = 2 := by rw [fragments_eq, toArmor_length, h]
  rw [sentencesOf, hfrag]
  rfl

/-- DECLINE of a sentence that carries part of a message decodes the bits of that part. -/
theorem resultOf_decline_fragment (b : Bits) (n i s l : Nat) :
    resultOf (.decline (sentence Config.tagVDM n i (slice (toArmor b) s l))) =
      resultOf (decodeBits (slice (padSix b) (6 * s) (6 * l))) := by
  rw [resultOf_decline_sentence (.inl rfl) n i fun hm => armor_free.1 (slice_sublist _ _ _ _ hm), resultOf_msgdec,
    decodeMessage, toBits_slice, toBits_toArmor]

/-- The header's `mmsi` of a bit string of at least 38 bits (rule R68). -/
theorem readMmsi_of_le {b : Bits} (h : 38 ≤ b.length) : readMmsi b = some (uintAt b 8 30 : Int) := if_pos h

/-- A message with a header, of a supported type, that is too short for its layout (rule R133). -/
theorem decodeBits_short {b : Bits} (h38 : 38 ≤ b.length) (hs : uintAt b 0 6 ∈ Config.supportedTypes)
    (hn : b.length < Config.minBits (uintAt b 0 6)) :
    decodeBits b = .msgshort (uintAt b 0 6) (some (uintAt b 8 30 : Int)) := by
  simp only [decodeBits, rowOf_msgshort (by omega) hs hn, readMmsi_of_le h38]

/-- A message with a header, of a type without a layout (rule R132). -/
theorem decodeBits_other {b : Bits} (h38 : 38 ≤ b.length) (hs : uintAt b 0 6 ∉ Config.supportedTypes) :
    decodeBits b = .msgother (uintAt b 0 6) (some (uintAt b 8 30 : Int)) := by
  simp only [decodeBits, rowOf_msgother (by omega) hs, readMmsi_of_le h38]

section TypeFive

variable {mmsi : Int} {fs : List Put}

/-- The first 62 characters of a type-5 message hold its header and are too short for its layout (rules R82, R133). -/
theorem decodeBits_first_fragment (g : GoodLayout 424 5 mmsi fs) (hm : fitsU 30 mmsi = true) :
    decodeBits (slice (padSix (messageBits 424 5 mmsi fs)) 0 372) = .msgshort 5 (some mmsi) := by
  have hlen : (slice (padSix (messageBits 424 5 mmsi fs)) 0 372).length = 372 :=
    slice_length _ (by rw [padded_length g]; decide)
  have htype : uintAt (slice (padSix (messageBits 424 5 mmsi fs)) 0 372) 0 6 = 5 := by
    rw [uintAt_slice _ (by decide)]
    exact padded_type_nat g rfl (by decide)
  have hmmsi : (uintAt (slice (padSix (messageBits 424 5 mmsi fs)) 0 372) 8 30 : Int) = mmsi := by
    rw [uintAt_slice _ (by decide)]
    exact padded_mmsi g hm
  rw [decodeBits_short (by rw [hlen]; decide) (by rw [htype]; decide) (by rw [hlen, htype]; decide), htype, hmmsi]
  rfl

/-- The last 9 characters of a type-5 message are zeros where a header stands: type 0, which has no layout (rules R82,
R132). -/
theorem decodeBits_second_fragment (g : GoodLayout 424 5 mmsi fs)
    (hz : ZeroFrom (messageBits 424 5 mmsi fs) 372 424) :
    decodeBits (slice (padSix (messageBits 424 5 mmsi fs)) 372 372) = .msgother 0 (some 0) := by
  have hlen : (slice (padSix (messageBits 424 5 mmsi fs)) 372 372).length = 54 := by
    rw [slice, List.length_take, List.length_drop, padded_length g]
    rfl
  have hzero : ∀ s l, s + l ≤ 52 → uintAt (slice (padSix (messageBits 424 5 mmsi fs)) 372 372) s l = 0 := by
    intro s l h
    have hin : 372 + s + l ≤ (messageBits 424 5 mmsi fs).length := by rw [messageBits_length g]; omega
    rw [uintAt_slice _ (by omega), uintAt_padSix hin, ← fieldValue_eq hin,
      fieldValue_of_zeroFrom hz (by omega) (by omega)]
  have htype := hzero 0 6 (by decide)
  rw [decodeBits_other (by rw [hlen]; decide) (by rw [htype]; decide), htype, hzero 8 30 (by decide)]
  rfl

end TypeFive

/-- No field of type 5 reaches past bit 270 (rule R72). -/
theorem voyage_zeroFrom {f : Voyage Bits} {mmsi : Int} (hc : f.callsign.length = 42) (hn : f.shipName.length = 120) :
    ZeroFrom (messageBits 424 5 mmsi f.puts) 270 424 := by
  refine messageBits_zeroFrom (goodLayout_voyage 5 mmsi hc hn) le_rfl fun p hp => .inr ?_
  simp only [headerPuts, Voyage.puts, List.cons_append, List.nil_append, List.mem_cons, List.not_mem_nil,
    or_false] at hp
  rcases hp with rfl | rfl | rfl | rfl | rfl | rfl | rfl | rfl | rfl | rfl <;>
    simp [putEnd, putStart, putBits, hc, hn]

/-- Settles O51: the first sentence carries 372 bits, too few for type 5, and the second 54 zeros. -/
theorem fragmentsDoNotDecodeAlone : Obligations.FragmentsDoNotDecodeAlone := by
  intro f x y h
  obtain ⟨hfits, hl⟩ := encstat_inv h
  obtain ⟨hc, hn⟩ := voyageBits_lengths f
  have g := goodLayout_voyage 5 f.mmsi hc hn
  simp only [Voyage.fits, Bool.and_eq_true] at hfits
  obtain ⟨⟨⟨⟨⟨⟨hm, -⟩, -⟩, -⟩, -⟩, -⟩, -⟩ := hfits
  rw [sentencesOf_two (messageBits_length g)] at hl
  cases hl
  rw [answers_iff, answers_iff, resultOf_decline_fragment, resultOf_decline_fragment,
    decodeBits_first_fragment g hm,
    decodeBits_second_fragment g fun k hlo hhi => voyage_zeroFrom hc hn k (by omega) hhi]
  exact ⟨rfl, rfl⟩

/-! ### Unassigned operation codes -/

/-- The codes the opcode table leaves free: 0x00 and 0x19 to 0x1F (rule R79). -/
theorem unassigned_codes : ∀ c : BitVec 5, c = 0x00 ∨ 0x19 ≤ c →
    c = 0x00 ∨ c = 0x19 ∨ c = 0x1A ∨ c = 0x1B ∨ c = 0x1C ∨ c = 0x1D ∨ c = 0x1E ∨ c = 0x1F := by decide

/-- A request with an unassigned OPSEL is no instruction, whatever its operands (rule R79). -/
theorem decodeRequest_unassigned {r : Request} (h : r.opsel = 0x00 ∨ 0x19 ≤ r.opsel) :
    decodeRequest r = .error .unassignedOpsel := by
  obtain ⟨opsel, operands⟩ := r
  obtain rfl | rfl | rfl | rfl | rfl | rfl | rfl | rfl := unassigned_codes opsel h <;> rfl

/-- The step of a request that is no instruction is refused for the decoder's reason. -/
theorem step_of_rejected {s : State} {r : Request} {rest : List Request} {e : Rejection}
    (hr : s.requests = r :: rest) (hd : decodeRequest r = .error e) : step s = .refused (refusalOf e) := by
  simp only [step, hr, decode, hd]

/-- Settles O3: the request decodes to no instruction, and its step is refused for that reason. -/
theorem unassignedOpselIsRefused : Obligations.UnassignedOpselIsRefused :=
  fun _ _ _ hr h => step_of_rejected hr (decodeRequest_unassigned h)

/-! ### MSGDEC and its row -/

/-- Settles O9: in every state both deliver their result, and MSGDEC's is that of the row. -/
theorem msgdecRunsTheRowItsPayloadIs : Obligations.MsgdecRunsTheRowItsPayloadIs := by
  intro payload i h s
  obtain rfl : decodeMessage payload = i := Except.ok.inj h
  rw [exec_eq_respond, exec_eq_respond, resultOf_msgdec]

end Sys2Proof.Machine

/-! The obligations of the BitArmor family: what TOBITS and TOARMOR answer, position by position, and what is left after
one of them and then the other (rules R64, R65, R90 to R93). -/

namespace Sys2Proof.Machine

open Sys2Proof.Spec

/-! ### What the two operations answer -/

theorem tobits_answers (p : Str) : Answers (.tobits p) (.bits (toBits Config.params p)) := answers_iff.mpr rfl

theorem toarmor_answers (b : Bits) : Answers (.toarmor b) (.str (toArmor b)) := answers_iff.mpr rfl

theorem tobits_answers_iff {p : Str} {b : Bits} : Answers (.tobits p) (.bits b) ↔ toBits Config.params p = b :=
  ⟨fun h => Response.bits.inj ((tobits_answers p).unique h), fun h => h ▸ tobits_answers p⟩

theorem toarmor_answers_iff {b : Bits} {t : Str} : Answers (.toarmor b) (.str t) ↔ toArmor b = t :=
  ⟨fun h => Response.str.inj ((toarmor_answers b).unique h), fun h => h ▸ toarmor_answers b⟩

/-! ### TOBITS bit by bit -/

/-- One byte's bits are the six bits at its place (rules R42, R90). -/
theorem slice_toBits_byte (p : Config.Params) {t : Str} {k : Nat} (hk : k < t.length) :
    slice (toBits p t) (6 * k) 6 = bitsOf 6 (deArmor p t[k]) := by
  have hbyte : slice t k 1 = [t[k]] := by rw [slice, List.drop_eq_getElem_cons hk]; rfl
  rw [← toBits_slice p t k 1, hbyte, toBits, List.flatMap_singleton]

theorem toBits_getElem? (p : Config.Params) {t : Str} {k j : Nat} (hk : k < t.length) (hj : j < 6) :
    (toBits p t)[6 * k + j]? = some ((deArmor p t[k]).testBit (5 - j)) := by
  have hslice := slice_getElem? (toBits p t) (6 * k) 6 j
  rw [if_pos hj, slice_toBits_byte p hk, bitsOf_getElem?, if_pos hj] at hslice
  exact hslice.symm

/-- Settles O15: a byte's bits are the slice at its place, and the spec's value of a byte is the model's. -/
theorem tobitsAppendsSixBitsPerByte : Obligations.TobitsAppendsSixBitsPerByte := by
  refine fun payload => ⟨rfl, toBits Config.params payload, tobits_answers payload, toBits_length _ payload, ?_⟩
  intro k j hk hj
  rw [toBits_getElem? _ hk hj, List.getD_eq_getElem _ _ hk, sixOf_eq]

/-! ### TOARMOR byte by byte -/

/-- A group read past the end of the string is the group of the padded string (rules R48, R91). -/
theorem uintAt_padSix_eq_fieldValue {b : Bits} {s l : Nat} (h : s + l ≤ (padSix b).length) :
    uintAt (padSix b) s l = fieldValue b s l := by
  rw [← fieldValue_eq h, padSix, fieldValue_zeros]

theorem toArmor_getElem? {b : Bits} {k : Nat} (hk : k < (toArmor b).length) :
    (toArmor b)[k]? = some (armorOf (fieldValue b (6 * k) 6)) := by
  have hpad := padSix_length b
  rw [toArmor_length] at hk
  rw [toArmor, List.getElem?_map, sixes_getElem?, if_pos (by omega), Option.map_some,
    uintAt_padSix_eq_fieldValue (by omega), armorOf_eq]

/-- Settles O16: the bytes are those of the padded string's groups. -/
theorem toarmorMakesOneBytePerGroup : Obligations.ToarmorMakesOneBytePerGroup :=
  fun b => ⟨rfl, toArmor b, toarmor_answers b, toArmor_length b, fun _ hk => toArmor_getElem? hk⟩

/-! ### One operation after the other -/

/-- Re-armoring keeps a payload exactly when it keeps each of its bytes (rule R93). -/
theorem toArmor_toBits_eq_self_iff (p : Str) : toArmor (toBits Config.params p) = p ↔ ∀ c ∈ p, inArmor c :=
  calc toArmor (toBits Config.params p) = p
    _ ↔ p.map (fun c => armorByte (deArmor Config.params c)) = p.map id := by rw [toArmor_toBits, List.map_id]
    _ ↔ ∀ c ∈ p, inArmor c := List.map_inj_left.trans (forall₂_congr fun c _ => armorByte_deArmor c)

/-- Settles O17: de-armoring undoes armoring group by group, so the padded string comes back. -/
theorem bitsSurviveArmoring : Obligations.BitsSurviveArmoring := by
  intro b t h
  obtain rfl := toarmor_answers_iff.mp h
  rw [tobits_answers_iff, toBits_toArmor]
  rfl

/-- Settles O18: every byte is armored anew by itself, and keeps its code exactly when that is in the alphabet. -/
theorem payloadSurvivesIffInAlphabet : Obligations.PayloadSurvivesIffInAlphabet := by
  intro p b h
  obtain rfl := tobits_answers_iff.mp h
  exact toarmor_answers_iff.trans (toArmor_toBits_eq_self_iff p)

end Sys2Proof.Machine

/-! The obligations of the FieldCodec family: what EXTU, EXTS, INSU and INSS answer and refuse, and the laws between a
field read and a field written (rules R100 to R103, R107). -/

namespace Sys2Proof.Machine

open Sys2Proof.Spec

/-! ### When the field operations answer and refuse -/

/-- A computation's value is in its response exactly when the computation ends with that value. -/
theorem map_eq_ok_iff {α : Type} {x : Except Refusal α} {c : α → Response} {a : α} (hc : Function.Injective c) :
    x.map c = .ok (c a) ↔ x = .ok a := by
  refine ⟨fun h => ?_, fun h => by rw [h]; rfl⟩
  obtain ⟨a', ha', hca⟩ := exists_value_of_map_ok h
  rw [ha', hc hca]

theorem map_eq_error {α : Type} {x : Except Refusal α} {e : Refusal} (c : α → Response) (h : x = .error e) :
    x.map c = .error e := by
  rw [h]; rfl

theorem extu_answers_iff {b : Bits} {s l x : Nat} :
    Answers (.extu b s l) (.nat x) ↔ l ≤ 30 ∧ s + l ≤ b.length ∧ x = uintAt b s l := by
  rw [answers_iff, resultOf, map_eq_ok_iff fun _ _ => Response.nat.inj]
  exact ⟨extu_inv, fun ⟨hl, hs, hx⟩ => hx ▸ extu_ok hl hs⟩

theorem exts_answers_iff {b : Bits} {s l : Nat} {x : Int} :
    Answers (.exts b s l) (.int x) ↔ 1 ≤ l ∧ l ≤ 30 ∧ s + l ≤ b.length ∧ x = sintAt b s l := by
  rw [answers_iff, resultOf, map_eq_ok_iff fun _ _ => Response.int.inj]
  exact ⟨exts_inv, fun ⟨hpos, hl, hs, hx⟩ => hx ▸ exts_ok hpos hl hs⟩

theorem insu_answers_iff {b out : Bits} {s l : Nat} {v : Int} :
    Answers (.insu b s l v) (.bits out) ↔
      l ≤ 30 ∧ s + l ≤ b.length ∧ 0 ≤ v ∧ v < 2 ^ l ∧ out = splice b s (bitsOf l v.toNat) := by
  rw [answers_iff, resultOf, map_eq_ok_iff fun _ _ => Response.bits.inj]
  exact ⟨insu_inv, fun ⟨hl, hs, hlo, hhi, hout⟩ => hout ▸ insu_ok hl hs hlo hhi⟩

theorem inss_answers_iff {b out : Bits} {s l : Nat} {v : Int} :
    Answers (.inss b s l v) (.bits out) ↔
      1 ≤ l ∧ l ≤ 30 ∧ s + l ≤ b.length ∧ -(2 ^ (l - 1)) ≤ v ∧ v < 2 ^ (l - 1) ∧
        out = splice b s (bitsOf l (twosOf l v).toNat) := by
  rw [answers_iff, resultOf, map_eq_ok_iff fun _ _ => Response.bits.inj]
  exact ⟨inss_inv, fun ⟨hpos, hl, hs, hlo, hhi, hout⟩ => hout ▸ inss_ok hpos hl hs hlo hhi⟩

/-! ### Reading a field -/

/-- Settles O19: the slice's number is the sum of rule R13, which stays below `2^l`. -/
theorem extuReadsBigEndian : Obligations.ExtuReadsBigEndian := by
  refine fun b s l => ⟨rfl, fun hl hs => ⟨?_, ?_⟩, fun h => refuses_iff.mpr (map_eq_error _ (extu_slice h))⟩
  · exact extu_answers_iff.mpr ⟨hl, hs, fieldValue_eq hs⟩
  · exact Nat.le_sub_one_of_lt (fieldValue_lt b s l)

/-- Settles O20: the spec's signed number of the slice is the model's, in the range of its width. -/
theorem extsReadsTwosComplement : Obligations.ExtsReadsTwosComplement := by
  refine fun b s l => ⟨rfl, fun hpos hl hs => ?_, fun h => refuses_iff.mpr (map_eq_error _ (exts_slice h))⟩
  obtain ⟨hlo, hhi⟩ := sintAt_range hpos hs
  rw [signedValue_eq hs]
  exact ⟨exts_answers_iff.mpr ⟨hpos, hl, hs, rfl⟩, hlo, Int.le_sub_one_of_lt hhi⟩

/-! ### Writing a field -/

theorem splice_bitsOf_length {b : Bits} {s l : Nat} (v : Nat) (h : s + l ≤ b.length) :
    (splice b s (bitsOf l v)).length = b.length :=
  splice_length (by rwa [bitsOf_length])

/-- A written field leaves every bit outside it (rules R102, R103). -/
theorem splice_bitsOf_getElem?_outside {b : Bits} {s l i : Nat} (v : Nat) (h : s + l ≤ b.length)
    (hi : i < s ∨ s + l ≤ i) : (splice b s (bitsOf l v))[i]? = b[i]? := by
  rw [splice_getElem? (by rwa [bitsOf_length]), bitsOf_length, if_neg (by omega)]

/-- Reading back a written value that is an integer (rule R102). -/
theorem uintAt_splice_toNat {b : Bits} {s l : Nat} {v : Int} (h : s + l ≤ b.length) (hlo : 0 ≤ v) (hhi : v < 2 ^ l) :
    (uintAt (splice b s (bitsOf l v.toNat)) s l : Int) = v := by
  lift v to Nat using hlo
  rw [Int.toNat_natCast, uintAt_splice_same h (by exact_mod_cast hhi)]

/-- Settles O21: INSU splices the value's `l` bits into the string. -/
theorem insuWritesItsFieldOnly : Obligations.InsuWritesItsFieldOnly := by
  refine fun b s l v => ⟨rfl, fun hl hs hlo hhi => ?_,
    fun h => refuses_iff.mpr (map_eq_error _ (insu_slice h)),
    fun hl hs hv => refuses_iff.mpr (map_eq_error _ (insu_value hl hs hv))⟩
  have hlen := splice_bitsOf_length v.toNat hs
  refine ⟨_, insu_answers_iff.mpr ⟨hl, hs, hlo, hhi, rfl⟩, hlen, ?_, fun i => splice_bitsOf_getElem?_outside _ hs⟩
  rw [fieldValue_eq (hlen ▸ hs), uintAt_splice_toNat hs hlo hhi]

/-- Settles O22: INSS splices the value's two's-complement pattern into the string, and that pattern read unsigned is
`twosOf`. -/
theorem inssWritesTwosComplement : Obligations.InssWritesTwosComplement := by
  refine fun b s l v => ⟨rfl, fun hpos hl hs hlo hhi => ?_,
    fun h => refuses_iff.mpr (map_eq_error _ (inss_slice h)),
    fun hpos hl hs hv => refuses_iff.mpr (map_eq_error _ (inss_value hpos hl hs hv))⟩
  have hlt : v < 2 ^ (l - 1) := Int.lt_of_le_sub_one hhi
  have hlen := splice_bitsOf_length (twosOf l v).toNat hs
  obtain ⟨hnonneg, hfits⟩ := twosOf_range hpos hlo hlt
  refine ⟨_, inss_answers_iff.mpr ⟨hpos, hl, hs, hlo, hlt, rfl⟩, hlen, ?_, ?_,
    fun i => splice_bitsOf_getElem?_outside _ hs⟩
  · rw [signedValue_eq (hlen ▸ hs), sintAt_splice_same hs hpos hlo hlt]
  · rw [fieldValue_eq (hlen ▸ hs), uintAt_splice_toNat hs hnonneg hfits]
    rfl

/-! ### The inverse laws -/

/-- Writing a field's own number changes nothing (rule R107). -/
theorem splice_bitsOf_uintAt {b : Bits} {s l : Nat} (h : s + l ≤ b.length) :
    splice b s (bitsOf l (uintAt b s l)) = b := by
  rw [bitsOf_uintAt h, splice_slice h]

/-- EXTU of what INSU wrote. -/
theorem extu_of_insu {b c : Bits} {s l v : Nat} (h : Answers (.insu b s l v) (.bits c)) :
    Answers (.extu c s l) (.nat v) := by
  obtain ⟨hl, hs, -, hhi, rfl⟩ := insu_answers_iff.mp h
  refine extu_answers_iff.mpr ⟨hl, by rwa [splice_bitsOf_length _ hs], ?_⟩
  rw [Int.toNat_natCast, uintAt_splice_same hs (by exact_mod_cast hhi)]

/-- EXTS of what INSS wrote. -/
theorem exts_of_inss {b c : Bits} {s l : Nat} {v : Int} (h : Answers (.inss b s l v) (.bits c)) :
    Answers (.exts c s l) (.int v) := by
  obtain ⟨hpos, hl, hs, hlo, hhi, rfl⟩ := inss_answers_iff.mp h
  exact exts_answers_iff.mpr
    ⟨hpos, hl, by rwa [splice_bitsOf_length _ hs], (sintAt_splice_same hs hpos hlo hhi).symm⟩

/-- INSU of what EXTU read. -/
theorem insu_of_extu {b : Bits} {s l x : Nat} (h : Answers (.extu b s l) (.nat x)) :
    Answers (.insu b s l x) (.bits b) := by
  obtain ⟨hl, hs, rfl⟩ := extu_answers_iff.mp h
  refine insu_answers_iff.mpr ⟨hl, hs, Int.natCast_nonneg _, by exact_mod_cast uintAt_lt b s l, ?_⟩
  rw [Int.toNat_natCast, splice_bitsOf_uintAt hs]

/-- INSS of what EXTS read. -/
theorem inss_of_exts {b : Bits} {s l : Nat} {x : Int} (h : Answers (.exts b s l) (.int x)) :
    Answers (.inss b s l x) (.bits b) := by
  obtain ⟨hpos, hl, hs, rfl⟩ := exts_answers_iff.mp h
  obtain ⟨hlo, hhi⟩ := sintAt_range hpos hs
  refine inss_answers_iff.mpr ⟨hpos, hl, hs, hlo, hhi, ?_⟩
  rw [twosOf_sintAt hpos hs, splice_bitsOf_uintAt hs]

/-- An insertion that answers splices `l` bits which its offset, width and value determine: it splices the same bits
into every string of the same length. -/
theorem insertion_splices {f : Bits → Nat → Nat → Int → Instr} (hf : IsInsertion f) {b c : Bits} {s l : Nat} {v : Int}
    (h : Answers (f b s l v) (.bits c)) :
    s + l ≤ b.length ∧ ∃ w : Bits, w.length = l ∧ c = splice b s w ∧
      ∀ a : Bits, a.length = b.length → Answers (f a s l v) (.bits (splice a s w)) := by
  obtain rfl | rfl := hf
  · obtain ⟨hl, hs, hlo, hhi, hc⟩ := insu_answers_iff.mp h
    exact ⟨hs, _, bitsOf_length _ _, hc, fun a ha => insu_answers_iff.mpr ⟨hl, ha ▸ hs, hlo, hhi, rfl⟩⟩
  · obtain ⟨hpos, hl, hs, hlo, hhi, hc⟩ := inss_answers_iff.mp h
    exact ⟨hs, _, bitsOf_length _ _, hc, fun a ha => inss_answers_iff.mpr ⟨hpos, hl, ha ▸ hs, hlo, hhi, rfl⟩⟩

/-- Insertions into disjoint fields commute, each of them INSU or INSS (rule R107). -/
theorem insertions_commute {f g : Bits → Nat → Nat → Int → Instr} (hf : IsInsertion f) (hg : IsInsertion g)
    {b c d : Bits} {s l t m : Nat} {v w : Int} (hdisj : s + l ≤ t ∨ t + m ≤ s) (hc : Answers (f b s l v) (.bits c))
    (hd : Answers (g b t m w) (.bits d)) :
    ∃ e, Answers (g c t m w) (.bits e) ∧ Answers (f d s l v) (.bits e) := by
  obtain ⟨hs, x, rfl, rfl, hfx⟩ := insertion_splices hf hc
  obtain ⟨ht, y, rfl, rfl, hgy⟩ := insertion_splices hg hd
  refine ⟨_, hgy _ (splice_length hs), ?_⟩
  rw [splice_comm hs ht hdisj]
  exact hfx _ (splice_length ht)

/-- Settles O23: a field written is the field read, both unsigned and signed, and disjoint writes commute. -/
theorem fieldInverseLaws : Obligations.FieldInverseLaws := by
  refine ⟨fun _ _ _ _ => insu_of_extu, fun _ _ _ _ => inss_of_exts, fun _ _ _ _ _ => extu_of_insu,
    fun _ _ _ _ _ => exts_of_inss, fun b s l x y hx hy => ?_,
    fun _ _ hf hg _ _ _ _ _ _ _ _ _ => insertions_commute hf hg⟩
  obtain ⟨-, -, rfl⟩ := extu_answers_iff.mp hx
  obtain ⟨-, -, -, rfl⟩ := exts_answers_iff.mp hy
  exact sintAt_emod.symm

end Sys2Proof.Machine

/-! The obligations of the TextCodec family: what TXTDEC and TXTENC answer, what is left of a text or a field after one
of them and then the other, and SPACE_CODE = 32 (rules R66, R67, R110 to R113). -/

namespace Sys2Proof.Machine

open Sys2Proof.Spec

/-! ### What the two operations answer -/

theorem txtdec_answers (b : Bits) : Answers (.txtdec b) (.str (txtdec b)) := answers_iff.mpr rfl

theorem txtenc_answers (t : Str) (m : Nat) : Answers (.txtenc t m) (.bits (txtenc Config.params t m)) :=
  answers_iff.mpr rfl

theorem txtdec_answers_iff {b : Bits} {t : Str} : Answers (.txtdec b) (.str t) ↔ txtdec b = t :=
  ⟨fun h => Response.str.inj ((txtdec_answers b).unique h), fun h => h ▸ txtdec_answers b⟩

theorem txtenc_answers_iff {t : Str} {m : Nat} {b : Bits} :
    Answers (.txtenc t m) (.bits b) ↔ txtenc Config.params t m = b :=
  ⟨fun h => Response.bits.inj ((txtenc_answers t m).unique h), fun h => h ▸ txtenc_answers t m⟩

/-- Settles O25: the text is the field's, and no longer than its whole groups. -/
theorem txtdecAnswersTheText : Obligations.TxtdecAnswersTheText := by
  intro b
  obtain ⟨hlen, hrange, -⟩ := txtdec_legal (le_refl (b.length / 6))
  exact ⟨rfl, txtdec b, txtdec_answers b, textOf_txtdec b, hlen, hrange⟩

/-! ### TXTENC group by group -/

/-- A whole group's number is the field at its place (rules R45, R110). -/
theorem sixes_getElem?_eq_fieldValue {b : Bits} {k : Nat} (hk : k < b.length / 6) :
    (sixes b)[k]? = some (fieldValue b (6 * k) 6) := by
  rw [sixes_getElem?, if_pos hk, fieldValue_eq (by omega)]

/-- The cut or padded text holds the upper-cased byte, or the pad beyond the end of the text (rule R111). -/
theorem fitText_getElem? (t : Str) {m k : Nat} (hk : k < m) :
    (fitText t m)[k]? = some ((t[k]?.map upper).getD padByte) := by
  rw [fitText_eq, List.getElem?_append, List.length_take, List.length_map]
  by_cases hkt : k < t.length
  · rw [if_pos (by omega), List.getElem?_take_of_lt hk, List.getElem?_map, List.getElem?_eq_getElem hkt]
    rfl
  · rw [if_neg (by omega), List.getElem?_replicate, if_pos (by omega), List.getElem?_eq_none (by omega)]
    rfl

/-- Group `k` of TXTENC's field is the code of byte `k` of the cut or padded text (rule R111). -/
theorem fieldValue_txtenc {p : Config.Params} (hp : p.spaceCode < 64) (t : Str) {m k : Nat} (hk : k < m) :
    fieldValue (txtenc p t m) (6 * k) 6 = textCode p ((t[k]?.map upper).getD padByte) := by
  have hgroup := sixes_getElem?_eq_fieldValue (b := txtenc p t m) (k := k) (by rw [txtenc_length]; omega)
  rw [sixes_txtenc hp, List.getElem?_map, fitText_getElem? t hk] at hgroup
  exact (Option.some.inj hgroup).symm

/-- Settles O26: a byte of the text gives the code of its upper-cased byte, and the pad's code is 0. -/
theorem txtencWritesMaxCharsGroups : Obligations.TxtencWritesMaxCharsGroups := by
  refine fun t m => ⟨rfl, txtenc Config.params t m, txtenc_answers t m, txtenc_length _ t m, fun k hk => ?_⟩
  rw [fieldValue_txtenc (by decide) t hk]
  cases t[k]? with
  | some c =>
    change textCode Config.params (upper c) = groupOf (upperOf c)
    rw [groupOf_eq, upperOf_eq]
  | none => rfl

/-! ### One operation after the other -/

/-- Settles O27: a byte's code decodes to the byte when it survives and to the dropped pad otherwise. -/
theorem textRoundTripKeepsLettersAndDigits : Obligations.TextRoundTripKeepsLettersAndDigits := by
  intro t m b h
  obtain rfl := txtenc_answers_iff.mp h
  exact txtdec_answers_iff.mpr (txtdec_txtenc t m)

/-- The groups of a field of `6 * m` bits are letters and digits and then zeros, said of the field's own numbers. -/
theorem wordThenZeros_sixes_iff {b : Bits} {m : Nat} (hb : b.length = 6 * m) :
    wordThenZeros (sixes b) ↔ ∃ n, n ≤ m ∧ ∀ k, k < m →
      if k < n then (1 ≤ fieldValue b (6 * k) 6 ∧ fieldValue b (6 * k) 6 ≤ 26) ∨
        (48 ≤ fieldValue b (6 * k) 6 ∧ fieldValue b (6 * k) 6 ≤ 57)
      else fieldValue b (6 * k) 6 = 0 := by
  have hlen : (sixes b).length = m := by rw [sixes_length]; omega
  have hgroup : ∀ k, k < m → (sixes b).getD k 0 = fieldValue b (6 * k) 6 := fun k hk => by
    rw [List.getD_eq_getElem?_getD, sixes_getElem?_eq_fieldValue (by omega)]
    rfl
  rw [wordThenZeros, hlen]
  refine exists_congr fun n => and_congr_right fun _ => forall₂_congr fun k hk => ?_
  rw [hgroup k hk]

/-- Settles O28: the field comes back exactly when its groups are a word and zeros. -/
theorem fieldSurvivesTextRoundTripIff : Obligations.FieldSurvivesTextRoundTripIff := by
  intro b m t hb ht
  obtain rfl := txtdec_answers_iff.mp ht
  exact txtenc_answers_iff.trans ((txtenc_txtdec_iff hb).trans (wordThenZeros_sixes_iff hb))

/-! ### SPACE_CODE = 32 -/

theorem textCode_space (p : Config.Params) : textCode p spaceByte = p.spaceCode := rfl

/-- SPACE_CODE is the code of the space alone (rule R112). -/
theorem textCode_of_ne_space (p q : Config.Params) {c : Byte} (h : c ≠ spaceByte) : textCode p c = textCode q c := by
  have hn : c.toNat ≠ 32 := fun he => h (BitVec.eq_of_toNat_eq he)
  simp only [textCode, if_neg hn]

/-- A text whose bytes are all upper-case, none of them `@`, and come back from their codes, comes back whole when it
does not end in a space (rules R110, R111). -/
theorem txtdec_txtenc_of_bytes_come_back {p : Config.Params} (hp : p.spaceCode < 64) {t : Str}
    (hupper : ∀ c ∈ t, upper c = c) (hpad : ∀ c ∈ t, c ≠ padByte) (hback : ∀ c ∈ t, textByte (textCode p c) = c)
    (hlast : t.getLast? ≠ some spaceByte) : txtdec (txtenc p t t.length) = t := by
  have hfit : fitText t t.length = t := by
    rw [fitText_eq, Nat.sub_self, List.replicate_zero, List.append_nil, List.map_congr_left hupper, List.map_id',
      List.take_length]
  have hbytes : (sixes (txtenc p t t.length)).map textByte = t := by
    rw [sixes_txtenc hp, hfit, List.map_map]
    exact (List.map_congr_left hback).trans (List.map_id' t)
  have hkept : t.filter (· != padByte) = t := List.filter_eq_self.mpr fun c hc => bne_iff_ne.mpr (hpad c hc)
  rw [txtdec, hbytes, hkept]
  exact trim_id hlast

/-- With SPACE_CODE = 32 letters, digits and spaces come back from their codes (rules R66, R112). -/
theorem textByte_textCode_of_spaceCode {p : Config.Params} (hp : p.spaceCode = 32) {c : Byte}
    (hc : survives c = true ∨ c = spaceByte) : textByte (textCode p c) = c := by
  obtain hs | rfl := hc
  · rw [textCode_of_ne_space p Config.params (survives_ne_space hs), textByte_textCode, if_pos hs]
  · rw [textCode_space, hp]
    rfl

/-- Settles O29: only the space's code reads SPACE_CODE, and 32 is the group of the space. -/
theorem spaceCodeThirtyTwoKeepsSpaces : Obligations.SpaceCodeThirtyTwoKeepsSpaces := by
  refine ⟨fun c => textCode_of_ne_space _ _, rfl, fun t ht hlast =>
    txtdec_txtenc_of_bytes_come_back (by decide) (fun c hc => ?_) (fun c hc => ?_)
      (fun c hc => textByte_textCode_of_spaceCode rfl (ht c hc)) hlast⟩
  · obtain hs | rfl := ht c hc
    · exact survives_upper_id hs
    · rfl
  · obtain hs | rfl := ht c hc
    · exact bne_iff_ne.mp (survives_ne_pad hs)
    · decide

end Sys2Proof.Machine

/-! The obligations of the message decode family: the scaled positions, the record and the row of every payload, and
the lines DECLINE and DECOPT read (rules R120 to R138). -/

namespace Sys2Proof.Machine

open Sys2Proof.Spec

/-! ### Scaled positions -/

theorem declon_answers (raw : Int) : Answers (.declon raw) (.num (lonOf raw)) :=
  answers_iff.mpr (by rw [resultOf, lonOf_eq])

theorem declat_answers (raw : Int) : Answers (.declat raw) (.num (latOf raw)) :=
  answers_iff.mpr (by rw [resultOf, latOf_eq])

/-- Settles O30: the spec's formula of each axis is the model's. -/
theorem positionsScaleExactly : Obligations.PositionsScaleExactly := fun raw =>
  ⟨rfl, declon_answers raw, rfl, declat_answers raw⟩

/-! ### The second sentinel -/

theorem uint_replicate_true (l : Nat) : uint (List.replicate l true) + 1 = 2 ^ l := by
  induction l with
  | zero => rfl
  | succ l ih =>
    rw [List.replicate_succ, uint_cons, List.length_replicate, Bool.toNat_true, one_mul, add_assoc, ih, pow_succ]
    omega

/-- A signed field of one-bits alone is -1 (rule R138). -/
theorem sintAt_of_ones {b : Bits} {s l : Nat} (hl : 1 ≤ l)
    (hones : ∀ i, s ≤ i → i < s + l → b[i]? = some true) : sintAt b s l = -1 := by
  have hslice : slice b s l = List.replicate l true := by
    refine List.ext_getElem? fun i => ?_
    rw [slice_getElem?, List.getElem?_replicate]
    split
    · exact hones _ (by omega) (by omega)
    · rfl
  have hval : (uintAt b s l : Int) + 1 = 2 ^ l := by
    rw [uintAt, hslice]
    exact_mod_cast uint_replicate_true l
  rw [sintAt, if_pos (hones s le_rfl (by omega)), ← hval]
  ring

/-- Comparing by bit pattern differs from comparing by value at the patterns of negative values alone (rule R138). -/
theorem matchesSentinel_bitPattern_eq {width : Nat} {raw sentinel : Int} (hnonneg : 0 ≤ sentinel)
    (hpattern : -(2 ^ (width - 1)) ≤ raw → raw < 0 → raw + 2 ^ width ≠ sentinel) :
    matchesSentinel .bitPattern width raw sentinel = matchesSentinel .signedValue width raw sentinel := by
  rw [Bool.eq_iff_iff]
  simp only [matchesSentinel, beq_iff_eq]
  split
  · next hneg => exact iff_of_false (hpattern hneg.1 hneg.2) (by omega)
  · rfl

/-- The pattern of a negative 27-bit value is at least 2^26, between the two sentinels of a latitude (rule R138). -/
theorem declat_bitPattern_eq (raw : Int) :
    declat { Config.params with sentinelCompare := .bitPattern } raw = declat Config.params raw := by
  have hfirst : matchesSentinel .bitPattern 27 raw Config.latSentinel =
      matchesSentinel .signedValue 27 raw Config.latSentinel :=
    matchesSentinel_bitPattern_eq (by decide) fun _ _ => by simp only [Config.latSentinel]; omega
  have hsecond : matchesSentinel .bitPattern 27 raw Config.onesSentinel =
      matchesSentinel .signedValue 27 raw Config.onesSentinel :=
    matchesSentinel_bitPattern_eq (by decide) fun _ _ => by simp only [Config.onesSentinel]; omega
  rw [declat, hfirst, hsecond]
  rfl

/-- Settles O31: the fields' ranges exclude 268435455 in a record, and the pattern of -1 is that sentinel. -/
theorem secondSentinelIsDeadOnDecode : Obligations.SecondSentinelIsDeadOnDecode := by
  refine ⟨fun payload r v h => ?_, fun b s l hpos hl hs hones => ?_, ?_, by decide,
    fun raw _ _ => declat_bitPattern_eq raw⟩
  · obtain ⟨-, hlon⟩ := (msgdec_answer_legal h).inRange.lonRaw
    obtain ⟨-, hlat⟩ := (msgdec_answer_legal h).inRange.latRaw
    exact ⟨by omega, by omega⟩
  · exact exts_answers_iff.mpr ⟨hpos, hl, hs, (sintAt_of_ones hpos hones).symm⟩
  · have h := declon_answers (-1)
    rwa [lonOf, if_neg (by decide), Int.cast_neg, Int.cast_one] at h

/-! ### The layouts in the spec's own terms

What a layout reads, when its message is long enough, with each field as the formula of rule R13 gives it. -/

theorem readPosA_eq {b : Bits} (h : 168 ≤ b.length) :
    readPosA b =
      { mmsi := fieldValue b 8 30, navStatus := fieldValue b 38 4, rot := signedValue b 42 8,
        sogRaw := fieldValue b 50 10, posAccuracy := b.getD 60 false, lonRaw := signedValue b 61 28,
        latRaw := signedValue b 89 27, cogRaw := fieldValue b 116 12, heading := fieldValue b 128 9,
        timestamp := fieldValue b 137 6 } := by
  simp (disch := omega) only [readPosA, fieldValue_eq, signedValue_eq, bit_eq]

theorem readBase_eq {b : Bits} (h : 168 ≤ b.length) :
    readBase b =
      { mmsi := fieldValue b 8 30, lonRaw := signedValue b 79 28, latRaw := signedValue b 107 27 } := by
  simp (disch := omega) only [readBase, fieldValue_eq, signedValue_eq]

theorem readVoyage_eq {b : Bits} (h : 424 ≤ b.length) :
    readVoyage b =
      { mmsi := fieldValue b 8 30, imo := fieldValue b 40 30, callsign := subBits b 70 42,
        shipName := subBits b 112 120, shipType := fieldValue b 232 8, dimA := fieldValue b 240 9,
        dimB := fieldValue b 249 9, dimC := fieldValue b 258 6, dimD := fieldValue b 264 6 } := by
  simp (disch := omega) only [readVoyage, fieldValue_eq, subBits_eq]

theorem readPosB_eq {b : Bits} (h : 168 ≤ b.length) :
    readPosB b =
      { mmsi := fieldValue b 8 30, sogRaw := fieldValue b 46 10, lonRaw := signedValue b 57 28,
        latRaw := signedValue b 85 27, cogRaw := fieldValue b 112 12, heading := fieldValue b 124 9 } := by
  simp (disch := omega) only [readPosB, fieldValue_eq, signedValue_eq]

theorem readNameA_eq {b : Bits} (h : 160 ≤ b.length) :
    readNameA b = { mmsi := fieldValue b 8 30, shipName := subBits b 40 120 } := by
  simp (disch := omega) only [readNameA, fieldValue_eq, subBits_eq]

theorem readStaticB_eq {b : Bits} (h : 160 ≤ b.length) :
    readStaticB b =
      { mmsi := fieldValue b 8 30, shipType := fieldValue b 40 8, callsign := subBits b 48 42,
        dimA := fieldValue b 90 9, dimB := fieldValue b 99 9, dimC := fieldValue b 108 6,
        dimD := fieldValue b 114 6 } := by
  simp (disch := omega) only [readStaticB, fieldValue_eq, subBits_eq]

theorem readMmsi_eq (b : Bits) : readMmsi b = if 38 ≤ b.length then some (fieldValue b 8 30 : Int) else none :=
  ite_congr rfl (fun h => by rw [fieldValue_eq h]) fun _ => rfl

/-! ### The row of a payload

Which row the bits are, and what is read of them, with the type and the part number in the spec's own terms. -/

theorem uintAt_type {b : Bits} {t : Nat} (h : 6 ≤ b.length) (ht : fieldValue b 0 6 = t) : uintAt b 0 6 = t := by
  rw [← ht, fieldValue_eq h]

theorem uintAt_part {b : Bits} {k : Nat} (h : 160 ≤ b.length) (hk : fieldValue b 38 2 = k) : uintAt b 38 2 = k := by
  rw [← hk, fieldValue_eq (by omega)]

theorem decodeBits_msg1 {b : Bits} (h : 168 ≤ b.length) (ht : fieldValue b 0 6 = 1) :
    decodeBits b = .msg1 (readPosA b) := by
  simp only [decodeBits, rowOf_msg1 h (uintAt_type (by omega) ht)]

theorem decodeBits_msg2 {b : Bits} (h : 168 ≤ b.length) (ht : fieldValue b 0 6 = 2) :
    decodeBits b = .msg2 (readPosA b) := by
  simp only [decodeBits, rowOf_msg2 h (uintAt_type (by omega) ht)]

theorem decodeBits_msg3 {b : Bits} (h : 168 ≤ b.length) (ht : fieldValue b 0 6 = 3) :
    decodeBits b = .msg3 (readPosA b) := by
  simp only [decodeBits, rowOf_msg3 h (uintAt_type (by omega) ht)]

theorem decodeBits_msg4 {b : Bits} (h : 168 ≤ b.length) (ht : fieldValue b 0 6 = 4) :
    decodeBits b = .msg4 (readBase b) := by
  simp only [decodeBits, rowOf_msg4 h (uintAt_type (by omega) ht)]

theorem decodeBits_msg5 {b : Bits} (h : 424 ≤ b.length) (ht : fieldValue b 0 6 = 5) :
    decodeBits b = .msg5 (readVoyage b) := by
  simp only [decodeBits, rowOf_msg5 h (uintAt_type (by omega) ht)]

theorem decodeBits_msg18 {b : Bits} (h : 168 ≤ b.length) (ht : fieldValue b 0 6 = 18) :
    decodeBits b = .msg18 (readPosB b) := by
  simp only [decodeBits, rowOf_msg18 h (uintAt_type (by omega) ht)]

section PartNumber

variable {b : Bits} (h : 160 ≤ b.length) (ht : fieldValue b 0 6 = 24)
include h ht

theorem decodeBits_msg24a (hk : fieldValue b 38 2 = 0) : decodeBits b = .msg24a (readNameA b) := by
  simp only [decodeBits, rowOf_msg24 h (uintAt_type (by omega) ht), partRow_a (uintAt_part h hk)]

theorem decodeBits_msg24b (hk : fieldValue b 38 2 = 1) : decodeBits b = .msg24b (readStaticB b) := by
  simp only [decodeBits, rowOf_msg24 h (uintAt_type (by omega) ht), partRow_b (uintAt_part h hk)]

theorem decodeBits_msg24x (hk : 2 ≤ fieldValue b 38 2) :
    decodeBits b = .msg24x (fieldValue b 8 30) (fieldValue b 38 2) := by
  rw [fieldValue_eq (by omega)] at hk
  simp only [decodeBits, rowOf_msg24 h (uintAt_type (by omega) ht), partRow_x hk,
    fieldValue_eq (show 8 + 30 ≤ b.length by omega), fieldValue_eq (show 38 + 2 ≤ b.length by omega)]

end PartNumber

theorem decodeBits_msgother {b : Bits} (h : 6 ≤ b.length) (ht : fieldValue b 0 6 ∉ Config.supportedTypes) :
    decodeBits b = .msgother (fieldValue b 0 6) (readMmsi b) := by
  rw [fieldValue_eq h] at ht ⊢
  simp only [decodeBits, rowOf_msgother h ht]

theorem decodeBits_msgshort {b : Bits} (h : 6 ≤ b.length) (ht : fieldValue b 0 6 ∈ Config.supportedTypes)
    (hn : b.length < Config.minBits (fieldValue b 0 6)) :
    decodeBits b = .msgshort (fieldValue b 0 6) (readMmsi b) := by
  rw [fieldValue_eq h] at ht hn ⊢
  simp only [decodeBits, rowOf_msgshort h ht hn]

/-! ### The record of a payload -/

/-- A payload whose bits are a row decodes to the row, and MSGDEC answers what the row answers (rules R78, R122). -/
theorem answers_of_decodeBits {payload : Str} {i : Instr} {r : Rec} {v : Variant}
    (hrow : decodeBits (payloadBits payload) = i) (hresult : resultOf i = .ok (.record r v)) :
    Answers (.msgdec payload) (.record r v) ∧ decode (.message payload) = .ok i ∧ Answers i (.record r v) := by
  have hdecode : decodeMessage payload = i := by rw [decodeMessage, ← payloadBits_eq, hrow]
  refine ⟨?_, congrArg Except.ok hdecode, answers_iff.mpr hresult⟩
  rw [answers_iff, resultOf_msgdec, hdecode, hresult]

/-- Settles O32: the three types share one layout and differ in their row and in the record's `type`. -/
theorem positionReportAFields : Obligations.PositionReportAFields := by
  intro payload b t ht hcases hlen f r
  have hread : readPosA b = f := readPosA_eq hlen
  have hviews : r.sog = _ ∧ r.cog = _ ∧ r.lon Config.params = _ ∧ r.lat Config.params = _ :=
    ⟨sog_eq r, cog_eq r, lon_eq r, lat_eq r⟩
  rcases hcases with rfl | rfl | rfl
  · obtain ⟨hmsgdec, hrow⟩ := answers_of_decodeBits (r := r)
      ((decodeBits_msg1 hlen ht).trans (congrArg Instr.msg1 hread)) rfl
    exact ⟨hmsgdec, fun _ => hrow, nofun, nofun, hviews⟩
  · obtain ⟨hmsgdec, hrow⟩ := answers_of_decodeBits (r := r)
      ((decodeBits_msg2 hlen ht).trans (congrArg Instr.msg2 hread)) rfl
    exact ⟨hmsgdec, nofun, fun _ => hrow, nofun, hviews⟩
  · obtain ⟨hmsgdec, hrow⟩ := answers_of_decodeBits (r := r)
      ((decodeBits_msg3 hlen ht).trans (congrArg Instr.msg3 hread)) rfl
    exact ⟨hmsgdec, nofun, nofun, fun _ => hrow, hviews⟩

/-- Settles O33: the layout of type 4 is read at the spec's offsets. -/
theorem baseStationFields : Obligations.BaseStationFields := by
  intro payload b ht hlen f r
  obtain ⟨hmsgdec, hdecode, hanswers⟩ := answers_of_decodeBits (r := r)
    ((decodeBits_msg4 hlen ht).trans (congrArg Instr.msg4 (readBase_eq hlen))) rfl
  exact ⟨hmsgdec, hdecode, hanswers, lon_eq r, lat_eq r⟩

/-- Settles O34: the layout of type 5 is read at the spec's offsets, and TXTDEC gives the text of each text field. -/
theorem staticVoyageFields : Obligations.StaticVoyageFields := by
  intro payload b ht hlen f
  exact ⟨txtdec (subBits b 70 42), txtdec (subBits b 112 120), textOf_txtdec _, textOf_txtdec _,
    answers_of_decodeBits ((decodeBits_msg5 hlen ht).trans (congrArg Instr.msg5 (readVoyage_eq hlen))) rfl⟩

/-- Settles O35: the layout of type 18 is read at the spec's offsets. -/
theorem positionReportBFields : Obligations.PositionReportBFields := by
  intro payload b ht hlen f r
  obtain ⟨hmsgdec, hdecode, hanswers⟩ := answers_of_decodeBits (r := r)
    ((decodeBits_msg18 hlen ht).trans (congrArg Instr.msg18 (readPosB_eq hlen))) rfl
  exact ⟨hmsgdec, hdecode, hanswers, sog_eq r, cog_eq r, lon_eq r, lat_eq r⟩

/-- Settles O36: the part number selects one of the three rows of type 24. -/
theorem staticDataReportFields : Obligations.StaticDataReportFields := by
  intro payload b ht hlen
  refine ⟨fun hpart => ?_, fun hpart => ?_, fun part hpart hge => ?_⟩
  · exact ⟨txtdec (subBits b 40 120), textOf_txtdec _, answers_of_decodeBits
      ((decodeBits_msg24a hlen ht hpart).trans (congrArg Instr.msg24a (readNameA_eq hlen))) rfl⟩
  · exact ⟨txtdec (subBits b 48 42), textOf_txtdec _, answers_of_decodeBits
      ((decodeBits_msg24b hlen ht hpart).trans (congrArg Instr.msg24b (readStaticB_eq hlen))) rfl⟩
  · subst hpart
    exact answers_of_decodeBits (decodeBits_msg24x hlen ht hge) rfl

/-- A header's record with an `mmsi` that is read when the message reaches past it (rules R132, R133). -/
theorem recHeader_readMmsi (t : Nat) (b : Bits) :
    recHeader t (readMmsi b) = { type := t, mmsi := if 38 ≤ b.length then fieldValue b 8 30 else 0 } := by
  rw [readMmsi_eq]
  split <;> rfl

/-- A supported type below its minimum length, case by case (rule R133). -/
theorem supported_of_short {t n : Nat}
    (h : (t ∈ [1, 2, 3, 4, 18] ∧ n < 168) ∨ (t = 5 ∧ n < 424) ∨ (t = 24 ∧ n < 160)) :
    t ∈ Config.supportedTypes ∧ n < Config.minBits t := by
  obtain ⟨ht, hn⟩ | ⟨rfl, hn⟩ | ⟨rfl, hn⟩ := h
  · simp only [List.mem_cons, List.not_mem_nil, or_false] at ht
    rcases ht with rfl | rfl | rfl | rfl | rfl <;> exact ⟨by decide, hn⟩
  · exact ⟨by decide, hn⟩
  · exact ⟨by decide, hn⟩

/-- Settles O37: a row without a layout holds what its header gives, and no byte gives no header. -/
theorem headerOnlyMessages : Obligations.HeaderOnlyMessages := by
  refine ⟨?_, answers_of_decodeBits rfl rfl⟩
  intro payload b t ht hlen m r
  have hm : readMmsi b = m := readMmsi_eq b
  have hr : recHeader t m = r := hm ▸ recHeader_readMmsi t b
  subst ht
  refine ⟨fun hother => ?_, fun hshort => ?_⟩
  · exact answers_of_decodeBits ((decodeBits_msgother hlen hother).trans (congrArg _ hm)) (hr ▸ rfl)
  · obtain ⟨hmem, hlt⟩ := supported_of_short hshort
    exact answers_of_decodeBits ((decodeBits_msgshort hlen hmem hlt).trans (congrArg _ hm)) (hr ▸ rfl)

/-! ### The payload a line gives -/

theorem getElem?_five {l : List Str} (h7 : 7 ≤ l.length) : l[5]? = some (l.getD 5 []) := by
  rw [List.getD_eq_getElem _ _ (by omega), List.getElem?_eq_getElem]

/-- Field 5 of a line of at least seven fields, when it is not empty, is the line's payload (rules R135, R136). -/
theorem payloadOf_lineOf_some {l : List Str} (hl : IsFields l) (h : 7 ≤ l.length ∧ l.getD 5 [] ≠ []) :
    payloadOf (lineOf l) = some (l.getD 5 []) := by
  obtain ⟨h7, hne⟩ := h
  rw [payloadOf_lineOf hl h7 (getElem?_five h7), if_neg hne]

/-- Every other line has no payload (rules R135, R136). -/
theorem payloadOf_lineOf_none {l : List Str} (hl : IsFields l) (h : ¬(7 ≤ l.length ∧ l.getD 5 [] ≠ [])) :
    payloadOf (lineOf l) = none := by
  by_cases h7 : 7 ≤ l.length
  · rw [payloadOf_lineOf hl h7 (getElem?_five h7), if_pos (of_not_not fun hne => h ⟨h7, hne⟩)]
  · have hparse : parse (lineOf l) = (l, false) := by
      rw [parse, split_lineOf hl]
      exact congrArg (l, ·) (decide_eq_false h7)
    simp only [payloadOf, hparse]

/-- A line of at least seven fields holds a comma, so ISVALID tests its first bytes alone (rule R170). -/
theorem isValid_lineOf_of_prefix {l : List Str} {tag : Str} (hl : IsFields l) (h7 : 7 ≤ l.length)
    (h : tag <+: lineOf l) : isValid (lineOf l) tag = true :=
  (isValid_iff _ _).mpr ⟨h, comma_mem_of_fields (by rw [split_lineOf hl]; omega)⟩

theorem isValid_eq_false_of_not_prefix {line tag : Str} (h : ¬tag <+: line) : isValid line tag = false :=
  Bool.eq_false_iff.mpr fun hv => h ((isValid_iff _ _).mp hv).1

/-! ### DECLINE -/

theorem declineResponse_of_payload {line payload : Str} (p : Config.Params)
    (hv : (isValid line Config.tagVDM || isValid line Config.tagVDO) = true) (hp : payloadOf line = some payload) :
    declineResponse p line = msgdecResponse p payload := by
  rw [declineResponse, if_pos hv, hp]

/-- A line DECLINE turns away gives the zero record (rules R135, R192). -/
theorem declineResponse_of_turned_away {line : Str} (p : Config.Params)
    (h : (isValid line Config.tagVDM || isValid line Config.tagVDO) = false ∨ payloadOf line = none) :
    declineResponse p line = .record {} .unrecognized := by
  rw [declineResponse]
  obtain hv | hp := h
  · rw [hv]; rfl
  · rw [hp, ite_self]; rfl

/-- Settles O38: an acceptable line is valid for its tag and its payload is field 5; every other line fails one of the
two. -/
theorem declineDecodesFieldFive : Obligations.DeclineDecodesFieldFive := by
  refine fun l hl => ⟨rfl, ?_, fun h => answers_iff.mpr (congrArg Except.ok ?_)⟩
  · rintro ⟨htag, h5⟩ s
    have hv : (isValid (lineOf l) Config.tagVDM || isValid (lineOf l) Config.tagVDO) = true :=
      Bool.or_eq_true_iff.mpr (htag.imp (isValid_lineOf_of_prefix hl h5.1) (isValid_lineOf_of_prefix hl h5.1))
    rw [exec_eq_respond, exec_eq_respond, resultOf, resultOf,
      declineResponse_of_payload _ hv (payloadOf_lineOf_some hl h5)]
  · by_cases h5 : 7 ≤ l.length ∧ l.getD 5 [] ≠ []
    · obtain ⟨hvdm, hvdo⟩ := not_or.mp fun htag => h ⟨htag, h5⟩
      exact declineResponse_of_turned_away _ (.inl (Bool.or_eq_false_iff.mpr
        ⟨isValid_eq_false_of_not_prefix hvdm, isValid_eq_false_of_not_prefix hvdo⟩))
    · exact declineResponse_of_turned_away _ (.inr (payloadOf_lineOf_none hl h5))

/-! ### DECOPT -/

theorem decopt_answers {line option tag : Str} {x : Num} (h : decopt Config.params line option tag = x) :
    Answers (.decopt line option tag) (.num x) := answers_iff.mpr (by rw [resultOf, h])

theorem decopt_of_key {line payload option tag : Str} {key : Config.OptionKey} {p : Config.Params}
    (hv : isValid line tag = true) (hp : payloadOf line = some payload) (hk : p.optionNames.lookup option = some key) :
    decopt p line option tag = select p (msgdec p payload) key := by
  simp only [decopt, hv, if_true, hp, hk]

/-- A line DECOPT turns away and an option that is no name give 0 (rules R136, R137). -/
theorem decopt_eq_zero {line option tag : Str} {p : Config.Params}
    (h : isValid line tag = false ∨ payloadOf line = none ∨ p.optionNames.lookup option = none) :
    decopt p line option tag = .rat 0 := by
  have hzero : ofInt 0 = .rat 0 := ofInt_eq 0
  rw [decopt, hzero]
  obtain hv | hp | hk := h
  · rw [hv]; rfl
  · rw [hp, ite_self]
  · rw [hk]; cases payloadOf line <;> exact ite_self _

/-- The scalar each option names, in the spec's own terms (rule R137, decisions D7, D8, D29). -/
def scalarOf (r : Rec) : Config.OptionKey → Num
  | .type => .rat r.type
  | .mmsi => .rat r.mmsi
  | .navStatus => .rat r.navStatus
  | .rot => .rat r.rot
  | .sog => .rat ((r.sogRaw : Rat) / 10)
  | .posAccuracy => .rat (if r.posAccuracy then 1 else 0)
  | .lon => lonOf r.lonRaw
  | .lat => latOf r.latRaw
  | .cog => .rat ((r.cogRaw : Rat) / 10)
  | .heading => .rat r.heading
  | .timestamp => .rat r.timestamp
  | .imo => .rat r.imo
  | .shipType => .rat r.shipType
  | .dimA => .rat r.dimA
  | .dimB => .rat r.dimB
  | .dimC => .rat r.dimC
  | .dimD => .rat r.dimD
  | .partNumber => .rat r.partNumber

theorem ofInt_natCast (n : Nat) : ofInt n = .rat n := by rw [ofInt_eq, Int.cast_natCast]

/-- What DECOPT selects is the scalar the spec names (rule R137). -/
theorem select_eq_scalarOf (r : Rec) (key : Config.OptionKey) : select Config.params r key = scalarOf r key := by
  cases key
  case rot => exact ofInt_eq r.rot
  case sog => exact sog_eq r
  case cog => exact cog_eq r
  case lon => exact lon_eq r
  case lat => exact lat_eq r
  case posAccuracy =>
    rw [select, scalarOf, ofInt_natCast]
    cases r.posAccuracy <;> simp
  all_goals exact ofInt_natCast _

/-- An option that is none of the names selects nothing (rule R137). -/
theorem lookup_optionNames_eq_none {option : Str} (h : option ∉ Config.params.optionNames.map Prod.fst) :
    Config.params.optionNames.lookup option = none := by
  refine List.lookup_eq_none_iff.mpr fun p hp => ?_
  exact bne_iff_ne.mpr fun he : option = p.1 => h (List.mem_map.mpr ⟨p, hp, he.symm⟩)

/-- Settles O39: on an acceptable line each name selects its scalar of the record of field 5, and everything else gives
0. -/
theorem decoptAnswersTheNamedScalar : Obligations.DecoptAnswersTheNamedScalar := by
  refine fun l tag hl => ⟨fun _ => rfl, fun h option => ?_, fun r v hr h => ?_⟩
  · refine decopt_answers (decopt_eq_zero ?_)
    by_cases h5 : 7 ≤ l.length ∧ l.getD 5 [] ≠ []
    · exact .inl (isValid_eq_false_of_not_prefix fun htag => h ⟨htag, h5⟩)
    · exact .inr (.inl (payloadOf_lineOf_none hl h5))
  · obtain ⟨htag, h5⟩ := h
    obtain ⟨rfl, -⟩ := msgdec_answers_iff.mp hr
    have hnamed (key : Config.OptionKey) {option : Str} (hk : Config.params.optionNames.lookup option = some key) :
        Answers (.decopt (lineOf l) option tag) (.num (scalarOf (msgdec Config.params (l.getD 5 [])) key)) :=
      decopt_answers (by
        rw [decopt_of_key (isValid_lineOf_of_prefix hl h5.1 htag) (payloadOf_lineOf_some hl h5) hk, select_eq_scalarOf])
    refine ⟨hnamed .type rfl, hnamed .mmsi rfl, hnamed .navStatus rfl, hnamed .rot rfl, hnamed .sog rfl,
      hnamed .posAccuracy rfl, hnamed .lon rfl, hnamed .lat rfl, hnamed .cog rfl, hnamed .heading rfl,
      hnamed .timestamp rfl, hnamed .imo rfl, hnamed .shipType rfl, hnamed .dimA rfl, hnamed .dimB rfl,
      hnamed .dimC rfl, hnamed .dimD rfl, hnamed .partNumber rfl, fun option hoption => ?_⟩
    exact decopt_answers (decopt_eq_zero (.inr (.inr (lookup_optionNames_eq_none hoption))))

end Sys2Proof.Machine

/-! The obligations of the message encode family: what each encoder sends or refuses, how long that is, and what MSGDEC
makes of it (rules R150 to R160). -/

namespace Sys2Proof.Machine

open Sys2Proof.Spec

/-! ### Encode, then decode -/

/-- MSGDEC of what a message's sentences carry answers what the row that the padded message is answers. -/
theorem msgdec_carried_answers {b : Bits} {i : Instr} {r : Response} (hrow : decodeBits (padSix b) = i)
    (hr : resultOf i = .ok r) : Answers (.msgdec (carried (sentencesOf b))) r := by
  rw [answers_iff, msgdec_carried, hrow, hr]

/-- Settles O49: an accepted operand tuple is the row its own message decodes to, and the row delivers it. -/
theorem positionsSurviveEncodeAndDecode : Obligations.PositionsSurviveEncodeAndDecode := by
  refine ⟨fun t f l h => ?_, fun f l h => ?_, fun f l h => ?_⟩
  · obtain ⟨ht, hf, rfl⟩ := encposa_inv h
    obtain ⟨h1, h2, h3⟩ := decodeBits_posA hf
    obtain rfl | rfl | rfl := ht
    · exact msgdec_carried_answers h1 rfl
    · exact msgdec_carried_answers h2 rfl
    · exact msgdec_carried_answers h3 rfl
  · obtain ⟨hf, rfl⟩ := encbase_inv h
    exact msgdec_carried_answers (decodeBits_base hf) rfl
  · obtain ⟨hf, rfl⟩ := encposb_inv h
    exact msgdec_carried_answers (decodeBits_posB hf) rfl

/-- The record of a type-5 message with encoded texts holds them filtered (rules R112, R126, R155). -/
theorem recVoyage_voyageBits (f : Voyage Str) :
    recVoyage (voyageBits Config.params f) =
      { type := 5, mmsi := f.mmsi.toNat, imo := f.imo.toNat,
        callsign := ((f.callsign.take 7).map upperOf).filter survives,
        shipName := ((f.shipName.take 20).map upperOf).filter survives, shipType := f.shipType.toNat,
        dimA := f.dimA.toNat, dimB := f.dimB.toNat, dimC := f.dimC.toNat, dimD := f.dimD.toNat } := by
  simp only [recVoyage, voyageBits, txtdec_txtenc]
  rfl

/-- The record of a type-24 part-0 message with an encoded name holds it filtered (rules R112, R129, R157). -/
theorem recNameA_nameABits (f : NameA Str) :
    recNameA (nameABits Config.params f) =
      { type := 24, mmsi := f.mmsi.toNat, partNumber := 0,
        shipName := ((f.shipName.take 20).map upperOf).filter survives } := by
  simp only [recNameA, nameABits, txtdec_txtenc]
  rfl

/-- The record of a type-24 part-1 message with an encoded callsign holds it filtered (rules R112, R130, R158). -/
theorem recStaticB_staticBBits (f : StaticB Str) :
    recStaticB (staticBBits Config.params f) =
      { type := 24, mmsi := f.mmsi.toNat, partNumber := 1, shipType := f.shipType.toNat,
        callsign := ((f.callsign.take 7).map upperOf).filter survives, dimA := f.dimA.toNat,
        dimB := f.dimB.toNat, dimC := f.dimC.toNat, dimD := f.dimD.toNat } := by
  simp only [recStaticB, staticBBits, txtdec_txtenc]
  rfl

/-- Settles O50: the row a message decodes to has the encoded texts as its text fields, and TXTDEC filters them. -/
theorem staticDataSurvivesEncodeAndDecode : Obligations.StaticDataSurvivesEncodeAndDecode := by
  refine ⟨fun f l h => ?_, fun f l h => ?_, fun f l h => ?_⟩
  · obtain ⟨hf, rfl⟩ := encstat_inv h
    obtain ⟨hc, hn⟩ := voyageBits_lengths f
    rw [← recVoyage_voyageBits]
    exact msgdec_carried_answers (decodeBits_voyage (f := voyageBits Config.params f) hf hc hn) rfl
  · obtain ⟨hf, rfl⟩ := enc24a_inv h
    rw [← recNameA_nameABits]
    exact msgdec_carried_answers (decodeBits_nameA (f := nameABits Config.params f) hf (nameABits_length f)) rfl
  · obtain ⟨hf, rfl⟩ := enc24b_inv h
    rw [← recStaticB_staticBBits]
    exact msgdec_carried_answers (decodeBits_staticB (f := staticBBits Config.params f) hf (staticBBits_length f)) rfl

/-! ### What an encoder sends -/

section Encoder

variable {i : Instr} {x : Except Refusal (List Str)} {p : Prop} [Decidable p] {b : Bits} {e : Refusal}
  (hx : x = if p then .ok (sentencesOf b) else .error e) (hi : resultOf i = x.map .sentences)
include hx hi

/-- An encoder whose operands meet its check answers the sentences of its message. -/
theorem encoder_answers (h : p) : Answers i (.sentences (sentencesOf b)) := by
  rw [answers_iff, hi, hx, if_pos h]
  rfl

/-- An encoder whose operands meet its check sends its message (rule R150). -/
theorem encoder_sends (h : p) : SendsMessage i b :=
  sendsMessage_of_result (answers_iff.mp (encoder_answers hx hi h))

/-- An encoder whose operands fail its check is refused (rules R152, R196). -/
theorem encoder_refuses (h : ¬p) : Refuses i e :=
  refuses_iff.mpr (hi.trans (map_eq_error _ (hx.trans (if_neg h))))

end Encoder

section Message

variable {n : Nat} {type mmsi : Int} {fs : List Put} (g : GoodLayout n type mmsi fs)
include g

/-- A field written with a natural number spells it. -/
theorem messageBits_fieldValue_nat {s l k : Nat} (hf : Put.unsigned s l k ∈ headerPuts type mmsi ++ fs)
    (hk : k < 2 ^ l) : fieldValue (messageBits n type mmsi fs) s l = k := by
  have hfits : fitsU l k = true := by
    simp only [fitsU, Bool.and_eq_true, decide_eq_true_eq]
    exact ⟨Int.natCast_nonneg k, by exact_mod_cast hk⟩
  exact_mod_cast messageBits_fieldValue g hf hfits

theorem messageBits_mmsi (hm : fitsU 30 mmsi = true) :
    (fieldValue (messageBits n type mmsi fs) 8 30 : Int) = mmsi :=
  messageBits_fieldValue g (by simp [headerPuts]) hm

end Message

/-- Settles O42: the message is the layout of rule R70 written into 168 zeros. -/
theorem encposaSendsItsFields : Obligations.EncposaSendsItsFields := by
  refine fun t f => ⟨rfl, fun ht hf => ?_, encoder_refuses (encPosA_eq t f) rfl⟩
  have g := goodLayout_posA t f.mmsi f
  refine ⟨_, encoder_sends (encPosA_eq t f) rfl ⟨ht, hf⟩, messageBits_length g, ?_⟩
  simp only [PosA.fits, Bool.and_eq_true] at hf
  obtain ⟨⟨⟨⟨⟨⟨⟨⟨hmmsi, hstatus⟩, hrot⟩, hsog⟩, hlon⟩, hlat⟩, hcog⟩, hheading⟩, htime⟩ := hf
  have htype : fitsU 6 t = true := by rcases ht with rfl | rfl | rfl <;> decide
  refine ⟨messageBits_fieldValue g (by simp [headerPuts]) htype, messageBits_mmsi g hmmsi,
    messageBits_fieldValue g (by simp [PosA.puts]) hstatus,
    messageBits_signedValue g (by decide) (by simp [PosA.puts]) hrot,
    messageBits_fieldValue g (by simp [PosA.puts]) hsog, messageBits_bit g (by simp [PosA.puts]),
    messageBits_signedValue g (by decide) (by simp [PosA.puts]) hlon,
    messageBits_signedValue g (by decide) (by simp [PosA.puts]) hlat,
    messageBits_fieldValue g (by simp [PosA.puts]) hcog, messageBits_fieldValue g (by simp [PosA.puts]) hheading,
    messageBits_fieldValue g (by simp [PosA.puts]) htime, ?_, ?_⟩ <;>
  exact messageBits_zeroFrom g (by decide) (by simp [headerPuts, PosA.puts, putEnd, putStart, putBits])

/-- Settles O43: the message is the layout of rule R71 written into 168 zeros. -/
theorem encbaseSendsItsFields : Obligations.EncbaseSendsItsFields := by
  refine fun f => ⟨rfl, fun hf => ?_, fun hf => encoder_refuses (encBase_eq f) rfl (Bool.eq_false_iff.mp hf)⟩
  have g := goodLayout_base 4 f.mmsi f
  refine ⟨_, encoder_sends (encBase_eq f) rfl hf, messageBits_length g, ?_⟩
  simp only [Base.fits, Bool.and_eq_true] at hf
  obtain ⟨⟨hmmsi, hlon⟩, hlat⟩ := hf
  refine ⟨messageBits_fieldValue_nat g (by simp [headerPuts]) (by decide), messageBits_mmsi g hmmsi,
    messageBits_signedValue g (by decide) (by simp [Base.puts]) hlon,
    messageBits_signedValue g (by decide) (by simp [Base.puts]) hlat, ?_, ?_, ?_⟩ <;>
  exact messageBits_zeroFrom g (by decide) (by simp [headerPuts, Base.puts, putEnd, putStart, putBits])

/-- Settles O44: the message is the layout of rule R72 written into 424 zeros, with TXTENC's groups as its texts. -/
theorem encstatSendsItsFields : Obligations.EncstatSendsItsFields := by
  refine fun f => ⟨rfl, fun hf => ?_, fun hf => encoder_refuses (encStat_eq f) rfl (Bool.eq_false_iff.mp hf)⟩
  obtain ⟨hc, hn⟩ := voyageBits_lengths f
  have g := goodLayout_voyage 5 f.mmsi hc hn
  have htwo := encoder_answers (i := .encstat f) (encStat_eq f) rfl hf
  rw [sentencesOf_two (messageBits_length g)] at htwo
  refine ⟨_, encoder_sends (encStat_eq f) rfl hf, messageBits_length g, ?_⟩
  simp only [Voyage.fits, Bool.and_eq_true] at hf
  obtain ⟨⟨⟨⟨⟨⟨hmmsi, himo⟩, hship⟩, hdimA⟩, hdimB⟩, hdimC⟩, hdimD⟩ := hf
  refine ⟨messageBits_fieldValue_nat g (by simp [headerPuts]) (by decide), messageBits_mmsi g hmmsi,
    messageBits_fieldValue g (by simp [Voyage.puts, voyageBits]) himo,
    txtenc_answers_iff.mpr (messageBits_subBits g hc (by simp [Voyage.puts])).symm,
    txtenc_answers_iff.mpr (messageBits_subBits g hn (by simp [Voyage.puts])).symm,
    messageBits_fieldValue g (by simp [Voyage.puts, voyageBits]) hship,
    messageBits_fieldValue g (by simp [Voyage.puts, voyageBits]) hdimA,
    messageBits_fieldValue g (by simp [Voyage.puts, voyageBits]) hdimB,
    messageBits_fieldValue g (by simp [Voyage.puts, voyageBits]) hdimC,
    messageBits_fieldValue g (by simp [Voyage.puts, voyageBits]) hdimD, ?_, ?_, voyage_zeroFrom hc hn, _, _, htwo⟩ <;>
  exact messageBits_zeroFrom g (by decide) (by simp [headerPuts, Voyage.puts, putEnd, putStart, putBits])

/-- Settles O45: the message is the layout of rule R73 written into 168 zeros. -/
theorem encposbSendsItsFields : Obligations.EncposbSendsItsFields := by
  refine fun f => ⟨rfl, fun hf => ?_, fun hf => encoder_refuses (encPosB_eq f) rfl (Bool.eq_false_iff.mp hf)⟩
  have g := goodLayout_posB 18 f.mmsi f
  refine ⟨_, encoder_sends (encPosB_eq f) rfl hf, messageBits_length g, ?_⟩
  simp only [PosB.fits, Bool.and_eq_true] at hf
  obtain ⟨⟨⟨⟨⟨hmmsi, hsog⟩, hlon⟩, hlat⟩, hcog⟩, hheading⟩ := hf
  refine ⟨messageBits_fieldValue_nat g (by simp [headerPuts]) (by decide), messageBits_mmsi g hmmsi,
    messageBits_fieldValue g (by simp [PosB.puts]) hsog,
    messageBits_signedValue g (by decide) (by simp [PosB.puts]) hlon,
    messageBits_signedValue g (by decide) (by simp [PosB.puts]) hlat,
    messageBits_fieldValue g (by simp [PosB.puts]) hcog, messageBits_fieldValue g (by simp [PosB.puts]) hheading,
    ?_, ?_, ?_, ?_⟩ <;>
  exact messageBits_zeroFrom g (by decide) (by simp [headerPuts, PosB.puts, putEnd, putStart, putBits])

/-- Settles O46: the message is the layout of rule R75 written into 160 zeros, with TXTENC's groups as its name. -/
theorem encTwentyFourASendsItsFields : Obligations.EncTwentyFourASendsItsFields := by
  refine fun f => ⟨rfl, fun hf => ?_, fun hf => encoder_refuses (encNameA_eq f) rfl (Bool.eq_false_iff.mp hf)⟩
  have hn := nameABits_length f
  have g := goodLayout_nameA 24 f.mmsi hn
  exact ⟨_, encoder_sends (encNameA_eq f) rfl hf, messageBits_length g,
    messageBits_fieldValue_nat g (by simp [headerPuts]) (by decide), messageBits_mmsi g hf,
    messageBits_fieldValue_nat g (by simp [NameA.puts]) (by decide),
    txtenc_answers_iff.mpr (messageBits_subBits g hn (by simp [NameA.puts])).symm,
    messageBits_zeroFrom g (by decide) (by simp [headerPuts, NameA.puts, putEnd, putStart, putBits])⟩

/-- Settles O47: the message is the layout of rule R76 written into 160 zeros, with TXTENC's groups as its callsign. -/
theorem encTwentyFourBSendsItsFields : Obligations.EncTwentyFourBSendsItsFields := by
  refine fun f => ⟨rfl, fun hf => ?_, fun hf => encoder_refuses (encStaticB_eq f) rfl (Bool.eq_false_iff.mp hf)⟩
  have hc := staticBBits_length f
  have g := goodLayout_staticB 24 f.mmsi hc
  refine ⟨_, encoder_sends (encStaticB_eq f) rfl hf, messageBits_length g, ?_⟩
  simp only [StaticB.fits, Bool.and_eq_true] at hf
  obtain ⟨⟨⟨⟨⟨hmmsi, hship⟩, hdimA⟩, hdimB⟩, hdimC⟩, hdimD⟩ := hf
  refine ⟨messageBits_fieldValue_nat g (by simp [headerPuts]) (by decide), messageBits_mmsi g hmmsi,
    messageBits_fieldValue_nat g (by simp [StaticB.puts]) (by decide),
    messageBits_fieldValue g (by simp [StaticB.puts, staticBBits]) hship,
    txtenc_answers_iff.mpr (messageBits_subBits g hc (by simp [StaticB.puts])).symm,
    messageBits_fieldValue g (by simp [StaticB.puts, staticBBits]) hdimA,
    messageBits_fieldValue g (by simp [StaticB.puts, staticBBits]) hdimB,
    messageBits_fieldValue g (by simp [StaticB.puts, staticBBits]) hdimC,
    messageBits_fieldValue g (by simp [StaticB.puts, staticBBits]) hdimD, ?_, ?_⟩ <;>
  exact messageBits_zeroFrom g (by decide) (by simp [headerPuts, StaticB.puts, putEnd, putStart, putBits, hc])

/-! ### How long it is -/

/-- A message of `n` bits is one character for each six bits, and one sentence for each 62 characters (rules R91,
R174). -/
theorem sentencesOf_counts {b : Bits} {n : Nat} (h : b.length = n) :
    (carried (sentencesOf b)).length = (n + 5) / 6 ∧ (sentencesOf b).length = ((n + 5) / 6 + 61) / 62 := by
  rw [carried_sentencesOf, toArmor_length, sentencesOf_length, h]
  exact ⟨rfl, rfl⟩

/-- Settles O48: an answer is the sentences of a message whose layout fixes its length. -/
theorem fragmentCounts : Obligations.FragmentCounts := by
  refine ⟨fun t f l h => ?_, fun f l h => ?_, fun f l h => ?_, fun f l h => ?_, fun f l h => ?_, fun f l h => ?_⟩
  · obtain ⟨-, -, rfl⟩ := encposa_inv h
    exact sentencesOf_counts (messageBits_length (goodLayout_posA t f.mmsi f))
  · obtain ⟨-, rfl⟩ := encbase_inv h
    exact sentencesOf_counts (messageBits_length (goodLayout_base 4 f.mmsi f))
  · obtain ⟨-, rfl⟩ := encposb_inv h
    exact sentencesOf_counts (messageBits_length (goodLayout_posB 18 f.mmsi f))
  · obtain ⟨-, rfl⟩ := enc24a_inv h
    exact sentencesOf_counts (messageBits_length (goodLayout_nameA 24 f.mmsi (nameABits_length f)))
  · obtain ⟨-, rfl⟩ := enc24b_inv h
    exact sentencesOf_counts (messageBits_length (goodLayout_staticB 24 f.mmsi (staticBBits_length f)))
  · obtain ⟨-, rfl⟩ := encstat_inv h
    obtain ⟨hc, hn⟩ := voyageBits_lengths f
    exact sentencesOf_counts (messageBits_length (goodLayout_voyage 5 f.mmsi hc hn))

/-! ### Quantised positions -/

/-- The scaled value of a quantised position is NaN at a sentinel and within 1/600000 of the position elsewhere, on
either axis (rules R120, R121, R152). -/
theorem scaled_position_close {tenth : Rat → Int} {position : Config.Axis → Num → Int}
    (hq : Config.IsQuant tenth position) (a : Config.Axis) (x : Rat) (sentinel : Prop) [Decidable sentinel] :
    let y : Num := if sentinel then .nan else .rat ((position a (.rat x) : Rat) / 600000)
    y = .nan ∧ sentinel ∨ ∃ q, y = .rat q ∧ |q - x| ≤ 1 / 600000 := by
  by_cases h : sentinel
  · exact .inl ⟨if_pos h, h⟩
  · exact .inr ⟨_, if_neg h, hq.position_close a x⟩

/-- Settles O52: QUANT's bound is the distance of the exact rational DECLON and DECLAT answer, and its NaN is each axis'
first sentinel. -/
theorem quantisedPositionsComeBack : Obligations.QuantisedPositionsComeBack := by
  intro tenth position hq
  refine ⟨fun x => ⟨_, declon_answers _, scaled_position_close hq .lon x _⟩,
    fun x => ⟨_, declat_answers _, scaled_position_close hq .lat x _⟩, ?_, ?_⟩
  · rw [hq.position_nan]
    exact declon_answers Config.lonSentinel
  · rw [hq.position_nan]
    exact declat_answers Config.latSentinel

end Sys2Proof.Machine

/-! The obligations of the framer family: ISVALID, PARSE, CHKSUM, FRAME and CHKVFY (rules R170 to R176). -/

namespace Sys2Proof.Machine

open Sys2Proof.Spec

/-! ### Lines: ISVALID and PARSE -/

/-- Settles O53: the answer is the model's test, which compares as many bytes of the line as the prefix has. -/
theorem isvalidTestsPrefixAndComma : Obligations.IsvalidTestsPrefixAndComma :=
  fun line pfx => ⟨rfl, isValid line pfx, answers_iff.mpr rfl, isValid_iff line pfx⟩

/-- PARSE answers the fields the commas cut the line into, with its test of their number (rule R171). -/
theorem parse_answers (line : Str) : Answers (.parse line) (.fields (split line) (decide (7 ≤ (split line).length))) :=
  answers_iff.mpr rfl

/-- Settles O54: the fields are those of SPLIT, which cuts once for each comma and is undone by joining. -/
theorem parseCutsAtCommas : Obligations.ParseCutsAtCommas :=
  fun line => ⟨rfl, split line, _, parse_answers line, split_isFields line, lineOf_split line, split_length line,
    decide_eq_true_iff⟩

/-! ### The checksum: CHKSUM and CHKVFY -/

/-- CHKSUM of a body between its delimiters (rule R173). -/
theorem chksum_answers_body {body : Str} (h : star ∉ body) (rest : Str) :
    Answers (.chksum (bang :: (body ++ star :: rest))) (.nat (xor8 body)) := by
  rw [answers_iff, resultOf, chksum_body h]
  rfl

/-- Settles O55: with its delimiters a sentence has one body, whose exclusive-or is a byte; without them it has none. -/
theorem chksumXorsBetweenDelimiters : Obligations.ChksumXorsBetweenDelimiters := by
  refine ⟨fun _ => rfl, fun body rest hbody => ?_, fun t ht => ?_⟩
  · rw [xorOf_eq]
    exact ⟨chksum_answers_body hbody rest, Nat.le_of_lt_succ (xor8_lt body)⟩
  · exact refuses_iff.mpr (map_eq_error _ (chksum_none ht))

/-- The checksum's digits as the spec spells them (rules R14, R173). -/
theorem hexOf_xorOf (body : Str) : hexOf (xorOf body) = hex2 (xor8 body) := by
  rw [xorOf_eq, hexOf_eq (xor8_lt body)]

/-- Settles O58: the answer is the model's test, which compares the two bytes after the first `*` with the digits. -/
theorem chkvfyAcceptsTheChecksum : Obligations.ChkvfyAcceptsTheChecksum := by
  refine fun t => ⟨rfl, chkvfy t, answers_iff.mpr rfl, (chkvfy_iff t).trans ?_⟩
  simp only [hexOf_xorOf, List.cons_append, List.append_assoc]
  rfl

/-! ### FRAME -/

/-- FRAME answers exactly when its tag is one of the two, and then one sentence for each chunk (rule R174). -/
theorem frame_answers_iff {payload tag : Str} {l : List Str} :
    Answers (.frame payload tag) (.sentences l) ↔
      isTag tag ∧ l = (List.range (fragments payload)).map fun k =>
        sentence tag (fragments payload) (k + 1) (slice payload (62 * k) 62) := by
  rw [answers_iff, resultOf, map_eq_ok_iff fun _ _ => Response.sentences.inj]
  exact ⟨frame_inv, fun ⟨htag, hl⟩ => hl ▸ frame_ok htag payload⟩

/-- Settles O56: sentence `k + 1` is the template filled with the slice of 62 bytes at `62 * k`. -/
theorem frameWrapsGreedyChunks : Obligations.FrameWrapsGreedyChunks := by
  refine fun payload tag => ⟨rfl, fun htag => ?_, fun hvdm hvdo => ?_⟩
  · refine ⟨_, frame_answers_iff.mpr ⟨htag, rfl⟩, by simp [fragments_eq], fun k hk => ?_⟩
    rw [List.length_map, List.length_range] at hk ⊢
    rw [List.getElem?_map, List.getElem?_range hk, Option.map_some, sentence_eq htag]
    rfl
  · exact refuses_iff.mpr (map_eq_error _ (frame_bad (fun htag => htag.elim hvdm hvdo) payload))

/-! ### The laws of a sentence -/

/-- A sentence ends in the two digits of its body's checksum (rule R174). -/
theorem sentence_drop (tag : Str) (n i : Nat) (chunk : Str) :
    (sentence tag n i chunk).drop ((sentence tag n i chunk).length - 2) = hex2 (xor8 (sentenceBody tag n i chunk)) := by
  have hsplit : sentence tag n i chunk =
      (bang :: sentenceBody tag n i chunk ++ [star]) ++ hex2 (xor8 (sentenceBody tag n i chunk)) := by
    rw [sentence_shape]
    simp
  rw [hsplit, List.length_append, hex2_length, Nat.add_sub_cancel, List.drop_left]

/-- CHKVFY accepts the sentence of a chunk without `*` (rules R175, R176). -/
theorem chkvfy_sentence {tag : Str} (h : isTag tag) (n i : Nat) {chunk : Str} (hc : star ∉ chunk) :
    chkvfy (sentence tag n i chunk) = true :=
  (chkvfy_iff _).mpr ⟨_, [], star_not_mem_body h n i hc, by rw [sentence_shape, List.append_nil]⟩

/-- The checksum law of one sentence (rule R175). -/
theorem sentence_checks {tag : Str} (h : isTag tag) (n i : Nat) {chunk : Str} (hc : star ∉ chunk) :
    ∃ x, Answers (.chksum (sentence tag n i chunk)) (.nat x) ∧
      (sentence tag n i chunk).drop ((sentence tag n i chunk).length - 2) = hexOf x ∧
      Answers (.chkvfy (sentence tag n i chunk)) (.bool true) := by
  refine ⟨xor8 (sentenceBody tag n i chunk), ?_, ?_, ?_⟩
  · rw [sentence_shape]
    exact chksum_answers_body (star_not_mem_body h n i hc) _
  · rw [sentence_drop, hexOf_eq (xor8_lt _)]
  · rw [answers_iff, resultOf, chkvfy_sentence h n i hc]

/-- The line laws of one sentence: it is valid for its tag and has seven fields (rule R175). -/
theorem sentence_parses {tag : Str} (h : isTag tag) (n i : Nat) {chunk : Str} (hc : comma ∉ chunk) :
    Answers (.isvalid (sentence tag n i chunk) tag) (.bool true) ∧
      ∃ fs, Answers (.parse (sentence tag n i chunk)) (.fields fs true) ∧ fs.length = 7 := by
  have hparse := parse_answers (sentence tag n i chunk)
  rw [split_sentence h n i hc] at hparse
  refine ⟨?_, sentenceFields tag n i chunk, hparse, rfl⟩
  rw [answers_iff, resultOf, isValid_sentence h n i chunk]

/-- Settles O57: each sentence is that of a slice of the payload, which holds no byte the payload does not. -/
theorem frameLaws : Obligations.FrameLaws := by
  intro payload tag l hframe
  obtain ⟨htag, rfl⟩ := frame_answers_iff.mp hframe
  refine ⟨fun hstar t ht => ?_, fun hcomma => ⟨carried_frame htag hcomma, fun t ht => ?_⟩⟩
  · obtain ⟨k, -, rfl⟩ := List.mem_map.mp ht
    exact sentence_checks htag _ _ fun hm => hstar (slice_sublist payload _ _ _ hm)
  · obtain ⟨k, -, rfl⟩ := List.mem_map.mp ht
    exact sentence_parses htag _ _ fun hm => hcomma (slice_sublist payload _ _ _ hm)

end Sys2Proof.Machine

/-! The obligation of the exceptions family: the operations without a refusal (rules R190, R196). -/

namespace Sys2Proof.Machine

open Sys2Proof.Spec

/-- MSGDEC answers the record of any payload, with its VARIANT (rules R122, R196). -/
theorem msgdec_answers (payload : Str) :
    Answers (.msgdec payload) (.record (msgdec Config.params payload)
      (variantOf (msgdec Config.params payload) (6 * payload.length))) :=
  msgdec_answers_iff.mpr ⟨rfl, rfl⟩

/-- A line turned away gets the zero record, and any other line the record of its payload: DECLINE refuses neither
(rules R135, R196). -/
theorem decline_answers_record (line : Str) : ∃ r v, Answers (.decline line) (.record r v) := by
  have turned_away (h : (isValid line Config.tagVDM || isValid line Config.tagVDO) = false ∨ payloadOf line = none) :
      ∃ r v, Answers (.decline line) (.record r v) :=
    ⟨_, _, answers_iff.mpr (congrArg Except.ok (declineResponse_of_turned_away _ h))⟩
  cases hv : isValid line Config.tagVDM || isValid line Config.tagVDO with
  | false => exact turned_away (.inl hv)
  | true =>
    cases hp : payloadOf line with
    | none => exact turned_away (.inr hp)
    | some payload =>
      exact ⟨_, _, answers_iff.mpr (congrArg Except.ok (declineResponse_of_payload _ hv hp))⟩

/-- Settles O12: each of the twelve delivers the response its own lemma gives, and DECLINE one on each of its paths. -/
theorem totalOperationsComplete : Obligations.TotalOperationsComplete :=
  ⟨decline_answers_record,
    fun _ _ _ => ⟨_, decopt_answers rfl⟩,
    fun payload => ⟨_, _, msgdec_answers payload⟩,
    fun payload => ⟨_, tobits_answers payload⟩,
    fun b => ⟨_, toarmor_answers b⟩,
    fun b => ⟨_, txtdec_answers b⟩,
    fun text m => ⟨_, txtenc_answers text m⟩,
    fun raw => ⟨_, declon_answers raw⟩,
    fun raw => ⟨_, declat_answers raw⟩,
    fun line pfx => (isvalidTestsPrefixAndComma line pfx).2.imp fun _ h => h.1,
    fun line => ⟨_, _, parse_answers line⟩,
    fun t => (chkvfyAcceptsTheChecksum t).2.imp fun _ h => h.1⟩

end Sys2Proof.Machine

/-! The obligations of the family of the model's own choices: the step with no request pending, and the step of a request
whose operands are not of its operation's shapes (log entries 2 and 3). -/

namespace Sys2Proof.Machine

/-- With no request pending a step changes nothing (log entry 2). -/
theorem step_of_idle {s : State} (h : s.requests = []) : step s = .next s := by
  simp only [step, h]

/-- Only a code the opcode table leaves free is rejected as unassigned: an assigned code's own arm decides by the operands
(rule R79). -/
theorem unassigned_of_decodeRequest {r : Request} (h : decodeRequest r = .error .unassignedOpsel) :
    r.opsel = 0x00 ∨ 0x19 ≤ r.opsel := by
  unfold decodeRequest at h
  split at h
  case h_25 => -- the decoder's last arm: OPSEL is none of the 24 assigned codes
    simp only [imp_false] at *
    bv_omega
  all_goals split at h <;> cases h

/-- Every request with an assigned OPSEL is the encoding of an instruction or is rejected for its operands' shapes (log
entry 3). -/
theorem decodeRequest_operandShape {r : Request} (hlo : 0x01 ≤ r.opsel) (hhi : r.opsel ≤ 0x18)
    (henc : ∀ i, encode i ≠ .request r) : decodeRequest r = .error .operandShape := by
  cases hd : decodeRequest r with
  | ok i => exact absurd (decodeRequest_ok hd).1 (henc i)
  | error e =>
    cases e with
    | operandShape => rfl
    | unassignedOpsel =>
      have hfree := unassigned_of_decodeRequest hd
      bv_omega

/-- Settles O4: with no request pending the step is the idle one, and a request of an assigned OPSEL that no instruction
encodes to can only be rejected for its shapes, which its step reports. -/
theorem idleStepAndMisshapenRequest : Obligations.IdleStepAndMisshapenRequest :=
  ⟨fun _ => step_of_idle, fun _ _ _ hr hlo hhi henc => step_of_rejected hr (decodeRequest_operandShape hlo hhi henc)⟩

end Sys2Proof.Machine
